-- ==== Sys2Proof/Word.lean ====
section
/-! DEFINITION. The word types of the Si5351 Divider Register Encoder (DRE) and the small data types that
the command syntax, the state and the transport share. Rules cited are those of spec/ (R<n>). -/

namespace Sys2Proof

/-- A register value or a data byte: every chip register holds 8 bits (R28). -/
abbrev Byte := BitVec 8

/-- A chip register number, 0 to 255 (R25, R28). -/
abbrev Reg := BitVec 8

/-- One command: a 128-bit word (R40). -/
abbrev CommandWord := BitVec 128

/-- A numeric operand field `a`, `b` or `c` of a command, `OPND_W` = 32 bits (R7, R40). -/
abbrev Operand := BitVec 32

/-- A frequency in Hz, `FREQ_W` = 64 bits (R7, R14, R44). -/
abbrev Freq := BitVec 64

/-- An R-divider exponent, `RDIV_W` = 3 bits (R7, R14, R40). -/
abbrev RdivExp := BitVec 3

/-- The two PLLs, A = 0 and B = 1 (R7 `N_PLL`, R40). -/
inductive PllId where
  | a
  | b
deriving DecidableEq, Repr

/-- The block kind of a PACK command: 0 = PLL block, 1 = Multisynth block (R40). -/
inductive BlockKind where
  | pll
  | ms
deriving DecidableEq, Repr

/-- The three Multisynth output channels that exist (R7 `N_CH`). -/
inductive Channel where
  | ch0
  | ch1
  | ch2
deriving DecidableEq, Repr

/-- One value per PLL: the indexed state `st.x[p]`, p = A, B (R10, R14). -/
structure PerPll (α : Type) where
  a : α
  b : α
deriving DecidableEq, Repr

/-- One value per channel: the indexed state `st.x[ch]`, ch = 0, 1, 2 (R10, R14). -/
structure PerChannel (α : Type) where
  ch0 : α
  ch1 : α
  ch2 : α
deriving DecidableEq, Repr

/-- The 8 data bytes `d0..d7` of a parameter block, lowest register address first (R33, R46). -/
structure Block where
  d0 : Byte
  d1 : Byte
  d2 : Byte
  d3 : Byte
  d4 : Byte
  d5 : Byte
  d6 : Byte
  d7 : Byte
deriving DecidableEq, Repr

/-- The three packed fixed-point fields P1 (18 bits), P2 and P3 (20 bits each) (R1, R45). -/
structure Fields where
  p1 : BitVec 18
  p2 : BitVec 20
  p3 : BitVec 20
deriving DecidableEq, Repr

end Sys2Proof
end

