-- ==== Sys2Proof/Config.lean ====
section
/-! DEFINITION. What an implementation of the DRE fixes, and the one source of free values. The values
the spec itself fixes (base registers, ranges, widths) stand in Machine/Params.lean. -/

namespace Sys2Proof

/-- The parameters the spec leaves to the implementation and asks a model to take as an argument
(R7; 92_eei_decisions.md D10, D11, D18; 93_implementation_defined.md I6 to I9). They are held in State,
where no step writes them, so that a statement about every state is a statement about every value of
them. -/
structure Params where
  /-- `RDIV_SHIFT`: the bit position of the exponent's bit 0 within the parameter-3 byte (R47). -/
  rdivShift : Nat
  /-- `CLKCTL_LOW`: bits [4:0] of the clock-control byte SETUP_MS writes (R49). -/
  clkctlLow : BitVec 5
  /-- `INIT_PDN_BYTE`: the byte INIT writes to registers 16 to 23 (R69). -/
  initPdnByte : Byte
  /-- `ENFORCE_FOUT_RANGE`: whether SETUP_MS checks the output frequency (R67). -/
  enforceFoutRange : Bool
  /-- `F_OUT_MIN` in Hz, used only when the check is on (R67). -/
  fOutMin : Nat
  /-- `F_OUT_MAX` in Hz, used only when the check is on (R67). -/
  fOutMax : Nat
deriving DecidableEq, Repr

/-- One answer of the transport: `ok` or `err`, and the byte that a successful `readByte` returns
(R11, R27). Every other transaction looks at `ok` alone. -/
structure Answer where
  ok : Bool
  byte : Byte
deriving DecidableEq, Repr, Inhabited

/-- DESIGN CHOICE, safe (log entry 2): the transport's answers beyond those that State lists, one for
each value of State's counter `draws`. They are free inputs under no law (R27): this constant has no
body, so no proof can learn an answer from it. -/
opaque Config.freeAnswer : Nat → Answer

end Sys2Proof
end

