-- ==== Sys2Proof/Syntax.lean ====
section
/-! DEFINITION. The ten commands of the DRE, one constructor per row of spec/opcode_table.json, each with
exactly the operands that R41 lists for it. A field that R41 does not list for a command is ignored by
that command and is no part of its syntax. -/

namespace Sys2Proof

/-- A DRE command (R41, R42). Every operand is an unsigned integer of its field's width; a channel
number is the whole 8-bit field, since channels 3 to 255 are commands too and are answered with
InvalidParameter (R40, R79). -/
inductive Instr where
  /-- INIT: `initialise(crystalFreq, crystalLoad)` (R69). -/
  | init (crystalFreq : Operand) (load : Byte)
  /-- SETUP_PLL: `setupPLL(pllId, mult, num, denom)` (R70). -/
  | setupPll (pll : PllId) (mult num denom : Operand)
  /-- SETUP_PLL_INT: `setupPLLInteger(pllId, mult)` (R71). -/
  | setupPllInt (pll : PllId) (mult : Operand)
  /-- SETUP_MS: `setupMultisynth(channel, pllId, div, num, denom)` (R72). -/
  | setupMs (ch : Byte) (pll : PllId) (div num denom : Operand)
  /-- SETUP_MS_INT: `setupMultisynthInteger(channel, pllId, div)` (R73). -/
  | setupMsInt (ch : Byte) (pll : PllId) (div : Operand)
  /-- SETUP_RDIV: `setupRDivider(channel, exponent)` (R74). -/
  | setupRdiv (ch : Byte) (e : RdivExp)
  /-- PACK: `computeFields(integerPart, numerator, denominator)` (R52). -/
  | pack (kind : BlockKind) (integerPart numerator denominator : Operand)
  /-- SER_PLL: `serializePLLBlock(fields)` (R58). -/
  | serPll (pll : PllId) (p1 p2 p3 : Operand)
  /-- SER_MS: `serializeMultisynthBlock(fields, rDividerBits)` (R59). -/
  | serMs (ch : Byte) (e : RdivExp) (p1 p2 p3 : Operand)
  /-- UNPACK: the inverse of serialization (R60). -/
  | unpack (data : Block)
deriving DecidableEq, Repr

end Sys2Proof
end

