-- ==== Sys2Proof/WellFormed.lean ====
section
/-! DEFINITION. The fields of a command word as R40 lays them out, and which of them make a DRE command
(R42, R43). The operands of `Instr` are typed by their field's width, so every `Instr` can be encoded;
what can be ill formed is a command word: its opcode and its two reserved fields. -/

namespace Sys2Proof

/-- The ten fields of a command word, least significant first (the table of R40). -/
structure Command where
  /-- `cmd[3:0]` -/
  op : BitVec 4
  /-- `cmd[4]` -/
  pll : BitVec 1
  /-- `cmd[5]` -/
  kind : BitVec 1
  /-- `cmd[7:6]`, reserved -/
  rsvLow : BitVec 2
  /-- `cmd[15:8]` -/
  ch : Byte
  /-- `cmd[18:16]` -/
  e : RdivExp
  /-- `cmd[31:19]`, reserved -/
  rsvHigh : BitVec 13
  /-- `cmd[63:32]` -/
  a : Operand
  /-- `cmd[95:64]` -/
  b : Operand
  /-- `cmd[127:96]` -/
  c : Operand
deriving DecidableEq, Repr

/-- Check 1: the opcode is one of 0x1 to 0x6 and 0x8 to 0xB, not one of the reserved 0x0, 0x7 and
0xC to 0xF (R42, R43). -/
def Command.opAssigned (c : Command) : Bool :=
  (1 ≤ c.op.toNat && c.op.toNat ≤ 6) || (8 ≤ c.op.toNat && c.op.toNat ≤ 11)

/-- Check 2: the reserved field `cmd[7:6]` is 0 (R43). -/
def Command.lowReservedZero (c : Command) : Bool := c.rsvLow == 0

/-- Check 3: the reserved field `cmd[31:19]` is 0 (R43). -/
def Command.highReservedZero (c : Command) : Bool := c.rsvHigh == 0

/-- A command is well formed when it is a DRE command in the sense of R43. -/
def Command.wellFormed (c : Command) : Bool :=
  c.opAssigned && c.lowReservedZero && c.highReservedZero

end Sys2Proof
end

