-- ==== Sys2Proof/Decode.lean ====
section
/-! DEFINITION. From a command word to a command and back (R40 to R43). Decoding is total: a word is a
command or is rejected by name. The encoder is written from the same tables. -/

namespace Sys2Proof

/-- Why a word is not a DRE command (R43). -/
inductive DecodeError where
  /-- `cmd[3:0]` is 0x0, 0x7 or 0xC to 0xF. -/
  | reservedOpcode (op : BitVec 4)
  /-- `cmd[7:6]` or `cmd[31:19]` is not 0. -/
  | reservedBits (low : BitVec 2) (high : BitVec 13)
deriving DecidableEq, Repr

/-- The fields of a command word (R40). -/
def Command.ofWord (w : CommandWord) : Command where
  op := w.extractLsb' 0 4
  pll := w.extractLsb' 4 1
  kind := w.extractLsb' 5 1
  rsvLow := w.extractLsb' 6 2
  ch := w.extractLsb' 8 8
  e := w.extractLsb' 16 3
  rsvHigh := w.extractLsb' 19 13
  a := w.extractLsb' 32 32
  b := w.extractLsb' 64 32
  c := w.extractLsb' 96 32

/-- The control word `cmd[31:0]` (R40). -/
def Command.control (c : Command) : BitVec 32 :=
  c.rsvHigh ++ c.e ++ c.ch ++ c.rsvLow ++ c.kind ++ c.pll ++ c.op

/-- The command word of its fields: `c_b_a_cw` from most to least significant (R40). -/
def Command.toWord (c : Command) : CommandWord :=
  c.c ++ c.b ++ c.a ++ c.control

/-- `cmd[4]`: 0 = A, 1 = B (R40). -/
def pllOfBit (v : BitVec 1) : PllId := if v = 0 then .a else .b

/-- The bit of a PLL identifier (R40). -/
def bitOfPll : PllId → BitVec 1
  | .a => 0
  | .b => 1

/-- `cmd[5]`: 0 = PLL block, 1 = Multisynth block (R40). -/
def kindOfBit (v : BitVec 1) : BlockKind := if v = 0 then .pll else .ms

/-- The bit of a block kind (R40). -/
def bitOfKind : BlockKind → BitVec 1
  | .pll => 0
  | .ms => 1

/-- UNPACK's data bytes: `dk` is `a[31-8k : 24-8k]` for k = 0..3 and `b[31-8(k-4) : 24-8(k-4)]` for
k = 4..7 (R41). -/
def blockOfOperands (a b : Operand) : Block where
  d0 := a.extractLsb' 24 8
  d1 := a.extractLsb' 16 8
  d2 := a.extractLsb' 8 8
  d3 := a.extractLsb' 0 8
  d4 := b.extractLsb' 24 8
  d5 := b.extractLsb' 16 8
  d6 := b.extractLsb' 8 8
  d7 := b.extractLsb' 0 8

/-- The operand `a` of UNPACK: `{d0, d1, d2, d3}` (R41). -/
def Block.highOperand (d : Block) : Operand := d.d0 ++ d.d1 ++ d.d2 ++ d.d3

/-- The operand `b` of UNPACK: `{d4, d5, d6, d7}` (R41). -/
def Block.lowOperand (d : Block) : Operand := d.d4 ++ d.d5 ++ d.d6 ++ d.d7

/-- The operands each opcode takes from the fields (R41, R42). -/
def Command.toInstr (c : Command) : Except DecodeError Instr :=
  if !c.opAssigned then .error (.reservedOpcode c.op)
  else if !(c.lowReservedZero && c.highReservedZero) then .error (.reservedBits c.rsvLow c.rsvHigh)
  else match c.op with
    | 0x1#4 => .ok (.init c.a (c.b.extractLsb' 0 8))
    | 0x2#4 => .ok (.setupPll (pllOfBit c.pll) c.a c.b c.c)
    | 0x3#4 => .ok (.setupPllInt (pllOfBit c.pll) c.a)
    | 0x4#4 => .ok (.setupMs c.ch (pllOfBit c.pll) c.a c.b c.c)
    | 0x5#4 => .ok (.setupMsInt c.ch (pllOfBit c.pll) c.a)
    | 0x6#4 => .ok (.setupRdiv c.ch c.e)
    | 0x8#4 => .ok (.pack (kindOfBit c.kind) c.a c.b c.c)
    | 0x9#4 => .ok (.serPll (pllOfBit c.pll) c.a c.b c.c)
    | 0xA#4 => .ok (.serMs c.ch c.e c.a c.b c.c)
    | 0xB#4 => .ok (.unpack (blockOfOperands c.a c.b))
    | op => .error (.reservedOpcode op)

/-- The command a word stands for, or why it stands for none. Which of the two reasons is given when
both hold is a DESIGN CHOICE, safe (log entry 7): the word is refused either way (R43). -/
def decode (w : CommandWord) : Except DecodeError Instr := (Command.ofWord w).toInstr

/-- The opcode of a command (R42). -/
def Instr.opcode : Instr → BitVec 4
  | .init _ _ => 0x1
  | .setupPll _ _ _ _ => 0x2
  | .setupPllInt _ _ => 0x3
  | .setupMs _ _ _ _ _ => 0x4
  | .setupMsInt _ _ _ => 0x5
  | .setupRdiv _ _ => 0x6
  | .pack _ _ _ _ => 0x8
  | .serPll _ _ _ _ => 0x9
  | .serMs _ _ _ _ _ => 0xA
  | .unpack _ => 0xB

/-- A command with only its opcode: every unlisted field assembles as 0 (R51). -/
def Command.bare (op : BitVec 4) : Command where
  op := op
  pll := 0
  kind := 0
  rsvLow := 0
  ch := 0
  e := 0
  rsvHigh := 0
  a := 0
  b := 0
  c := 0

/-- The fields that carry a command's operands (R41). -/
def Instr.toCommand (i : Instr) : Command :=
  match i with
  | .init f l => { Command.bare i.opcode with a := f, b := l.setWidth 32 }
  | .setupPll p m n d => { Command.bare i.opcode with pll := bitOfPll p, a := m, b := n, c := d }
  | .setupPllInt p m => { Command.bare i.opcode with pll := bitOfPll p, a := m }
  | .setupMs ch p v n d =>
    { Command.bare i.opcode with ch := ch, pll := bitOfPll p, a := v, b := n, c := d }
  | .setupMsInt ch p v => { Command.bare i.opcode with ch := ch, pll := bitOfPll p, a := v }
  | .setupRdiv ch e => { Command.bare i.opcode with ch := ch, e := e }
  | .pack k a n d => { Command.bare i.opcode with kind := bitOfKind k, a := a, b := n, c := d }
  | .serPll p x y z => { Command.bare i.opcode with pll := bitOfPll p, a := x, b := y, c := z }
  | .serMs ch e x y z => { Command.bare i.opcode with ch := ch, e := e, a := x, b := y, c := z }
  | .unpack d => { Command.bare i.opcode with a := d.highOperand, b := d.lowOperand }

/-- The word of a command, its ignored fields 0. -/
def encode (i : Instr) : CommandWord := i.toCommand.toWord

/-- The bits of the command word that a command reads: the opcode, the reserved fields and the fields
R41 lists for it. Every other bit is ignored by it. -/
def Instr.readBits (i : Instr) : CommandWord :=
  let fixed := { Command.bare 0xF with rsvLow := 0x3, rsvHigh := 0x1FFF }
  let abc := { fixed with a := 0xFFFFFFFF, b := 0xFFFFFFFF, c := 0xFFFFFFFF }
  match i with
  | .init _ _ => { fixed with a := 0xFFFFFFFF, b := 0xFF : Command }.toWord
  | .setupPll _ _ _ _ => { abc with pll := 1 : Command }.toWord
  | .setupPllInt _ _ => { fixed with pll := 1, a := 0xFFFFFFFF : Command }.toWord
  | .setupMs _ _ _ _ _ => { abc with ch := 0xFF, pll := 1 : Command }.toWord
  | .setupMsInt _ _ _ => { fixed with ch := 0xFF, pll := 1, a := 0xFFFFFFFF : Command }.toWord
  | .setupRdiv _ _ => { fixed with ch := 0xFF, e := 0x7 : Command }.toWord
  | .pack _ _ _ _ => { abc with kind := 1 : Command }.toWord
  | .serPll _ _ _ _ => { abc with pll := 1 : Command }.toWord
  | .serMs _ _ _ _ _ => { abc with ch := 0xFF, e := 0x7 : Command }.toWord
  | .unpack _ => { fixed with a := 0xFFFFFFFF, b := 0xFFFFFFFF : Command }.toWord

/-- A command word given as a number: the low `nbits` bits of `w`, every higher bit 0. -/
def wordOfTable (nbits w : Nat) : CommandWord := BitVec.ofNat 128 (w % 2 ^ nbits)

/-- The command read from the word whose bits are the low `nbits` bits of `w`, with bit 0 the least
significant bit, as spec/opcode_table.json numbers them. A command is one 128-bit word (R40), so there
is no byte order to apply (R33). -/
def decodeTableWord (nbits w : Nat) : Option Instr :=
  match decode (wordOfTable nbits w) with
  | .ok i => some i
  | .error _ => none

end Sys2Proof
end

