-- ==== Sys2Proof/Machine/Params.lean ====
section
/-! DEFINITION. The parameters of R7 that the spec fixes, the chip's register map as far as the DRE uses it
(R31), and the default values of the parameters it leaves open. Several of them are decisions of the spec
and not of its source, taken here as the spec states them: UNVERIFIED, unsafe (log entry 11). -/

namespace Sys2Proof.Machine

/-- `FRAC_MAX`: the largest numerator and denominator (R7). -/
def fracMax : Nat := 0xFFFFF

/-- `PLL_MULT_MIN` (R7). -/
def pllMultMin : Nat := 15

/-- `PLL_MULT_MAX` (R7). -/
def pllMultMax : Nat := 90

/-- `MS_DIV_MIN` (R7). -/
def msDivMin : Nat := 4

/-- `MS_DIV_MAX` (R7). -/
def msDivMax : Nat := 2048

/-- `MS_INT_DIVS`: the divisors SETUP_MS_INT accepts (R7, R73). -/
def msIntDivs : List Nat := [4, 6, 8]

/-- `PLL_BASE[p]`: the first register of PLL p's parameter block (R7, R31). -/
def pllBase : PllId → Reg
  | .a => 26
  | .b => 34

/-- `MS_BASE[ch]`: the first register of Multisynth ch's parameter block (R7, R31). -/
def msBase : Channel → Reg
  | .ch0 => 42
  | .ch1 => 50
  | .ch2 => 58

/-- The parameter-3 byte of channel ch: `MS_BASE[ch] + 2`, that is 44, 52 or 60 (R13, R74). -/
def param3Reg (ch : Channel) : Reg := msBase ch + 2

/-- The clock-control byte of channel ch: `CLKCTL_BASE + ch`, that is 16, 17 or 18 (R7, R49). -/
def clkctlReg : Channel → Reg
  | .ch0 => 16
  | .ch1 => 17
  | .ch2 => 18

/-- The eight clock-control registers, in the order INIT writes them (R31, R69). -/
def clkctlRegs : List Reg := [16, 17, 18, 19, 20, 21, 22, 23]

/-- `RESET_REG` (R7, R31). -/
def resetReg : Reg := 177

/-- `LOADCAP_REG` (R7, R31). -/
def loadcapReg : Reg := 183

/-- `OE_REG` (R7, R31). -/
def oeReg : Reg := 3

/-- `SS_REG` (R7, R31). -/
def ssReg : Reg := 149

/-- `PLL_RESET_BYTE`: bit 7 resets PLL A, bit 5 resets PLL B (R50). -/
def pllResetByte : Byte := 0xA0

/-- The output-enable mask that disables every output (R31, R69). -/
def oeAllDisabled : Byte := 0xFF

/-- The mask that clears bit 7 of the spread-spectrum byte (R69). -/
def ssDisableMask : Byte := 0x7F

/-- The default values of the open parameters (R7). -/
def defaultParams : Params where
  rdivShift := 5
  clkctlLow := 0x0F
  initPdnByte := 0x80
  enforceFoutRange := false
  fOutMin := 500000
  fOutMax := 150000000

end Sys2Proof.Machine
end

