-- ==== Sys2Proof/Machine/State.lean ====
section
/-! DEFINITION. The state of the DRE and of the two agents it talks to (R6), all of it plain data, and the
state at power-on. -/

namespace Sys2Proof.Machine

/-- The transactions the DRE can request of the transport (R11, R25). -/
inductive Request where
  /-- `Probe()` -/
  | probe
  /-- `MemRead(reg, 1)` -/
  | readByte (reg : Reg)
  /-- `MemWrite(reg, 1, v)` -/
  | writeByte (reg : Reg) (v : Byte)
  /-- `MemWrite(reg, n, bytes)`, n ≥ 2: byte i goes to register reg + i (R29) -/
  | writeBurst (reg : Reg) (bytes : List Byte)
deriving DecidableEq, Repr

/-- The answer a transaction received, as the trace records it (R11, R26). -/
inductive Reply where
  /-- a probe or a write answered `ok` -/
  | ok
  /-- a read answered `ok` with a byte -/
  | byte (v : Byte)
  /-- the transaction answered `err` -/
  | err
deriving DecidableEq, Repr

/-- One entry of a trace: a transaction with its operands and the answer it received (R26). -/
structure Transaction where
  request : Request
  reply : Reply
deriving DecidableEq, Repr

/-- The error kinds of `resp.status` (R76). -/
inductive Status where
  | ok
  | deviceNotFound
  | deviceNotInitialised
  | invalidParameter
  | transportError
deriving DecidableEq, Repr

/-- The response record of one command (R20, R44). -/
structure Response where
  status : Status
  p1 : BitVec 18
  p2 : BitVec 20
  p3 : BitVec 20
  base : Byte
  data : Block
  freq : Freq
deriving DecidableEq, Repr

/-- The architectural state `st`: exactly the elements of R14. -/
structure Device where
  /-- `st.initialised` (R15) -/
  initialised : Bool
  /-- `st.xtal_hz` (R16) -/
  xtalHz : BitVec 32
  /-- `st.pll_cfg[p]` (R17) -/
  pllCfg : PerPll Bool
  /-- `st.pll_hz[p]` (R18) -/
  pllHz : PerPll Freq
  /-- `st.rdiv[ch]` (R19) -/
  rdiv : PerChannel RdivExp
deriving DecidableEq, Repr

/-- The ideal chip image `chip[0..255]` (R26, R28): the registers whose byte is known, in one canonical
form (`Memory.wf`). A register that is not listed holds an unknown byte (any value, R36 and I13). -/
abbrev Memory := List Host.Cell

/-- The whole state of a run. Only `st` is read by a command. `commands` and `answers` are the inputs
still to come from the host and the transport, `trace` and `responses` the outputs so far, which with
`st` are the whole observation of a run (R26); no command reads an output. -/
structure State where
  /-- the DRE's architectural state (R14) -/
  st : Device
  /-- the open parameters, which no step writes (R7); DESIGN CHOICE (log entry 3) -/
  params : Params
  /-- the ideal chip image, which the DRE never reads (R26); DESIGN CHOICE, safe (log entry 5) -/
  chip : Memory
  /-- the commands the host has delivered and that have not been executed, oldest first (R3, R38); DESIGN
  CHOICE, safe (log entry 4) -/
  commands : List CommandWord
  /-- the transport's next answers, in order (R27); after the last one, `Config.freeAnswer` answers -/
  answers : List Answer
  /-- the MODEL'S OWN counter: how many free answers have been drawn from `Config.freeAnswer` -/
  draws : Nat
  /-- the trace of the run: every transaction requested, oldest first (R26); DESIGN CHOICE, safe (log
  entry 1) -/
  trace : List Transaction
  /-- the responses of the run, one per executed command, oldest first (R20); DESIGN CHOICE, safe (log
  entry 1) -/
  responses : List Response
deriving DecidableEq, Repr

/-- The faults of the machine: none. A command of the DRE never stops it: every error is a response
status (R76, R82), and every access is to a register that exists (R28, R30). Nobody raises one, which is
safe. -/
inductive Fault where
deriving DecidableEq, Repr

/-- Why a step gives a word no meaning. -/
inductive Refusal where
  /-- Raised by `exec`'s arms for a command that has no meaning yet; safe. No arm raises it. -/
  | notModelled (mnemonic : String)
  /-- Raised by `step` on a command word whose opcode is 0x0, 0x7 or 0xC to 0xF (R43); safe. -/
  | reservedOpcode (op : BitVec 4)
  /-- Raised by `step` on a command word whose reserved bits `cmd[7:6]` or `cmd[31:19]` are not all 0
  (R43); safe. -/
  | reservedBits (low : BitVec 2) (high : BitVec 13)
deriving DecidableEq, Repr

/-- Every element of `st` at its power-on value (R23, R88), which is also its value after an INIT that
failed. -/
def Device.powerOn : Device where
  initialised := false
  xtalHz := 0
  pllCfg := ⟨false, false⟩
  pllHz := ⟨0, 0⟩
  rdiv := ⟨0, 0, 0⟩

/-- The machine right after power-on (R88): the DRE waits for a command, nothing is known of the chip's
registers, and nothing has been requested or answered. The open parameters are at the spec's defaults
(R7, log entry 3); the input lists are empty and `draws` is 0, which are the model's own reset values
(DESIGN CHOICE, log entries 2 and 4). -/
def State.reset : State where
  st := Device.powerOn
  params := defaultParams
  chip := []
  commands := []
  answers := []
  draws := 0
  trace := []
  responses := []

end Sys2Proof.Machine
end

