-- ==== Sys2Proof/Machine/Ops.lean ====
section
/-! DEFINITION. The named operations every command is built from: indexed state, the chip image, the
transport's transactions, the response, and ending a command with an error (R82). -/

namespace Sys2Proof

/-- `st.x[p]` (R10). -/
def PerPll.get {α : Type} (v : PerPll α) : PllId → α
  | .a => v.a
  | .b => v.b

/-- `st.x[p] <- y` (R10). -/
def PerPll.set {α : Type} (v : PerPll α) (p : PllId) (y : α) : PerPll α :=
  match p with
  | .a => { v with a := y }
  | .b => { v with b := y }

/-- `st.x[ch]` (R10). -/
def PerChannel.get {α : Type} (v : PerChannel α) : Channel → α
  | .ch0 => v.ch0
  | .ch1 => v.ch1
  | .ch2 => v.ch2

/-- `st.x[ch] <- y` (R10). -/
def PerChannel.set {α : Type} (v : PerChannel α) (ch : Channel) (y : α) : PerChannel α :=
  match ch with
  | .ch0 => { v with ch0 := y }
  | .ch1 => { v with ch1 := y }
  | .ch2 => { v with ch2 := y }

/-- The bytes of a block in register order (R29, R46). -/
def Block.toList (d : Block) : List Byte := [d.d0, d.d1, d.d2, d.d3, d.d4, d.d5, d.d6, d.d7]

/-- A block of zeros: `resp.data` of a command that does not write it (R20). -/
def Block.zero : Block := ⟨0, 0, 0, 0, 0, 0, 0, 0⟩

namespace Machine

/-! ### The ideal chip image (R26, R36) -/

/-- The canonical form of an image: register numbers strictly rising, all of them below 256 (R28). An
unlisted register has no known byte, so no entry can equal it. -/
abbrev Memory.wf (m : Memory) : Prop :=
  m.Pairwise (fun x y => x.1 < y.1) ∧ ∀ x ∈ m, x.1 < 256

/-- The byte register `a` is known to hold, `none` when it may hold any byte. -/
def Memory.read (m : Memory) (a : Nat) : Option Byte :=
  match m with
  | [] => none
  | (b, v) :: rest => if a = b then some v else Memory.read rest a

/-- Register `a` now holds `v`. -/
def Memory.write (m : Memory) (a : Nat) (v : Byte) : Memory :=
  match m with
  | [] => [(a, v)]
  | (b, w) :: rest =>
    if a < b then (a, v) :: (b, w) :: rest
    else if a = b then (a, v) :: rest
    else (b, w) :: Memory.write rest a v

/-- Register `a` now holds an unknown byte. -/
def Memory.forget (m : Memory) (a : Nat) : Memory :=
  match m with
  | [] => []
  | (b, w) :: rest => if a = b then rest else (b, w) :: Memory.forget rest a

/-- Byte i of `bytes` goes to register `a + i`, in rising order (R29). -/
def Memory.writeMany (m : Memory) (a : Nat) : List Byte → Memory
  | [] => m
  | v :: vs => Memory.writeMany (m.write a v) (a + 1) vs

/-- The `n` registers from `a` on now hold unknown bytes (R36). -/
def Memory.forgetMany (m : Memory) (a : Nat) : Nat → Memory
  | 0 => m
  | n + 1 => Memory.forgetMany (m.forget a) (a + 1) n

/-- The registers a transaction writes: none for a probe or a read (R25, R29). -/
def Request.targets : Request → List Nat
  | .probe => []
  | .readByte _ => []
  | .writeByte r _ => [r.toNat]
  | .writeBurst r bytes => (List.range bytes.length).map (r.toNat + ·)

/-- What a transaction does to the image (R26, R36): a successful write sets its registers, a failed one
leaves every register it targeted unknown, a probe or a read changes nothing. DESIGN CHOICE, safe (log
entry 6): after a burst past register 255, which the spec leaves open and which no command issues
(R30), nothing is known of any register. -/
def Memory.apply (m : Memory) (x : Transaction) : Memory :=
  match x.request with
  | .probe => m
  | .readByte _ => m
  | .writeByte r v =>
    match x.reply with
    | .err => m.forget r.toNat
    | _ => m.write r.toNat v
  | .writeBurst r bytes =>
    if r.toNat + bytes.length ≤ 256 then
      match x.reply with
      | .err => m.forgetMany r.toNat bytes.length
      | _ => m.writeMany r.toNat bytes
    else []

/-- The image after a trace, from an image before it (R26). -/
def Memory.replay (m : Memory) (xs : List Transaction) : Memory := xs.foldl Memory.apply m

/-! ### The transport (R25 to R27, R38) -/

/-- The answer the next transaction will get: the first of the listed answers, and after the last of
them a free one (R27, log entry 2). -/
def State.nextAnswer (s : State) : Answer :=
  match s.answers with
  | x :: _ => x
  | [] => Config.freeAnswer s.draws

/-- The next answer has been drawn. -/
def State.dropAnswer (s : State) : State :=
  match s.answers with
  | _ :: rest => { s with answers := rest }
  | [] => { s with draws := s.draws + 1 }

/-- `n` answers have been drawn. -/
def State.dropAnswers (s : State) : Nat → State
  | 0 => s
  | n + 1 => State.dropAnswers s.dropAnswer n

/-- The answer that the k-th transaction from now (counted from 0) will get. -/
def State.upcoming (s : State) (k : Nat) : Answer := (s.dropAnswers k).nextAnswer

/-- What the trace records of an answer (R11, R26): the byte only of a successful read. -/
def Request.reply (r : Request) (x : Answer) : Reply :=
  if x.ok then
    match r with
    | .readByte _ => .byte x.byte
    | _ => .ok
  else .err

/-- The transaction that request `r` would be, were it made now. -/
def State.transaction (s : State) (r : Request) : Transaction := ⟨r, r.reply s.nextAnswer⟩

/-- Perform transaction `r`: its answer is drawn, the trace records it, and the image follows it. -/
def State.transact (s : State) (r : Request) : State :=
  { s.dropAnswer with
    trace := s.trace ++ [s.transaction r]
    chip := s.chip.apply (s.transaction r) }

/-! ### Responses and errors (R20, R44, R82) -/

/-- A response with every field 0 (R20); its status is set when the command ends. -/
def Response.blank : Response where
  status := .ok
  p1 := 0
  p2 := 0
  p3 := 0
  base := 0
  data := Block.zero
  freq := 0

/-- The 9-byte Multisynth buffer `{base, data[0], ..., data[7]}` (R44, R47). -/
def Response.buffer (r : Response) : List Byte := r.base :: r.data.toList

/-- The command ends and the host gets response `resp` (R20). -/
def respond (resp : Response) (s : State) : State := { s with responses := s.responses ++ [resp] }

/-- `raise E` (R11, R82): the command ends at once with status E and the response fields written so far.
Nothing is saved, no mode changes, and control goes nowhere. There is no return from an error: the next
command finds this state (R83). -/
def raise (e : Status) (resp : Response) (s : State) : State := respond { resp with status := e } s

/-- Perform `r`; if it answers `err`, raise `e`, else go on with the byte it answered, which only a read
looks at. With `e` = TransportError this is `try` (R11). -/
def attempt (e : Status) (r : Request) (resp : Response) (s : State) (k : Byte → State → State) : State :=
  if s.nextAnswer.ok then k s.nextAnswer.byte (s.transact r) else raise e resp (s.transact r)

/-- `try MemWrite(reg, 1, v)` (R11). -/
def tryWrite (reg : Reg) (v : Byte) (resp : Response) (s : State) (k : State → State) : State :=
  attempt .transportError (.writeByte reg v) resp s (fun _ s' => k s')

/-- `for r in regs: try MemWrite(r, 1, v)`, in the order listed (R12). -/
def tryWriteEach (regs : List Reg) (v : Byte) (resp : Response) (s : State) (k : State → State) : State :=
  match regs with
  | [] => k s
  | r :: rest => tryWrite r v resp s (fun s' => tryWriteEach rest v resp s' k)

/-- `try MemWrite(reg, 8, data)`: one burst of a parameter block (R35). -/
def tryBurst (reg : Reg) (d : Block) (resp : Response) (s : State) (k : State → State) : State :=
  attempt .transportError (.writeBurst reg d.toList) resp s (fun _ s' => k s')

/-- `v <- try MemRead(reg, 1)` (R11). -/
def tryRead (reg : Reg) (resp : Response) (s : State) (k : Byte → State → State) : State :=
  attempt .transportError (.readByte reg) resp s k

/-- The prologue of every device command but INIT: `if st.initialised == 0: raise DeviceNotInitialised`
(R68, R78). -/
def requireInitialised (s : State) (k : State) : State :=
  if s.st.initialised then k else raise .deviceNotInitialised Response.blank s

/-! ### The host's command interface (R3, R38, R40) -/

/-- The next command the host has delivered, and the state in which it is executed; `none` while the DRE
waits for one (R88). -/
def State.fetch (s : State) : Option (CommandWord × State) :=
  match s.commands with
  | [] => none
  | w :: rest => some (w, { s with commands := rest })

/-- The host delivers `w` as the very next command. -/
def State.deliverNext (s : State) (w : CommandWord) : State := { s with commands := w :: s.commands }

/-- How a step refuses a word that is no command (R43). -/
def refusalOf : DecodeError → Refusal
  | .reservedOpcode op => .reservedOpcode op
  | .reservedBits low high => .reservedBits low high

end Machine

end Sys2Proof
end

