-- ==== Sys2Proof/Machine/Operands.lean ====
section
/-! DEFINITION. The operand forms of the commands: their documented ranges (R79) and the channel field. All
operands are unsigned (R41); arithmetic on them is exact (R9). -/

namespace Sys2Proof.Machine

/-- `trunc_N(v)`: v mod 2^N in the mathematical sense, negative values included (R9). -/
def trunc (n : Nat) (v : Int) : BitVec n := BitVec.ofInt n v

/-- The Multisynth channel an 8-bit channel field names; `none` when ch > 2 (R7, R79). -/
def channelOf (ch : Byte) : Option Channel :=
  match ch.toNat with
  | 0 => some .ch0
  | 1 => some .ch1
  | 2 => some .ch2
  | _ => none

/-- `b ≤ FRAC_MAX` and `1 ≤ c ≤ FRAC_MAX`: the precondition of `computeFields` (R52). -/
def fracInRange (b c : Operand) : Bool :=
  b.toNat ≤ fracMax && c.toNat ≠ 0 && c.toNat ≤ fracMax

/-- The operand ranges of SETUP_PLL (R70, R79). -/
def pllOperandsInRange (a b c : Operand) : Bool :=
  pllMultMin ≤ a.toNat && a.toNat ≤ pllMultMax && fracInRange b c

/-- The operand ranges of SETUP_MS but for its channel (R72, R79). -/
def msOperandsInRange (a b c : Operand) : Bool :=
  msDivMin ≤ a.toNat && a.toNat ≤ msDivMax && fracInRange b c

/-- The divider range of SETUP_MS_INT (R73, R79). -/
def msIntDivInRange (a : Operand) : Bool := msIntDivs.contains a.toNat

end Sys2Proof.Machine
end

