-- ==== Sys2Proof/Machine/Codec.lean ====
section
/-! DEFINITION. The field packer and byte serializer, and the four codec commands (R52 to R61). They read no
state, write no element of `st` and request no transaction. -/

namespace Sys2Proof.Machine

/-- `computeFields(kind, a, b, c)` before truncation, on exact integers (R52 to R56). -/
def exactFields (kind : BlockKind) (a b c : Nat) : Int × Int × Int :=
  if b = 0 then (128 * a - 512, 0, c)
  else if c = 1 ∧ kind = .ms then (128 * a + 128 * b - 512, 128 * b - 128, 1)
  else
    let q := 128 * b / c
    (128 * a + q - 512, 128 * b - c * q, c)

/-- `computeFields(kind, a, b, c)`: the exact values reduced to their widths (R57). -/
def computeFields (kind : BlockKind) (a b c : Nat) : Fields :=
  let x := exactFields kind a b c
  ⟨trunc 18 x.1, trunc 20 x.2.1, trunc 20 x.2.2⟩

/-- The fields of three serializer operands: `trunc_18(a)`, `trunc_20(b)`, `trunc_20(c)` (R58). -/
def fieldsOfOperands (a b c : Operand) : Fields :=
  ⟨a.extractLsb' 0 18, b.extractLsb' 0 20, c.extractLsb' 0 20⟩

/-- `serPLL(P1, P2, P3)`: the parameter block (R46, R58). -/
def serPll (f : Fields) : Block where
  d0 := f.p3.extractLsb' 8 8
  d1 := f.p3.extractLsb' 0 8
  d2 := (f.p1.extractLsb' 16 2).setWidth 8
  d3 := f.p1.extractLsb' 8 8
  d4 := f.p1.extractLsb' 0 8
  d5 := ((f.p3.extractLsb' 16 4).setWidth 8 <<< 4) ||| (f.p2.extractLsb' 16 4).setWidth 8
  d6 := f.p2.extractLsb' 8 8
  d7 := f.p2.extractLsb' 0 8

/-- `r << RDIV_SHIFT` as bits of the parameter-3 byte (R47). -/
def rdivBits (shift : Nat) (r : RdivExp) : Byte := r.setWidth 8 <<< shift

/-- `serMS(P1, P2, P3, r)`: the parameter block with the R-divider exponent merged into its parameter-3
byte (R47, R59). -/
def serMs (shift : Nat) (f : Fields) (r : RdivExp) : Block :=
  { serPll f with d2 := (f.p1.extractLsb' 16 2).setWidth 8 ||| rdivBits shift r }

/-- The parameter-3 byte SETUP_RDIV writes back: the bits of the byte read below `RDIV_SHIFT`, and the
exponent (R74). -/
def mergeRdiv (shift : Nat) (v : Byte) (e : RdivExp) : Byte :=
  (v &&& BitVec.ofNat 8 (2 ^ shift - 1)) ||| rdivBits shift e

/-- The fields of a parameter block (R60). -/
def unpackFields (d : Block) : Fields where
  p1 := d.d2.extractLsb' 0 2 ++ d.d3 ++ d.d4
  p2 := d.d5.extractLsb' 0 4 ++ d.d6 ++ d.d7
  p3 := d.d5.extractLsb' 4 4 ++ d.d0 ++ d.d1

/-- `resp.p1 <- P1; resp.p2 <- P2; resp.p3 <- P3`. -/
def Response.withFields (r : Response) (f : Fields) : Response :=
  { r with p1 := f.p1, p2 := f.p2, p3 := f.p3 }

/-- `resp.base <- base; resp.data <- data`. -/
def Response.withBlock (r : Response) (base : Byte) (d : Block) : Response :=
  { r with base := base, data := d }

/-- PACK (R52). -/
def execPack (kind : BlockKind) (a b c : Operand) (s : State) : Host.Outcome State Fault Refusal :=
  .next <|
    if fracInRange b c then
      respond (Response.blank.withFields (computeFields kind a.toNat b.toNat c.toNat)) s
    else raise .invalidParameter Response.blank s

/-- SER_PLL (R58). -/
def execSerPll (pll : PllId) (p1 p2 p3 : Operand) (s : State) : Host.Outcome State Fault Refusal :=
  .next <| respond (Response.blank.withBlock (pllBase pll) (serPll (fieldsOfOperands p1 p2 p3))) s

/-- SER_MS (R59). -/
def execSerMs (ch : Byte) (e : RdivExp) (p1 p2 p3 : Operand) (s : State) :
    Host.Outcome State Fault Refusal :=
  .next <|
    match channelOf ch with
    | none => raise .invalidParameter Response.blank s
    | some c =>
      respond (Response.blank.withBlock (msBase c)
        (serMs s.params.rdivShift (fieldsOfOperands p1 p2 p3) e)) s

/-- UNPACK (R60). -/
def execUnpack (d : Block) (s : State) : Host.Outcome State Fault Refusal :=
  .next <| respond (Response.blank.withFields (unpackFields d)) s

end Sys2Proof.Machine
end

