-- ==== Sys2Proof/Machine/Planner.lean ====
section
/-! DEFINITION. The planner's micro-operations (R62 to R67), which the device commands perform. -/

namespace Sys2Proof.Machine

/-- `floor(xtal * (a + b/c))`, exact (R18, R62). -/
def pllHzOf (xtal a b c : Nat) : Nat := xtal * (a * c + b) / c

/-- `recordPLL(p, a, b, c)`: PLL p is configured and its frequency recorded (R62). -/
def recordPll (p : PllId) (a b c : Nat) (s : State) : State :=
  { s with st := { s.st with
      pllCfg := s.st.pllCfg.set p true
      pllHz := s.st.pllHz.set p (BitVec.ofNat 64 (pllHzOf s.st.xtalHz.toNat a b c)) } }

/-- `requireConfigured(p)` (R63). -/
def requireConfigured (p : PllId) (s : State) (k : State) : State :=
  if s.st.pllCfg.get p then k else raise .invalidParameter Response.blank s

/-- `recordRDivider(ch, e)` (R64). -/
def recordRDivider (ch : Channel) (e : RdivExp) (s : State) : State :=
  { s with st := { s.st with rdiv := s.st.rdiv.set ch e } }

/-- `lastRDivider(ch)` (R64). -/
def lastRDivider (ch : Channel) (s : State) : RdivExp := s.st.rdiv.get ch

/-- `msOutputHz(p, a, b, c)`: `floor(f_pll / (a + b/c))`, exact (R66). -/
def msOutputHz (p : PllId) (a b c : Nat) (s : State) : Nat :=
  (s.st.pllHz.get p).toNat * c / (a * c + b)

/-- The output-frequency range check, made only when `ENFORCE_FOUT_RANGE` is set (R67). -/
def requireFoutInRange (f : Nat) (s : State) (k : State) : State :=
  if s.params.enforceFoutRange && (f < s.params.fOutMin || s.params.fOutMax < f) then
    raise .invalidParameter Response.blank s
  else k

end Sys2Proof.Machine
end

