-- ==== Sys2Proof/Machine/Device.lean ====
section
/-! DEFINITION. The six device commands (R68 to R74). Each validates everything, then requests its
transactions in order and stops at the first that fails, then writes `st` (R24). -/

namespace Sys2Proof.Machine

/-- Every element of `st` at its reset value, at once (R24, R69). -/
def resetDevice (s : State) : State := { s with st := Device.powerOn }

/-- The crystal frequency is latched and the DRE is initialised (R69). -/
def markInitialised (xtal : BitVec 32) (s : State) : State :=
  { s with st := { s.st with xtalHz := xtal, initialised := true } }

/-- INIT (R69): probe, disable the outputs, power down the eight drivers, set the load capacitance,
disable spread spectrum. -/
def execInit (crystalFreq : Operand) (load : Byte) (s : State) : Host.Outcome State Fault Refusal :=
  .next <|
    attempt .deviceNotFound .probe Response.blank (resetDevice s) fun _ s1 =>
    tryWrite oeReg oeAllDisabled Response.blank s1 fun s2 =>
    tryWriteEach clkctlRegs s.params.initPdnByte Response.blank s2 fun s3 =>
    tryWrite loadcapReg load Response.blank s3 fun s4 =>
    tryRead ssReg Response.blank s4 fun v s5 =>
    tryWrite ssReg (v &&& ssDisableMask) Response.blank s5 fun s6 =>
    respond Response.blank (markInitialised crystalFreq s6)

/-- The response of SETUP_PLL once its fields are computed (R70). -/
def setupPllResponse (pll : PllId) (mult num denom : Operand) : Response :=
  let f := computeFields .pll mult.toNat num.toNat denom.toNat
  (Response.blank.withFields f).withBlock (pllBase pll) (serPll f)

/-- `setupPLL(pllId, mult, num, denom)` (R70). -/
def setupPll (pll : PllId) (mult num denom : Operand) (s : State) : State :=
  requireInitialised s <|
    if pllOperandsInRange mult num denom then
      let resp := setupPllResponse pll mult num denom
      tryBurst resp.base resp.data resp s fun s1 =>
      tryWrite resetReg pllResetByte resp s1 fun s2 =>
      let s3 := recordPll pll mult.toNat num.toNat denom.toNat s2
      respond { resp with freq := s3.st.pllHz.get pll } s3
    else raise .invalidParameter Response.blank s

/-- SETUP_PLL (R70). -/
def execSetupPll (pll : PllId) (mult num denom : Operand) (s : State) :
    Host.Outcome State Fault Refusal :=
  .next (setupPll pll mult num denom s)

/-- SETUP_PLL_INT (R71): SETUP_PLL with b = 0 and c = 1. -/
def execSetupPllInt (pll : PllId) (mult : Operand) (s : State) : Host.Outcome State Fault Refusal :=
  .next (setupPll pll mult 0 1 s)

/-- The clock-control byte of SETUP_MS: bit 7 = 0, bit 6 set iff b = 0, bit 5 set iff the PLL is B, bits
[4:0] = `CLKCTL_LOW` (R49). -/
def clkctlByte (low : BitVec 5) (pll : PllId) (num : Operand) : Byte :=
  (if num = 0 then 0x40 else 0) ||| (if pll = .b then 0x20 else 0) ||| low.setWidth 8

/-- The response of SETUP_MS once its fields are computed (R72). -/
def setupMsResponse (ch : Channel) (pll : PllId) (div num denom : Operand) (s : State) : Response :=
  let f := computeFields .ms div.toNat num.toNat denom.toNat
  { (Response.blank.withFields f).withBlock (msBase ch)
      (serMs s.params.rdivShift f (lastRDivider ch s)) with
    freq := BitVec.ofNat 64 (msOutputHz pll div.toNat num.toNat denom.toNat s) }

/-- `setupMultisynth(channel, pllId, div, num, denom)` (R72). -/
def setupMs (ch : Byte) (pll : PllId) (div num denom : Operand) (s : State) : State :=
  requireInitialised s <|
    match channelOf ch with
    | none => raise .invalidParameter Response.blank s
    | some c =>
      if msOperandsInRange div num denom then
        requireConfigured pll s <|
        requireFoutInRange (msOutputHz pll div.toNat num.toNat denom.toNat s) s <|
        let resp := setupMsResponse c pll div num denom s
        tryBurst resp.base resp.data resp s fun s1 =>
        tryWrite (clkctlReg c) (clkctlByte s.params.clkctlLow pll num) resp s1 fun s2 =>
        respond resp s2
      else raise .invalidParameter Response.blank s

/-- SETUP_MS (R72). -/
def execSetupMs (ch : Byte) (pll : PllId) (div num denom : Operand) (s : State) :
    Host.Outcome State Fault Refusal :=
  .next (setupMs ch pll div num denom s)

/-- SETUP_MS_INT (R73): the divider must be 4, 6 or 8; then SETUP_MS with b = 0 and c = 1. -/
def execSetupMsInt (ch : Byte) (pll : PllId) (div : Operand) (s : State) :
    Host.Outcome State Fault Refusal :=
  .next <| requireInitialised s <|
    if msIntDivInRange div then setupMs ch pll div 0 1 s
    else raise .invalidParameter Response.blank s

/-- SETUP_RDIV (R74): read the parameter-3 byte, replace the exponent, write it back, record it. -/
def execSetupRdiv (ch : Byte) (e : RdivExp) (s : State) : Host.Outcome State Fault Refusal :=
  .next <| requireInitialised s <|
    match channelOf ch with
    | none => raise .invalidParameter Response.blank s
    | some c =>
      tryRead (param3Reg c) Response.blank s fun v s1 =>
      tryWrite (param3Reg c) (mergeRdiv s.params.rdivShift v e) Response.blank s1 fun s2 =>
      respond Response.blank (recordRDivider c e s2)

end Sys2Proof.Machine
end

