-- ==== Sys2Proof/Machine/Dispatch.lean ====
section
/-! DEFINITION. One arm per command: the meaning of each. -/

namespace Sys2Proof.Machine

def exec (i : Instr) (s : State) : Host.Outcome State Fault Refusal :=
  match i with
  | .init f l => Sys2Proof.Machine.execInit f l s
  | .setupPll p a b c => Sys2Proof.Machine.execSetupPll p a b c s
  | .setupPllInt p a => Sys2Proof.Machine.execSetupPllInt p a s
  | .setupMs ch p a b c => Sys2Proof.Machine.execSetupMs ch p a b c s
  | .setupMsInt ch p a => Sys2Proof.Machine.execSetupMsInt ch p a s
  | .setupRdiv ch e => Sys2Proof.Machine.execSetupRdiv ch e s
  | .pack k a b c => Sys2Proof.Machine.execPack k a b c s
  | .serPll p x y z => Sys2Proof.Machine.execSerPll p x y z s
  | .serMs ch e x y z => Sys2Proof.Machine.execSerMs ch e x y z s
  | .unpack d => Sys2Proof.Machine.execUnpack d s

end Sys2Proof.Machine
end

