-- ==== Sys2Proof/Machine/Step.lean ====
section
/-! DEFINITION. One step: the DRE executes the next command the host has delivered (R3, R38). -/

namespace Sys2Proof.Machine

/-- One step. With a command delivered, it is decoded and executed; a word that is no command is refused
(R43). With none, the DRE waits and nothing changes (R88; DEDUCED, safe, log entry 4). -/
def step (s : State) : Host.Outcome State Fault Refusal :=
  match s.fetch with
  | none => .next s
  | some (w, s') =>
    match decode w with
    | .error e => .refused (refusalOf e)
    | .ok i => exec i s'

/-- The host delivers the command word whose bits are the low `nbits` bits of `w` as the very next
command (log entry 4). -/
def State.withFetchWord (s : State) (nbits w : Nat) : State := s.deliverNext (wordOfTable nbits w)

end Sys2Proof.Machine
end

