-- ==== Sys2Proof/Machine/Assembler.lean ====
section
/-! DEFINITION. The textual syntax of R51: one command per line, a mnemonic and comma-separated operands,
numbers in decimal or `0x` hexadecimal, PLL written `A` or `B`, block kind written `pll` or `ms`.
Spaces around a token are skipped; a number that does not fit its field is no operand (DESIGN CHOICE,
safe, log entry 8). Fields a command does not list assemble as 0. -/

namespace Sys2Proof.Machine

/-- A space or a tab. -/
def isBlank (c : Char) : Bool := c == ' ' || c == '\t'

/-- The characters between the surrounding spaces. -/
def trimBlanks (cs : List Char) : List Char :=
  ((cs.dropWhile isBlank).reverse.dropWhile isBlank).reverse

/-- The operands of a line, split at commas. -/
def splitAtCommas : List Char → List (List Char)
  | [] => [[]]
  | c :: cs =>
    if c == ',' then [] :: splitAtCommas cs
    else match splitAtCommas cs with
      | [] => [[c]]
      | x :: xs => (c :: x) :: xs

/-- The value of a hexadecimal digit. -/
def digitValue (c : Char) : Option Nat :=
  if '0' ≤ c ∧ c ≤ '9' then some (c.toNat - '0'.toNat)
  else if 'a' ≤ c ∧ c ≤ 'f' then some (c.toNat - 'a'.toNat + 10)
  else if 'A' ≤ c ∧ c ≤ 'F' then some (c.toNat - 'A'.toNat + 10)
  else none

/-- The number written by `ds` in base `base`, continuing from `acc`. -/
def numeral (base acc : Nat) : List Char → Option Nat
  | [] => some acc
  | c :: cs =>
    match digitValue c with
    | some d => if d < base then numeral base (acc * base + d) cs else none
    | none => none

/-- A number in decimal or `0x` hexadecimal. -/
def parseNumber : List Char → Option Nat
  | [] => none
  | ['0', 'x'] => none
  | '0' :: 'x' :: ds => numeral 16 0 ds
  | ds => numeral 10 0 ds

/-- A number operand of an n-bit field. -/
def numberOperand (n : Nat) (cs : List Char) : Option (BitVec n) :=
  match parseNumber cs with
  | some v => if v < 2 ^ n then some (BitVec.ofNat n v) else none
  | none => none

/-- A PLL operand. -/
def pllOperand : List Char → Option (BitVec 1)
  | ['A'] => some 0
  | ['B'] => some 1
  | _ => none

/-- A block-kind operand. -/
def kindOperand : List Char → Option (BitVec 1)
  | ['p', 'l', 'l'] => some 0
  | ['m', 's'] => some 1
  | _ => none

/-- The fields of a line given its mnemonic and operands (the table of R51). -/
def assembleFields (mnemonic : String) (ops : List (List Char)) : Option Command :=
  match mnemonic, ops with
  | "init", [x, l] => do
    let a ← numberOperand 32 x
    let b ← numberOperand 32 l
    some { Command.bare 0x1 with a := a, b := b }
  | "pll", [p, x, y, z] => do
    let pll ← pllOperand p
    let a ← numberOperand 32 x
    let b ← numberOperand 32 y
    let c ← numberOperand 32 z
    some { Command.bare 0x2 with pll := pll, a := a, b := b, c := c }
  | "pll.int", [p, x] => do
    let pll ← pllOperand p
    let a ← numberOperand 32 x
    some { Command.bare 0x3 with pll := pll, a := a }
  | "ms", [n, p, x, y, z] => do
    let ch ← numberOperand 8 n
    let pll ← pllOperand p
    let a ← numberOperand 32 x
    let b ← numberOperand 32 y
    let c ← numberOperand 32 z
    some { Command.bare 0x4 with ch := ch, pll := pll, a := a, b := b, c := c }
  | "ms.int", [n, p, x] => do
    let ch ← numberOperand 8 n
    let pll ← pllOperand p
    let a ← numberOperand 32 x
    some { Command.bare 0x5 with ch := ch, pll := pll, a := a }
  | "rdiv", [n, r] => do
    let ch ← numberOperand 8 n
    let e ← numberOperand 3 r
    some { Command.bare 0x6 with ch := ch, e := e }
  | "pack", [k, x, y, z] => do
    let kind ← kindOperand k
    let a ← numberOperand 32 x
    let b ← numberOperand 32 y
    let c ← numberOperand 32 z
    some { Command.bare 0x8 with kind := kind, a := a, b := b, c := c }
  | "ser.pll", [p, x, y, z] => do
    let pll ← pllOperand p
    let a ← numberOperand 32 x
    let b ← numberOperand 32 y
    let c ← numberOperand 32 z
    some { Command.bare 0x9 with pll := pll, a := a, b := b, c := c }
  | "ser.ms", [n, r, x, y, z] => do
    let ch ← numberOperand 8 n
    let e ← numberOperand 3 r
    let a ← numberOperand 32 x
    let b ← numberOperand 32 y
    let c ← numberOperand 32 z
    some { Command.bare 0xA with ch := ch, e := e, a := a, b := b, c := c }
  | "unpack", [d0, d1, d2, d3, d4, d5, d6, d7] => do
    let d0 ← numberOperand 8 d0
    let d1 ← numberOperand 8 d1
    let d2 ← numberOperand 8 d2
    let d3 ← numberOperand 8 d3
    let d4 ← numberOperand 8 d4
    let d5 ← numberOperand 8 d5
    let d6 ← numberOperand 8 d6
    let d7 ← numberOperand 8 d7
    some { Command.bare 0xB with a := d0 ++ d1 ++ d2 ++ d3, b := d4 ++ d5 ++ d6 ++ d7 }
  | _, _ => none

/-- The command word of one line of text, if it is a command (R51). -/
def assemble (line : String) : Option CommandWord :=
  let cs := trimBlanks line.toList
  let mnemonic := cs.takeWhile fun c => !isBlank c
  let rest := cs.drop mnemonic.length
  match assembleFields (String.ofList mnemonic) ((splitAtCommas rest).map trimBlanks) with
  | some c => some c.toWord
  | none => none

end Sys2Proof.Machine
end

