-- ==== Sys2Proof/Machine/Flags.lean ====
section
/-! DEFINITION. The DRE has no flags and no condition codes (R22). The only outcome indicator is the status
code of a response (R76), and the only mode-like thing is the lifecycle, a function of the state (R75). -/

namespace Sys2Proof.Machine

/-- The 4-bit code of `resp.status` (R76). Codes 5 to 15 are never produced. -/
def Status.code : Status → BitVec 4
  | .ok => 0
  | .deviceNotFound => 1
  | .deviceNotInitialised => 2
  | .invalidParameter => 3
  | .transportError => 4

/-- D0's lifecycle state (R75): uninitialised, or initialised with the configured PLLs. -/
inductive Lifecycle where
  | uninitialised
  | initialised (configured : PerPll Bool)
deriving DecidableEq, Repr

/-- `lifecycle(st)` (R75). -/
def Device.lifecycle (d : Device) : Lifecycle :=
  if d.initialised then .initialised d.pllCfg else .uninitialised

end Sys2Proof.Machine
end

