-- ==== Sys2Proof/Safety.lean ====
section
/-! DEFINITION. The terms the claims are made in: the observation of a run, the end of a command, what an
invariant state is, and what a real chip may do under a trace. -/

namespace Sys2Proof

/-- The number a host writes in the channel field for a channel (R40, R41). -/
def Channel.number : Channel → Byte
  | .ch0 => 0
  | .ch1 => 1
  | .ch2 => 2

/-- Every word with opcode `op` and its reserved bits 0, whatever its other bits, is the command `f`
makes of its fields (R41 to R43). -/
def Encodes (op : BitVec 4) (f : Command → Instr) : Prop :=
  ∀ c : Command, c.op = op → c.rsvLow = 0 → c.rsvHigh = 0 → decode c.toWord = .ok (f c)

/-! ### Lines of text (R51) -/

/-- A number in decimal. -/
def decimal (v : Nat) : List Char := Nat.toDigits 10 v

/-- A number in `0x` hexadecimal. -/
def hexadecimal (v : Nat) : List Char := '0' :: 'x' :: Nat.toDigits 16 v

/-- A way of writing numbers that takes decimal or `0x` hexadecimal, for each number as it likes. -/
def WritesNumbers (num : Nat → List Char) : Prop := ∀ v, num v = decimal v ∨ num v = hexadecimal v

/-- A PLL in text: `A` or `B`. -/
def PllId.text : PllId → List Char
  | .a => ['A']
  | .b => ['B']

/-- A block kind in text: `pll` or `ms`. -/
def BlockKind.text : BlockKind → List Char
  | .pll => ['p', 'l', 'l']
  | .ms => ['m', 's']

/-- The mnemonic of a command in text, and the operands in their order, each number written by `num`. -/
def Instr.tokens (num : Nat → List Char) : Instr → String × List (List Char)
  | .init f l => ("init", [num f.toNat, num l.toNat])
  | .setupPll p a b c => ("pll", [p.text, num a.toNat, num b.toNat, num c.toNat])
  | .setupPllInt p a => ("pll.int", [p.text, num a.toNat])
  | .setupMs ch p a b c => ("ms", [num ch.toNat, p.text, num a.toNat, num b.toNat, num c.toNat])
  | .setupMsInt ch p a => ("ms.int", [num ch.toNat, p.text, num a.toNat])
  | .setupRdiv ch e => ("rdiv", [num ch.toNat, num e.toNat])
  | .pack k a b c => ("pack", [k.text, num a.toNat, num b.toNat, num c.toNat])
  | .serPll p a b c => ("ser.pll", [p.text, num a.toNat, num b.toNat, num c.toNat])
  | .serMs ch e a b c => ("ser.ms", [num ch.toNat, num e.toNat, num a.toNat, num b.toNat, num c.toNat])
  | .unpack d => ("unpack", [num d.d0.toNat, num d.d1.toNat, num d.d2.toNat, num d.d3.toNat,
      num d.d4.toNat, num d.d5.toNat, num d.d6.toNat, num d.d7.toNat])

/-- Operands separated by a comma and a space. -/
def separated : List (List Char) → List Char
  | [] => []
  | [x] => x
  | x :: y :: rest => x ++ ',' :: ' ' :: separated (y :: rest)

/-- The line of text of a command: its mnemonic, a space, its operands. -/
def Instr.line (num : Nat → List Char) (i : Instr) : String :=
  String.ofList ((i.tokens num).1.toList ++ ' ' :: separated (i.tokens num).2)

/-! ### Kinds of command -/

/-- The device commands read `st.initialised`; the others are the codec commands (R42). -/
def Instr.isDevice : Instr → Bool
  | .init _ _ => true
  | .setupPll _ _ _ _ => true
  | .setupPllInt _ _ => true
  | .setupMs _ _ _ _ _ => true
  | .setupMsInt _ _ _ => true
  | .setupRdiv _ _ => true
  | .pack _ _ _ _ => false
  | .serPll _ _ _ _ => false
  | .serMs _ _ _ _ _ => false
  | .unpack _ => false

/-- INIT, the reset command (R69, R89). -/
def Instr.isInit : Instr → Bool
  | .init _ _ => true
  | .setupPll _ _ _ _ => false
  | .setupPllInt _ _ => false
  | .setupMs _ _ _ _ _ => false
  | .setupMsInt _ _ _ => false
  | .setupRdiv _ _ => false
  | .pack _ _ _ _ => false
  | .serPll _ _ _ _ => false
  | .serMs _ _ _ _ _ => false
  | .unpack _ => false

/-- The PLL a command configures when it completes with status OK (R17, R70, R71). -/
def Instr.configures : Instr → Option PllId
  | .init _ _ => none
  | .setupPll p _ _ _ => some p
  | .setupPllInt p _ => some p
  | .setupMs _ _ _ _ _ => none
  | .setupMsInt _ _ _ => none
  | .setupRdiv _ _ => none
  | .pack _ _ _ _ => none
  | .serPll _ _ _ _ => none
  | .serMs _ _ _ _ _ => none
  | .unpack _ => none

/-- The chip registers a command may write (R31, R69 to R74): the burst's block and the bytes beside it. -/
def Instr.mayWrite (i : Instr) : List Nat :=
  let block (base : Nat) : List Nat := (List.range 8).map (base + ·)
  let pll (p : PllId) : Nat := match p with | .a => 26 | .b => 34
  match i with
  | .init _ _ => [3, 16, 17, 18, 19, 20, 21, 22, 23, 183, 149]
  | .setupPll p _ _ _ => block (pll p) ++ [177]
  | .setupPllInt p _ => block (pll p) ++ [177]
  | .setupMs ch _ _ _ _ => if ch.toNat ≤ 2 then block (42 + 8 * ch.toNat) ++ [16 + ch.toNat] else []
  | .setupMsInt ch _ _ => if ch.toNat ≤ 2 then block (42 + 8 * ch.toNat) ++ [16 + ch.toNat] else []
  | .setupRdiv ch _ => if ch.toNat ≤ 2 then [44 + 8 * ch.toNat] else []
  | .pack _ _ _ _ => []
  | .serPll _ _ _ _ => []
  | .serMs _ _ _ _ _ => []
  | .unpack _ => []

/-- The chip registers a command may read (R32, R69, R74). -/
def Instr.mayRead (i : Instr) : List Nat :=
  match i with
  | .init _ _ => [149]
  | .setupPll _ _ _ _ => []
  | .setupPllInt _ _ => []
  | .setupMs _ _ _ _ _ => []
  | .setupMsInt _ _ _ => []
  | .setupRdiv ch _ => if ch.toNat ≤ 2 then [44 + 8 * ch.toNat] else []
  | .pack _ _ _ _ => []
  | .serPll _ _ _ _ => []
  | .serMs _ _ _ _ _ => []
  | .unpack _ => []

namespace Machine

/-- The operand ranges of `computeFields` (R52). -/
abbrev FracInRange (b c : Operand) : Prop := b.toNat ≤ 0xFFFFF ∧ 1 ≤ c.toNat ∧ c.toNat ≤ 0xFFFFF

/-- The operand ranges of SETUP_PLL (R70). -/
abbrev PllInRange (a b c : Operand) : Prop := 15 ≤ a.toNat ∧ a.toNat ≤ 90 ∧ FracInRange b c

/-- The operand ranges of SETUP_MS but for its channel (R72). -/
abbrev MsInRange (a b c : Operand) : Prop := 4 ≤ a.toNat ∧ a.toNat ≤ 2048 ∧ FracInRange b c

/-- The output-frequency check rejects frequency `f`: it is enabled and f is out of its range (R67). -/
abbrev FoutRejected (s : State) (f : Nat) : Prop :=
  s.params.enforceFoutRange = true ∧ (f < s.params.fOutMin ∨ s.params.fOutMax < f)

/-- The InvalidParameter causes of a command, exhaustively (R79). -/
def InvalidCause (i : Instr) (s : State) : Prop :=
  match i with
  | .init _ _ => False
  | .setupPll _ a b c => ¬ PllInRange a b c
  | .setupPllInt _ a => ¬ (15 ≤ a.toNat ∧ a.toNat ≤ 90)
  | .setupMs ch p a b c =>
    2 < ch.toNat ∨ ¬ MsInRange a b c ∨ s.st.pllCfg.get p = false ∨
      FoutRejected s ((s.st.pllHz.get p).toNat * c.toNat / (a.toNat * c.toNat + b.toNat))
  | .setupMsInt ch p a =>
    ¬ (a.toNat = 4 ∨ a.toNat = 6 ∨ a.toNat = 8) ∨ 2 < ch.toNat ∨ s.st.pllCfg.get p = false ∨
      FoutRejected s ((s.st.pllHz.get p).toNat / a.toNat)
  | .setupRdiv ch _ => 2 < ch.toNat
  | .pack _ _ b c => ¬ FracInRange b c
  | .serPll _ _ _ _ => False
  | .serMs ch _ _ _ _ => 2 < ch.toNat
  | .unpack _ => False

/-- The whole observation of a run: its trace, its responses and the final `st` (R26). -/
structure Observation where
  trace : List Transaction
  responses : List Response
  final : Device
deriving DecidableEq, Repr

/-- What has been observed up to state `s` (R26). -/
def State.observation (s : State) : Observation := ⟨s.trace, s.responses, s.st⟩

/-- The transactions that `reqs` become when made one after another from `s` (R26, R38). -/
def State.answered (s : State) : List Request → List Transaction
  | [] => []
  | r :: rs => s.transaction r :: State.answered s.dropAnswer rs

/-- The state in which a command that starts in `s` ends when it requests exactly `reqs`, answers `resp`
and leaves the device in `st`: everything else is as it was. One answer is drawn per transaction, the
trace and the image follow, and the host gets one response. -/
def State.ends (s : State) (reqs : List Request) (resp : Response) (st : Device) : State :=
  { s.dropAnswers reqs.length with
    st := st
    trace := s.trace ++ s.answered reqs
    chip := s.chip.replay (s.answered reqs)
    responses := s.responses ++ [resp] }

/-- The status of the last response. -/
def State.lastStatus (s : State) : Option Status := s.responses.getLast?.map (·.status)

/-- The same state with every transaction of the next command about to answer `ok` (no command makes more
than thirteen). -/
def State.withAllOk (s : State) : State := { s with answers := List.replicate 13 ⟨true, 0⟩ }

/-- What a command that ends with TransportError reports, beside what it reports when every transaction
answers `ok`: the same fields, but for the recorded frequency, which SETUP_PLL and SETUP_PLL_INT write
last (R44, R70 to R74). -/
def reportsFieldsSoFar (i : Instr) (failed complete : Response) : Prop :=
  failed = { complete with
    status := .transportError
    freq := if i.configures = none then complete.freq else 0 }

/-- Some command with opcode `op` raises status `e` in some state (R76). -/
def Raises (op : BitVec 4) (e : Status) : Prop :=
  ∃ (i : Instr) (s t : State), i.opcode = op ∧ exec i s = .next t ∧ t.lastStatus = some e

/-- The transactions `s'` has beyond those of `s`. -/
def newTrace (s s' : State) : List Transaction := s'.trace.drop s.trace.length

/-- A list of commands executed one after another (R38). -/
def execAll (is : List Instr) (s : State) : Host.Outcome State Fault Refusal :=
  match is with
  | [] => .next s
  | i :: rest =>
    match exec i s with
    | .next s' => execAll rest s'
    | .fault r => .fault r
    | .refused r => .refused r

/-- The requests of a complete INIT, in order, with `v` the byte register 149 reads as (R69). -/
def initRequests (pdn load v : Byte) : List Request :=
  [.probe, .writeByte 3 0xFF,
   .writeByte 16 pdn, .writeByte 17 pdn, .writeByte 18 pdn, .writeByte 19 pdn,
   .writeByte 20 pdn, .writeByte 21 pdn, .writeByte 22 pdn, .writeByte 23 pdn,
   .writeByte 183 load, .readByte 149, .writeByte 149 (v &&& 0x7F)]

/-! ### What a write does on the chip beyond the byte (R37) -/

/-- The transaction resets PLL `p` on the chip: a write to register 177 that answered `ok`, with bit 7 set
for A and bit 5 set for B (R31, R37). -/
def Transaction.resetsPll (x : Transaction) (p : PllId) : Bool :=
  match x.request, x.reply with
  | .writeByte r v, .ok => r == 177 && v.getLsbD (match p with | .a => 7 | .b => 5)
  | _, _ => false

/-- How often a trace is known to reset PLL `p` (R37: each such write resets it again). DESIGN CHOICE, unsafe
(log entry 12): a write that answered `err` is not counted, though the chip may have acted on it. -/
def softResets (p : PllId) (xs : List Transaction) : Nat := xs.countP (·.resetsPll p)

/-- Every output is known to be disabled: the output-enable mask is 0xFF (R31, R37). -/
abbrev Memory.outputsDisabled (m : Memory) : Prop := m.read 3 = some 0xFF

/-- Whether driver `n` is powered down, bit 7 of register 16 + n; `none` when it is not known (R31, R37). -/
def Memory.driverPoweredDown (m : Memory) (n : Nat) : Option Bool := (m.read (16 + n)).map (·.getLsbD 7)

/-! ### Invariants -/

/-- The exponent lies inside the parameter-3 byte and apart from P1[17:16], bits [1:0] (DEDUCED, log
entry 3: R47 gives the byte 8 bits, the exponent 3 of them, and C1 the reason). -/
abbrev paramsSound (p : Params) : Prop := 2 ≤ p.rdivShift ∧ p.rdivShift ≤ 5

/-- What `st` keeps (R18, R23, R24): an uninitialised device is at its power-on values; an unconfigured
PLL has no recorded frequency; and a recorded frequency is at most xtal * (90 + 0xFFFFF), so it fits
64 bits. -/
def deviceConsistent (d : Device) : Prop :=
  (d.initialised = false → d = Device.powerOn) ∧
  (∀ p, d.pllCfg.get p = false → d.pllHz.get p = 0) ∧
  (∀ p, (d.pllHz.get p).toNat ≤ d.xtalHz.toNat * (90 + 0xFFFFF))

/-- The requests the DRE ever makes (R25, R30, R32, R35): reads of 44, 52, 60 and 149, writes of one byte,
and bursts of exactly 8 bytes at a parameter block's base. -/
def Request.allowed : Request → Prop
  | .probe => True
  | .readByte r => r.toNat ∈ [44, 52, 60, 149]
  | .writeByte r _ => r.toNat ∈ [3, 16, 17, 18, 19, 20, 21, 22, 23, 44, 52, 60, 149, 177, 183]
  | .writeBurst r bytes => bytes.length = 8 ∧ r.toNat ∈ [26, 34, 42, 50, 58]

/-- Every transaction of the trace is one the DRE may make. -/
def traceAllowed (s : State) : Prop := ∀ x ∈ s.trace, x.request.allowed

/-- The image is the one the trace leaves (R26). -/
abbrev chipFollowsTrace (s : State) : Prop := s.chip = Memory.replay [] s.trace

/-! ### A real chip under a trace (R26, R36) -/

/-- The registers of a chip may go from `c` to `c'` when transaction `x` is made, in the ideal case of R26
in which only the DRE writes them: a successful write puts its bytes, a failed one leaves any bytes in
the registers it targeted, and nothing else changes. -/
def chipStep (c c' : Nat → Byte) (x : Transaction) : Prop :=
  match x.request with
  | .probe => c' = c
  | .readByte _ => c' = c
  | .writeByte r v =>
    (∀ n, n ≠ r.toNat → c' n = c n) ∧ (x.reply ≠ .err → c' r.toNat = v)
  | .writeBurst r bytes =>
    (∀ n, (n < r.toNat ∨ r.toNat + bytes.length ≤ n) → c' n = c n) ∧
    (x.reply ≠ .err → ∀ k (h : k < bytes.length), c' (r.toNat + k) = bytes[k])

/-- The same for a list of transactions, one after another (R38). -/
def chipSteps (c c' : Nat → Byte) : List Transaction → Prop
  | [] => c' = c
  | x :: xs => ∃ m, chipStep c m x ∧ chipSteps m c' xs

/-- The image says nothing false of the chip's registers: every byte it knows is there. -/
def Memory.trueOf (m : Memory) (c : Nat → Byte) : Prop := ∀ a v, m.read a = some v → c a = v

end Machine

end Sys2Proof
end

