-- ==== Sys2Proof/Certificates/Slice0/Obligations.lean ====
section
/-! DEFINITION. The statements for the provers. Where a statement speaks of the end of a command it uses
`State.ends`, which fixes EVERY field of the state: the requests made and their answers, the one response,
`st`, the image (which follows the trace), the answers drawn, and everything else unchanged. So each such
statement is also the frame of its command. -/

open Sys2Proof Sys2Proof.Machine

/-! ### Encoding -/

/-- R40: the fields of the 128-bit command word, the word written `c_b_a_cw`, and mask and match of the
opcode table. -/
def Obligations.CommandWordLayout : Prop :=
  (∀ w : CommandWord,
    (Command.ofWord w).op.toNat = w.toNat % 2 ^ 4 ∧
    (Command.ofWord w).pll.toNat = w.toNat / 2 ^ 4 % 2 ∧
    (Command.ofWord w).kind.toNat = w.toNat / 2 ^ 5 % 2 ∧
    (Command.ofWord w).rsvLow.toNat = w.toNat / 2 ^ 6 % 2 ^ 2 ∧
    (Command.ofWord w).ch.toNat = w.toNat / 2 ^ 8 % 2 ^ 8 ∧
    (Command.ofWord w).e.toNat = w.toNat / 2 ^ 16 % 2 ^ 3 ∧
    (Command.ofWord w).rsvHigh.toNat = w.toNat / 2 ^ 19 % 2 ^ 13 ∧
    (Command.ofWord w).a.toNat = w.toNat / 2 ^ 32 % 2 ^ 32 ∧
    (Command.ofWord w).b.toNat = w.toNat / 2 ^ 64 % 2 ^ 32 ∧
    (Command.ofWord w).c.toNat = w.toNat / 2 ^ 96 ∧
    (Command.ofWord w).toWord = w) ∧
  (∀ c : Command,
    c.toWord.toNat = c.c.toNat * 2 ^ 96 + c.b.toNat * 2 ^ 64 + c.a.toNat * 2 ^ 32 + c.control.toNat) ∧
  (∀ (w : CommandWord) (i : Instr), decode w = .ok i →
    w.setWidth 32 &&& 0xFFF800CF#32 = i.opcode.setWidth 32)

/-- R41: which fields carry each command's operands; a field not listed is ignored whatever its value. -/
def Obligations.OperandAssembly : Prop :=
  let pll (c : Command) : PllId := if c.pll = 0 then .a else .b
  let kind (c : Command) : BlockKind := if c.kind = 0 then .pll else .ms
  Encodes 0x1 (fun c => .init c.a (c.b.extractLsb' 0 8)) ∧
  Encodes 0x2 (fun c => .setupPll (pll c) c.a c.b c.c) ∧
  Encodes 0x3 (fun c => .setupPllInt (pll c) c.a) ∧
  Encodes 0x4 (fun c => .setupMs c.ch (pll c) c.a c.b c.c) ∧
  Encodes 0x5 (fun c => .setupMsInt c.ch (pll c) c.a) ∧
  Encodes 0x6 (fun c => .setupRdiv c.ch c.e) ∧
  Encodes 0x8 (fun c => .pack (kind c) c.a c.b c.c) ∧
  Encodes 0x9 (fun c => .serPll (pll c) c.a c.b c.c) ∧
  Encodes 0xA (fun c => .serMs c.ch c.e c.a c.b c.c) ∧
  Encodes 0xB (fun c => .unpack
    ⟨c.a.extractLsb' 24 8, c.a.extractLsb' 16 8, c.a.extractLsb' 8 8, c.a.extractLsb' 0 8,
     c.b.extractLsb' 24 8, c.b.extractLsb' 16 8, c.b.extractLsb' 8 8, c.b.extractLsb' 0 8⟩)

/-- R43: exactly the words with a reserved opcode or a nonzero reserved bit are refused. -/
def Obligations.ReservedWordsRefused : Prop :=
  ∀ (s : State) (w : CommandWord) (rest : List CommandWord), s.commands = w :: rest →
    ((w.extractLsb' 0 4 ∈ [0x0#4, 0x7#4, 0xC#4, 0xD#4, 0xE#4, 0xF#4] ∨
        w.extractLsb' 6 2 ≠ 0 ∨ w.extractLsb' 19 13 ≠ 0) ↔
      ∃ r, step s = .refused r)

/-- Decoding an encoded command gives it back, for every command and every operand value. -/
def Obligations.DecodeOfEncode : Prop := ∀ i : Instr, decode (encode i) = .ok i

/-- Encoding a decoded command gives back every bit the command reads, and a word that agrees with it on
those bits is the same command: no listed bit is dropped and no other bit matters. -/
def Obligations.EncodeOfDecodeKeepsReadBits : Prop :=
  ∀ (w : CommandWord) (i : Instr), decode w = .ok i →
    encode i = w &&& i.readBits ∧
    ∀ w' : CommandWord, w' &&& i.readBits = w &&& i.readBits → decode w' = .ok i

/-- Words of 95_test_vectors.md, one per command: that of SETUP_PLL is program P2 step 2 of section 3, the
others are rows of section 2. -/
def Obligations.VectorWordsDecode : Prop :=
  decode 0x00000000000000C0017D784000000001#128 = .ok (.init 25000000 0xC0) ∧
  decode 0x00000003000000020000001800000012#128 = .ok (.setupPll .b 24 2 3) ∧
  decode 0x00000000000000000000000F00000013#128 = .ok (.setupPllInt .b 15) ∧
  decode 0x00000002000000010000002D00000204#128 = .ok (.setupMs 2 .a 45 1 2) ∧
  decode 0x00000000000000000000000600000105#128 = .ok (.setupMsInt 1 .a 6) ∧
  decode 0x00000000000000000000000000050206#128 = .ok (.setupRdiv 2 5) ∧
  decode 0x00000002000000010000002D00000028#128 = .ok (.pack .ms 45 1 2) ∧
  decode 0x000000030000000100000A5500000019#128 = .ok (.serPll .b 0xA55 1 3) ∧
  decode 0x0000000100000100000004800005020A#128 = .ok (.serMs 2 5 0x480 0x100 1) ∧
  decode 0x00000000550000010003000A0000000B#128 = .ok (.unpack ⟨0, 3, 0, 0x0A, 0x55, 0, 0, 1⟩)

/-- R51: the line of a command, its mnemonic, a space and its operands separated by commas, each number in
decimal or `0x` hexadecimal, assembles to the word of that very command, every unlisted field 0; INIT's
load operand may be any number of its 32-bit field, whose low 8 bits the command reads. Conversely every
line the assembler takes is a command. Which other spacings and lines are taken is the model's choice (log
entry 8). -/
def Obligations.AssembledLinesAreCommands : Prop :=
  (∀ (num : Nat → List Char), WritesNumbers num →
    (∀ i : Instr, assemble (i.line num) = some (encode i)) ∧
    (∀ f l : Operand, assemble (String.ofList ("init".toList ++ ' ' :: separated [num f.toNat, num l.toNat])) =
      some { Command.bare 0x1 with a := f, b := l : Command }.toWord)) ∧
  (∀ (line : String) (w : CommandWord), assemble line = some w →
    ∃ i : Instr, decode w = .ok i ∧
      (i.isInit = false → w = encode i) ∧
      (i.isInit = true → ∃ l : Operand, w = { i.toCommand with b := l }.toWord))

/-! ### Step, reset -/

/-- A step decodes the next delivered command, takes it off the queue and executes it. With no command
delivered the DRE waits; that this is a step which changes nothing is the model's inference (log entry 4,
DEDUCED). -/
def Obligations.StepRunsDeliveredCommand : Prop :=
  (∀ (s : State) (w : CommandWord) (rest : List CommandWord) (i : Instr),
    s.commands = w :: rest → decode w = .ok i → step s = exec i { s with commands := rest }) ∧
  (∀ s : State, s.commands = [] → step s = .next s)

/-- One step that runs a command: the rest of the queue waits, one response is added, the trace only
grows, and the open parameters stay. -/
def Obligations.StepGivesOneResponse : Prop :=
  ∀ (s t : State) (w : CommandWord) (rest : List CommandWord),
    s.commands = w :: rest → step s = .next t →
    t.commands = rest ∧ (∃ r, t.responses = s.responses ++ [r]) ∧
    (∃ xs, t.trace = s.trace ++ xs) ∧ t.params = s.params

/-- R44, R20: each command gives one response record; which commands write which of its fields, every other
field 0; an error leaves every field but the status 0, except that TransportError reports the fields
computed before it; and the Multisynth buffer is base followed by data. -/
def Obligations.ResponseRecord : Prop :=
  ∀ (i : Instr) (s t : State), exec i s = .next t →
    ∃ r : Response, t.responses = s.responses ++ [r] ∧
      (i.opcode ∉ [0x8#4, 0xB#4, 0x2#4, 0x3#4, 0x4#4, 0x5#4] → r.p1 = 0 ∧ r.p2 = 0 ∧ r.p3 = 0) ∧
      (i.opcode ∉ [0x9#4, 0xA#4, 0x2#4, 0x3#4, 0x4#4, 0x5#4] → r.base = 0 ∧ r.data = Block.zero) ∧
      (i.opcode ∉ [0x2#4, 0x3#4, 0x4#4, 0x5#4] → r.freq = 0) ∧
      (r.status ≠ .ok → r.status ≠ .transportError → r = { Response.blank with status := r.status }) ∧
      (r.status = .transportError → ∃ (t' : State) (r' : Response),
        exec i s.withAllOk = .next t' ∧ t'.responses = s.responses ++ [r'] ∧ r'.status = .ok ∧
        reportsFieldsSoFar i r r') ∧
      r.buffer = [r.base, r.data.d0, r.data.d1, r.data.d2, r.data.d3, r.data.d4, r.data.d5, r.data.d6,
        r.data.d7]

/-- The state at power-on, and what each command can do from it (R23, R88). That a step with no command
delivered changes nothing is the model's inference (log entry 4). -/
def Obligations.PowerOnState : Prop :=
  State.reset.st = ⟨false, 0, ⟨false, false⟩, ⟨0, 0⟩, ⟨0, 0, 0⟩⟩ ∧
  (∀ n, State.reset.chip.read n = none) ∧
  step State.reset = .next State.reset ∧
  (∀ (i : Instr) (s : State), s.st = State.reset.st → i.isDevice = true → i.isInit = false →
    exec i s = .next (s.ends [] { Response.blank with status := .deviceNotInitialised } s.st)) ∧
  (∀ (f : Operand) (load : Byte) (s : State), s.st = State.reset.st →
    (∀ k, k < 13 → (s.upcoming k).ok = true) →
    ∃ t, exec (.init f load) s = .next t ∧ t.lastStatus = some .ok ∧ t.st.initialised = true) ∧
  (∀ (i : Instr) (s : State), i.isDevice = false →
    ∃ r : Response, exec i s = .next (s.ends [] r s.st) ∧ r.status ≠ .deviceNotInitialised)

/-- R23: the values of `st` at power-on, after an INIT with status OK and after one that failed. -/
def Obligations.ResetValues : Prop :=
  State.reset.st = ⟨false, 0, ⟨false, false⟩, ⟨0, 0⟩, ⟨0, 0, 0⟩⟩ ∧
  ∀ (f : Operand) (load : Byte) (s t : State), exec (.init f load) s = .next t →
    (t.lastStatus = some .ok → t.st = ⟨true, f, ⟨false, false⟩, ⟨0, 0⟩, ⟨0, 0, 0⟩⟩) ∧
    (t.lastStatus ≠ some .ok → t.st = ⟨false, 0, ⟨false, false⟩, ⟨0, 0⟩, ⟨0, 0, 0⟩⟩)

/-! ### The device commands -/

/-- R69: INIT, when every transaction answers ok, and when the k-th of the thirteen is the first that
answers err. -/
def Obligations.InitOutcomes : Prop :=
  Encodes 0x1 (fun c => .init c.a (c.b.extractLsb' 0 8)) ∧
  ∀ (f : Operand) (load : Byte) (s : State),
    let reqs := initRequests s.params.initPdnByte load (s.upcoming 11).byte
    ((∀ k, k < 13 → (s.upcoming k).ok = true) →
      exec (.init f load) s =
        .next (s.ends reqs Response.blank ⟨true, f, ⟨false, false⟩, ⟨0, 0⟩, ⟨0, 0, 0⟩⟩)) ∧
    (∀ k, k < 13 → (∀ j, j < k → (s.upcoming j).ok = true) → (s.upcoming k).ok = false →
      exec (.init f load) s =
        .next (s.ends (reqs.take (k + 1))
          { Response.blank with status := if k = 0 then .deviceNotFound else .transportError }
          ⟨false, 0, ⟨false, false⟩, ⟨0, 0⟩, ⟨0, 0, 0⟩⟩))

/-- R70: SETUP_PLL in each of its cases. -/
def Obligations.SetupPllOutcomes : Prop :=
  Encodes 0x2 (fun c => .setupPll (if c.pll = 0 then .a else .b) c.a c.b c.c) ∧
  ∀ (p : PllId) (a b c : Operand) (s : State),
    let base : Reg := if p = .a then 26 else 34
    let f := computeFields .pll a.toNat b.toNat c.toNat
    let hz := s.st.xtalHz.toNat * (a.toNat * c.toNat + b.toNat) / c.toNat
    let resp : Response :=
      { Response.blank with p1 := f.p1, p2 := f.p2, p3 := f.p3, base := base, data := serPll f }
    let burst : Request := .writeBurst base (serPll f).toList
    let softReset : Request := .writeByte 177 0xA0
    (s.st.initialised = false →
      exec (.setupPll p a b c) s =
        .next (s.ends [] { Response.blank with status := .deviceNotInitialised } s.st)) ∧
    (s.st.initialised = true → ¬ PllInRange a b c →
      exec (.setupPll p a b c) s =
        .next (s.ends [] { Response.blank with status := .invalidParameter } s.st)) ∧
    (s.st.initialised = true → PllInRange a b c → (s.upcoming 0).ok = false →
      exec (.setupPll p a b c) s =
        .next (s.ends [burst] { resp with status := .transportError } s.st)) ∧
    (s.st.initialised = true → PllInRange a b c → (s.upcoming 0).ok = true →
      (s.upcoming 1).ok = false →
      exec (.setupPll p a b c) s =
        .next (s.ends [burst, softReset] { resp with status := .transportError } s.st)) ∧
    (s.st.initialised = true → PllInRange a b c → (s.upcoming 0).ok = true →
      (s.upcoming 1).ok = true →
      exec (.setupPll p a b c) s =
        .next (s.ends [burst, softReset] { resp with freq := BitVec.ofNat 64 hz }
          { s.st with
            pllCfg := s.st.pllCfg.set p true
            pllHz := s.st.pllHz.set p (BitVec.ofNat 64 hz) }))

/-- R71: SETUP_PLL_INT is SETUP_PLL with b = 0, c = 1, and its fields are 128*mult - 512, 0, 1. -/
def Obligations.SetupPllIntOutcomes : Prop :=
  Encodes 0x3 (fun c => .setupPllInt (if c.pll = 0 then .a else .b) c.a) ∧
  ∀ (p : PllId) (a : Operand) (s : State),
    exec (.setupPllInt p a) s = exec (.setupPll p a 0 1) s ∧
    (s.st.initialised = true → ¬ (15 ≤ a.toNat ∧ a.toNat ≤ 90) →
      exec (.setupPllInt p a) s =
        .next (s.ends [] { Response.blank with status := .invalidParameter } s.st)) ∧
    (s.st.initialised = true → 15 ≤ a.toNat → a.toNat ≤ 90 → (s.upcoming 0).ok = true →
      (s.upcoming 1).ok = true →
      ∃ (t : State) (r : Response), exec (.setupPllInt p a) s = .next t ∧
        t.responses = s.responses ++ [r] ∧ r.status = .ok ∧
        r.p1.toNat = 128 * a.toNat - 512 ∧ r.p2 = 0 ∧ r.p3 = 1 ∧
        r.freq.toNat = s.st.xtalHz.toNat * a.toNat ∧
        t.st = { s.st with
          pllCfg := s.st.pllCfg.set p true
          pllHz := s.st.pllHz.set p r.freq } ∧
        newTrace s t = [⟨.writeBurst (if p = .a then 26 else 34) r.data.toList, .ok⟩,
          ⟨.writeByte 177 0xA0, .ok⟩])

/-- R72: SETUP_MS in each of its cases. -/
def Obligations.SetupMsOutcomes : Prop :=
  Encodes 0x4 (fun c => .setupMs c.ch (if c.pll = 0 then .a else .b) c.a c.b c.c) ∧
  (∀ (ch : Byte) (p : PllId) (a b d : Operand) (s : State),
    (s.st.initialised = false →
      exec (.setupMs ch p a b d) s =
        .next (s.ends [] { Response.blank with status := .deviceNotInitialised } s.st)) ∧
    (s.st.initialised = true → (2 < ch.toNat ∨ ¬ MsInRange a b d ∨ s.st.pllCfg.get p = false) →
      exec (.setupMs ch p a b d) s =
        .next (s.ends [] { Response.blank with status := .invalidParameter } s.st))) ∧
  ∀ (c : Channel) (p : PllId) (a b d : Operand) (s : State),
    let base : Reg := 42 + 8 * c.number
    let f := computeFields .ms a.toNat b.toNat d.toNat
    let data := serMs s.params.rdivShift f (s.st.rdiv.get c)
    let hz := (s.st.pllHz.get p).toNat * d.toNat / (a.toNat * d.toNat + b.toNat)
    let resp : Response :=
      { Response.blank with
        p1 := f.p1, p2 := f.p2, p3 := f.p3, base := base, data := data, freq := BitVec.ofNat 64 hz }
    let burst : Request := .writeBurst base data.toList
    let clkctl : Request := .writeByte (16 + c.number)
      ((if b = 0 then 0x40 else 0) ||| (if p = .b then 0x20 else 0) ||| s.params.clkctlLow.setWidth 8)
    s.st.initialised = true → MsInRange a b d → s.st.pllCfg.get p = true →
    (FoutRejected s hz →
      exec (.setupMs c.number p a b d) s =
        .next (s.ends [] { Response.blank with status := .invalidParameter } s.st)) ∧
    (¬ FoutRejected s hz → (s.upcoming 0).ok = false →
      exec (.setupMs c.number p a b d) s =
        .next (s.ends [burst] { resp with status := .transportError } s.st)) ∧
    (¬ FoutRejected s hz → (s.upcoming 0).ok = true → (s.upcoming 1).ok = false →
      exec (.setupMs c.number p a b d) s =
        .next (s.ends [burst, clkctl] { resp with status := .transportError } s.st)) ∧
    (¬ FoutRejected s hz → (s.upcoming 0).ok = true → (s.upcoming 1).ok = true →
      exec (.setupMs c.number p a b d) s = .next (s.ends [burst, clkctl] resp s.st))

/-- R73: SETUP_MS_INT takes the dividers 4, 6 and 8 alone and is then SETUP_MS with b = 0, c = 1. -/
def Obligations.SetupMsIntOutcomes : Prop :=
  Encodes 0x5 (fun c => .setupMsInt c.ch (if c.pll = 0 then .a else .b) c.a) ∧
  (∀ (ch : Byte) (p : PllId) (a : Operand) (s : State),
    (s.st.initialised = false →
      exec (.setupMsInt ch p a) s =
        .next (s.ends [] { Response.blank with status := .deviceNotInitialised } s.st)) ∧
    (s.st.initialised = true → a.toNat ∉ [4, 6, 8] →
      exec (.setupMsInt ch p a) s =
        .next (s.ends [] { Response.blank with status := .invalidParameter } s.st)) ∧
    (a.toNat ∈ [4, 6, 8] → exec (.setupMsInt ch p a) s = exec (.setupMs ch p a 0 1) s)) ∧
  ∀ (c : Channel) (p : PllId) (a : Operand) (s : State),
    s.st.initialised = true → a.toNat ∈ [4, 6, 8] → s.st.pllCfg.get p = true →
    ¬ FoutRejected s ((s.st.pllHz.get p).toNat / a.toNat) →
    (s.upcoming 0).ok = true → (s.upcoming 1).ok = true →
    ∃ r : Response, r.status = .ok ∧ r.p1.toNat = 128 * a.toNat - 512 ∧ r.p2 = 0 ∧ r.p3 = 1 ∧
      r.freq.toNat = (s.st.pllHz.get p).toNat / a.toNat ∧ r.base = 42 + 8 * c.number ∧
      exec (.setupMsInt c.number p a) s =
        .next (s.ends [.writeBurst (42 + 8 * c.number) r.data.toList,
          .writeByte (16 + c.number)
            (0x40 ||| (if p = .b then 0x20 else 0) ||| s.params.clkctlLow.setWidth 8)] r s.st)

/-- R74: SETUP_RDIV in each of its cases, for every byte the read may answer. The byte written keeps 8 bits:
with `RDIV_SHIFT` above 5, a value the spec does not use, exponent bits past bit 7 are lost (log entry 3). -/
def Obligations.SetupRdivOutcomes : Prop :=
  Encodes 0x6 (fun c => .setupRdiv c.ch c.e) ∧
  (∀ (ch : Byte) (e : RdivExp) (s : State),
    (s.st.initialised = false →
      exec (.setupRdiv ch e) s =
        .next (s.ends [] { Response.blank with status := .deviceNotInitialised } s.st)) ∧
    (s.st.initialised = true → 2 < ch.toNat →
      exec (.setupRdiv ch e) s =
        .next (s.ends [] { Response.blank with status := .invalidParameter } s.st))) ∧
  ∀ (c : Channel) (e : RdivExp) (s : State),
    let reg : Reg := 44 + 8 * c.number
    let v := (s.upcoming 0).byte
    let nv : Byte := BitVec.ofNat 8
      (v.toNat &&& (2 ^ s.params.rdivShift - 1) ||| e.toNat * 2 ^ s.params.rdivShift)
    s.st.initialised = true →
    ((s.upcoming 0).ok = false →
      exec (.setupRdiv c.number e) s =
        .next (s.ends [.readByte reg] { Response.blank with status := .transportError } s.st)) ∧
    ((s.upcoming 0).ok = true → (s.upcoming 1).ok = false →
      exec (.setupRdiv c.number e) s =
        .next (s.ends [.readByte reg, .writeByte reg nv]
          { Response.blank with status := .transportError } s.st)) ∧
    ((s.upcoming 0).ok = true → (s.upcoming 1).ok = true →
      exec (.setupRdiv c.number e) s =
        .next (s.ends [.readByte reg, .writeByte reg nv] Response.blank
          { s.st with rdiv := s.st.rdiv.set c e }))

/-! ### The codec commands -/

/-- R52: PACK reports InvalidParameter on its precondition, else the fields of the mode that its
operands and block kind select. -/
def Obligations.PackOutcomes : Prop :=
  Encodes 0x8 (fun c => .pack (if c.kind = 0 then .pll else .ms) c.a c.b c.c) ∧
  ∀ (k : BlockKind) (a b c : Operand) (s : State),
    let fields (p1 p2 p3 : Int) : Response :=
      { Response.blank with
        p1 := BitVec.ofInt 18 p1, p2 := BitVec.ofInt 20 p2, p3 := BitVec.ofInt 20 p3 }
    let A : Int := a.toNat
    let B : Int := b.toNat
    let C : Int := c.toNat
    let q : Int := (128 * b.toNat / c.toNat : Nat)
    (¬ FracInRange b c →
      exec (.pack k a b c) s =
        .next (s.ends [] { Response.blank with status := .invalidParameter } s.st)) ∧
    (FracInRange b c → b.toNat = 0 →
      exec (.pack k a b c) s = .next (s.ends [] (fields (128 * A - 512) 0 C) s.st)) ∧
    (FracInRange b c → b.toNat ≠ 0 → c.toNat = 1 → k = .ms →
      exec (.pack k a b c) s =
        .next (s.ends [] (fields (128 * A + 128 * B - 512) (128 * B - 128) 1) s.st)) ∧
    (FracInRange b c → b.toNat ≠ 0 → ¬ (c.toNat = 1 ∧ k = .ms) →
      exec (.pack k a b c) s =
        .next (s.ends [] (fields (128 * A + q - 512) (128 * B - C * q) C) s.st))

/-- R58: SER_PLL for every operand value. -/
def Obligations.SerPllOutcomes : Prop :=
  Encodes 0x9 (fun c => .serPll (if c.pll = 0 then .a else .b) c.a c.b c.c) ∧
  ∀ (p : PllId) (a b c : Operand) (s : State),
    let p1 := a.toNat % 2 ^ 18
    let p2 := b.toNat % 2 ^ 20
    let p3 := c.toNat % 2 ^ 20
    ∃ d : Block,
      exec (.serPll p a b c) s =
        .next (s.ends []
          { Response.blank with base := if p = .a then 26 else 34, data := d } s.st) ∧
      d.d0.toNat = p3 / 2 ^ 8 % 2 ^ 8 ∧ d.d1.toNat = p3 % 2 ^ 8 ∧
      d.d2.toNat = p1 / 2 ^ 16 ∧ d.d3.toNat = p1 / 2 ^ 8 % 2 ^ 8 ∧ d.d4.toNat = p1 % 2 ^ 8 ∧
      d.d5.toNat = p3 / 2 ^ 16 * 2 ^ 4 + p2 / 2 ^ 16 ∧
      d.d6.toNat = p2 / 2 ^ 8 % 2 ^ 8 ∧ d.d7.toNat = p2 % 2 ^ 8

/-- R59: SER_MS for every operand value and every channel number. -/
def Obligations.SerMsOutcomes : Prop :=
  Encodes 0xA (fun c => .serMs c.ch c.e c.a c.b c.c) ∧
  (∀ (ch : Byte) (e : RdivExp) (a b c : Operand) (s : State), 2 < ch.toNat →
    exec (.serMs ch e a b c) s =
      .next (s.ends [] { Response.blank with status := .invalidParameter } s.st)) ∧
  ∀ (ch : Channel) (e : RdivExp) (a b c : Operand) (s : State),
    let p1 := a.toNat % 2 ^ 18
    let p2 := b.toNat % 2 ^ 20
    let p3 := c.toNat % 2 ^ 20
    ∃ d : Block,
      exec (.serMs ch.number e a b c) s =
        .next (s.ends [] { Response.blank with base := 42 + 8 * ch.number, data := d } s.st) ∧
      d.d0.toNat = p3 / 2 ^ 8 % 2 ^ 8 ∧ d.d1.toNat = p3 % 2 ^ 8 ∧
      d.d2.toNat = (p1 / 2 ^ 16 ||| e.toNat * 2 ^ s.params.rdivShift) % 2 ^ 8 ∧
      d.d3.toNat = p1 / 2 ^ 8 % 2 ^ 8 ∧ d.d4.toNat = p1 % 2 ^ 8 ∧
      d.d5.toNat = p3 / 2 ^ 16 * 2 ^ 4 + p2 / 2 ^ 16 ∧
      d.d6.toNat = p2 / 2 ^ 8 % 2 ^ 8 ∧ d.d7.toNat = p2 % 2 ^ 8

/-- R60: UNPACK for every eight bytes. -/
def Obligations.UnpackOutcomes : Prop :=
  Encodes 0xB (fun c => .unpack
    ⟨c.a.extractLsb' 24 8, c.a.extractLsb' 16 8, c.a.extractLsb' 8 8, c.a.extractLsb' 0 8,
     c.b.extractLsb' 24 8, c.b.extractLsb' 16 8, c.b.extractLsb' 8 8, c.b.extractLsb' 0 8⟩) ∧
  ∀ (d : Block) (s : State),
    ∃ r : Response,
      exec (.unpack d) s = .next (s.ends [] r s.st) ∧
      r = { Response.blank with p1 := r.p1, p2 := r.p2, p3 := r.p3 } ∧
      r.p1.toNat = d.d2.toNat % 4 * 2 ^ 16 + d.d3.toNat * 2 ^ 8 + d.d4.toNat ∧
      r.p2.toNat = d.d5.toNat % 16 * 2 ^ 16 + d.d6.toNat * 2 ^ 8 + d.d7.toNat ∧
      r.p3.toNat = d.d5.toNat / 16 * 2 ^ 16 + d.d0.toNat * 2 ^ 8 + d.d1.toNat

/-- Unpacking a serialized block gives the fields back, and the converse exactly when the bits no
field occupies are 0 (R61, which the spec marks as derived from R58 to R60). `serMs` takes RDIV_SHIFT as an argument: the first half holds for every position of
the exponent apart from P1[17:16], the second speaks of d2[7:5], the default position 5. -/
def Obligations.RoundTrip : Prop :=
  (∀ (f : Fields) (r : RdivExp) (shift : Nat), 2 ≤ shift →
    unpackFields (serPll f) = f ∧ unpackFields (serMs shift f r) = f) ∧
  (∀ d : Block,
    (serPll (unpackFields d) = d ↔ d.d2.extractLsb' 2 6 = 0) ∧
    (serMs 5 (unpackFields d) (d.d2.extractLsb' 5 3) = d ↔ d.d2.extractLsb' 2 3 = 0))

/-- The codec commands are pure: what they answer depends on the command and the open parameters alone,
and they request nothing and write no element of `st`. -/
def Obligations.CodecCommandsArePure : Prop :=
  ∀ (i : Instr) (s s' : State), i.isDevice = false → s.params = s'.params →
    ∃ r : Response, exec i s = .next (s.ends [] r s.st) ∧ exec i s' = .next (s'.ends [] r s'.st)

/-- The fields are the exact values modulo 2^18 or 2^20, negative values included (R57), and inside the
ranges SETUP_PLL and SETUP_MS check with b < c nothing is lost, which R57 marks as derived. -/
def Obligations.FieldsAreTruncatedExactValues : Prop :=
  (∀ (k : BlockKind) (a b c : Nat),
    ((computeFields k a b c).p1.toNat : Int) = (exactFields k a b c).1 % 2 ^ 18 ∧
    ((computeFields k a b c).p2.toNat : Int) = (exactFields k a b c).2.1 % 2 ^ 20 ∧
    ((computeFields k a b c).p3.toNat : Int) = (exactFields k a b c).2.2 % 2 ^ 20) ∧
  (∀ (k : BlockKind) (a b c : Nat), 4 ≤ a → a ≤ 2048 → b < c → c ≤ 0xFFFFF →
    ((computeFields k a b c).p1.toNat : Int) = (exactFields k a b c).1 ∧
    ((computeFields k a b c).p2.toNat : Int) = (exactFields k a b c).2.1 ∧
    ((computeFields k a b c).p3.toNat : Int) = (exactFields k a b c).2.2)

/-- R53: integer mode, for both block kinds, whatever the denominator, which is only passed through. -/
def Obligations.IntegerMode : Prop :=
  ∀ (k : BlockKind) (a c : Nat),
    exactFields k a 0 c = (128 * (a : Int) - 512, 0, (c : Int)) ∧
    (∀ c' : Nat, (computeFields k a 0 c').p1 = (computeFields k a 0 c).p1 ∧
      (computeFields k a 0 c').p2 = (computeFields k a 0 c).p2) ∧
    (∀ k' : BlockKind, computeFields k' a 0 c = computeFields k a 0 c)

/-- R54: simplified fractional mode, for a Multisynth with denominator 1 alone. For the same operands the
general formula, which a PLL block takes, gives the same P1 and P2 = 0, another P2 exactly when b ≥ 2 (of
the exact values; the 20-bit fields agree again at b = 8193). The rule's example comes last. -/
def Obligations.SimplifiedFractionalMode : Prop :=
  ∀ a b : Nat, b ≠ 0 → b ≤ 0xFFFFF →
    exactFields .ms a b 1 = (128 * (a : Int) + 128 * (b : Int) - 512, 128 * (b : Int) - 128, 1) ∧
    (exactFields .pll a b 1).1 = (exactFields .ms a b 1).1 ∧ (exactFields .pll a b 1).2.1 = 0 ∧
    ((exactFields .ms a b 1).2.1 ≠ (exactFields .pll a b 1).2.1 ↔ 2 ≤ b) ∧
    computeFields .ms 10 3 1 = ⟨0x00480, 0x00100, 1⟩

/-- The general fractional mode (R55), and the consequences for P2 and q that R55 marks as derived. -/
def Obligations.GeneralFractionalMode : Prop :=
  ∀ (k : BlockKind) (a b c : Nat), b ≠ 0 → 1 ≤ c → c ≤ 0xFFFFF → ¬ (c = 1 ∧ k = .ms) →
    exactFields k a b c =
      (128 * (a : Int) + ((128 * b / c : Nat) : Int) - 512,
       128 * (b : Int) - c * ((128 * b / c : Nat) : Int), (c : Int)) ∧
    (computeFields k a b c).p2.toNat = 128 * b % c ∧
    (computeFields k a b c).p2.toNat < c ∧
    (b < c → 128 * b / c ≤ 127)

/-- In general fractional mode without truncation the fields stand for a + b/c:
(P1 + 512 + P2/P3) / 128 = a + b/c, multiplied out. -/
def Obligations.FieldsRepresentDivider : Prop :=
  ∀ (k : BlockKind) (a b c : Nat), 4 ≤ a → a ≤ 2048 → 0 < b → b < c → c ≤ 0xFFFFF →
    let f := computeFields k a b c
    (f.p1.toNat + 512) * f.p3.toNat + f.p2.toNat = 128 * (a * c + b) ∧ f.p3.toNat = c

/-! ### Planner rules over the whole machine -/

/-- R62: only a SETUP_PLL or SETUP_PLL_INT whose two transactions answered ok records a PLL, and it
records exactly floor(xtal * (a + b/c)). -/
def Obligations.RecordedFrequencyIsExact : Prop :=
  (∀ (p : PllId) (a b c : Operand) (s t : State), exec (.setupPll p a b c) s = .next t →
    t.lastStatus = some .ok →
    t.st.pllCfg.get p = true ∧
    (t.st.pllHz.get p).toNat = s.st.xtalHz.toNat * (a.toNat * c.toNat + b.toNat) / c.toNat ∧
    (newTrace s t).map (·.reply) = [.ok, .ok]) ∧
  (∀ (p : PllId) (a : Operand) (s t : State), exec (.setupPllInt p a) s = .next t →
    t.lastStatus = some .ok →
    t.st.pllCfg.get p = true ∧ (t.st.pllHz.get p).toNat = s.st.xtalHz.toNat * a.toNat ∧
    (newTrace s t).map (·.reply) = [.ok, .ok]) ∧
  (∀ (i : Instr) (p : PllId) (s t : State), exec i s = .next t → i.isInit = false →
    (t.st.pllCfg.get p ≠ s.st.pllCfg.get p ∨ t.st.pllHz.get p ≠ s.st.pllHz.get p) →
    i.configures = some p ∧ t.lastStatus = some .ok ∧ t.st.pllCfg.get p = true)

/-- R63: SETUP_MS and SETUP_MS_INT against a PLL not configured since the last INIT always fail with
InvalidParameter before any transaction, for every channel and PLL, and no other command looks at
`st.pll_cfg`. -/
def Obligations.UnconfiguredPllIsRefused : Prop :=
  (∀ (i : Instr) (ch : Byte) (p : PllId) (a b c : Operand) (s : State),
    (i = .setupMs ch p a b c ∨ i = .setupMsInt ch p a) →
    s.st.initialised = true → s.st.pllCfg.get p = false →
    exec i s = .next (s.ends [] { Response.blank with status := .invalidParameter } s.st)) ∧
  (∀ (i : Instr) (cfg : PerPll Bool) (s t : State),
    (∀ ch p a b c, i ≠ .setupMs ch p a b c) → (∀ ch p a, i ≠ .setupMsInt ch p a) →
    exec i s = .next t →
    ∃ t', exec i { s with st := { s.st with pllCfg := cfg } } = .next t' ∧
      t'.responses = t.responses ∧ t'.trace = t.trace)

/-- R66: the diagnostic frequency that SETUP_MS and SETUP_MS_INT report, with status OK or TransportError,
is the exact floor of the recorded PLL frequency over the divider, whose value is at least 4; no exponent
enters it and no state changes. -/
def Obligations.OutputFrequencyDiagnostic : Prop :=
  (∀ (ch : Byte) (p : PllId) (a b c : Operand) (s t : State),
    exec (.setupMs ch p a b c) s = .next t →
    t.lastStatus = some .ok ∨ t.lastStatus = some .transportError →
    4 ≤ a.toNat * c.toNat + b.toNat ∧ t.st = s.st ∧
    ∃ r, t.responses = s.responses ++ [r] ∧
      r.freq.toNat = (s.st.pllHz.get p).toNat * c.toNat / (a.toNat * c.toNat + b.toNat)) ∧
  (∀ (ch : Byte) (p : PllId) (a : Operand) (s t : State),
    exec (.setupMsInt ch p a) s = .next t →
    t.lastStatus = some .ok ∨ t.lastStatus = some .transportError →
    4 ≤ a.toNat ∧ t.st = s.st ∧
    ∃ r, t.responses = s.responses ++ [r] ∧ r.freq.toNat = (s.st.pllHz.get p).toNat / a.toNat)

/-- R67: with the check enabled, a SETUP_MS or SETUP_MS_INT that passes every other check and whose output
lies outside the limits is InvalidParameter before any transaction, and one whose output lies inside is
not; with the check disabled no output frequency is rejected. -/
def Obligations.OutputRangeCheck : Prop :=
  ∀ (i : Instr) (c : Channel) (p : PllId) (a b d : Operand) (s : State),
    (i = .setupMs c.number p a b d ∨
      (i = .setupMsInt c.number p a ∧ a.toNat ∈ [4, 6, 8] ∧ b = 0 ∧ d = 1)) →
    s.st.initialised = true → MsInRange a b d → s.st.pllCfg.get p = true →
    let f := (s.st.pllHz.get p).toNat * d.toNat / (a.toNat * d.toNat + b.toNat)
    (s.params.enforceFoutRange = true → (f < s.params.fOutMin ∨ s.params.fOutMax < f) →
      exec i s = .next (s.ends [] { Response.blank with status := .invalidParameter } s.st)) ∧
    (s.params.enforceFoutRange = true → s.params.fOutMin ≤ f → f ≤ s.params.fOutMax →
      ∃ t, exec i s = .next t ∧ t.lastStatus ≠ some .invalidParameter) ∧
    (s.params.enforceFoutRange = false →
      ∃ t, exec i s = .next t ∧ t.lastStatus ≠ some .invalidParameter)

/-- R49: the clock-control byte of a successful SETUP_MS or SETUP_MS_INT, bit by bit; with the decided
`CLKCTL_LOW` it is one of 0x0F, 0x2F, 0x4F, 0x6F. -/
def Obligations.ClockControlByte : Prop :=
  ∀ (i : Instr) (c : Channel) (p : PllId) (a b d : Operand) (s t : State),
    (i = .setupMs c.number p a b d ∨ (i = .setupMsInt c.number p a ∧ b = 0)) →
    exec i s = .next t → t.lastStatus = some .ok →
    ∃ v : Byte, (newTrace s t).getLast? = some ⟨.writeByte (16 + c.number) v, .ok⟩ ∧
      v.getLsbD 7 = false ∧ v.getLsbD 6 = decide (b = 0) ∧ v.getLsbD 5 = decide (p = .b) ∧
      v.extractLsb' 0 5 = s.params.clkctlLow ∧
      (s.params.clkctlLow = 0x0F → v = 0x0F ∨ v = 0x2F ∨ v = 0x4F ∨ v = 0x6F)

/-- R50: every successful SETUP_PLL and SETUP_PLL_INT ends by writing 0xA0, bits 7 and 5 and no other, to
register 177, whichever PLL was configured; so each resets both PLLs once, and no other command, INIT
included, resets either (R37, R89, R93). -/
def Obligations.SoftResetOfBothPlls : Prop :=
  (∀ k, k < 8 → ((0xA0#8).getLsbD k = true ↔ k = 7 ∨ k = 5)) ∧
  (∀ (i : Instr) (p : PllId) (s t : State), i.configures = some p → exec i s = .next t →
    t.lastStatus = some .ok →
    (newTrace s t).getLast? = some ⟨.writeByte 177 0xA0, .ok⟩ ∧ t.chip.read 177 = some 0xA0 ∧
    ∀ q, softResets q (newTrace s t) = 1) ∧
  (∀ (i : Instr) (s t : State), i.configures = none → exec i s = .next t →
    ∀ q, softResets q (newTrace s t) = 0)

/-- The exponent of a successful SETUP_RDIV is in the parameter-3 byte that every later
successful SETUP_MS or SETUP_MS_INT on the channel writes, whatever commands come between, until the next
INIT or SETUP_RDIV on the channel; after a successful INIT that exponent is 0. The premise `paramsSound`
is the model's inference (log entry 3). These are R65 (a) and (b), which the spec marks as derived. -/
def Obligations.ExponentSurvivesToMultisynth : Prop :=
  ∀ (c : Channel) (e : RdivExp) (first : Instr) (between : List Instr) (i : Instr) (p : PllId)
    (a b d : Operand) (s t u v : State),
    paramsSound s.params →
    (first = .setupRdiv c.number e ∨ (first.isInit = true ∧ e = 0)) →
    exec first s = .next t → t.lastStatus = some .ok →
    (∀ j ∈ between, j.isInit = false ∧ ∀ e', j ≠ .setupRdiv c.number e') →
    execAll between t = .next u →
    (i = .setupMs c.number p a b d ∨ i = .setupMsInt c.number p a) →
    exec i u = .next v → v.lastStatus = some .ok →
    ∃ x : Byte, v.chip.read (44 + 8 * c.number.toNat) = some x ∧
      x.extractLsb' s.params.rdivShift 3 = e

/-- The two writers of the parameter-3 byte build it differently (default position of the exponent):
SETUP_MS writes 0 to bits [4:2]; SETUP_RDIV keeps bits [4:0] of the byte it read. -/
def Obligations.SharedParameter3Byte : Prop :=
  (∀ (c : Channel) (p : PllId) (a b d : Operand) (s t : State), s.params.rdivShift = 5 →
    exec (.setupMs c.number p a b d) s = .next t → t.lastStatus = some .ok →
    ∃ x : Byte, t.chip.read (44 + 8 * c.number.toNat) = some x ∧ x.extractLsb' 2 3 = 0 ∧
      x.extractLsb' 5 3 = s.st.rdiv.get c) ∧
  (∀ (c : Channel) (e : RdivExp) (s t : State), s.params.rdivShift = 5 →
    exec (.setupRdiv c.number e) s = .next t → t.lastStatus = some .ok →
    ∃ x : Byte, t.chip.read (44 + 8 * c.number.toNat) = some x ∧
      x.extractLsb' 0 5 = (s.upcoming 0).byte.extractLsb' 0 5 ∧ x.extractLsb' 5 3 = e)

/-! ### Errors -/

/-- R76: the status codes, and exactly which commands raise each kind. The response records nothing else of
an error: the status alone (the failing check), and with TransportError the same fields whichever
transaction failed. -/
def Obligations.StatusKinds : Prop :=
  (Status.code .ok = 0 ∧ Status.code .deviceNotFound = 1 ∧ Status.code .deviceNotInitialised = 2 ∧
    Status.code .invalidParameter = 3 ∧ Status.code .transportError = 4) ∧
  (∀ e : Status, (Status.code e).toNat ≤ 4) ∧
  (∀ op : BitVec 4,
    (Raises op .ok ↔
      op ∈ [0x1#4, 0x2#4, 0x3#4, 0x4#4, 0x5#4, 0x6#4, 0x8#4, 0x9#4, 0xA#4, 0xB#4]) ∧
    (Raises op .deviceNotFound ↔ op = 0x1) ∧
    (Raises op .deviceNotInitialised ↔ op ∈ [0x2#4, 0x3#4, 0x4#4, 0x5#4, 0x6#4]) ∧
    (Raises op .invalidParameter ↔ op ∈ [0x2#4, 0x3#4, 0x4#4, 0x5#4, 0x6#4, 0x8#4, 0xA#4]) ∧
    (Raises op .transportError ↔ op ∈ [0x1#4, 0x2#4, 0x3#4, 0x4#4, 0x5#4, 0x6#4])) ∧
  (∀ (i : Instr) (s t : State) (e : Status), exec i s = .next t → t.lastStatus = some e →
    (i.opcode ∈ [0x9#4, 0xB#4] → e = .ok) ∧
    (e ≠ .ok → e ≠ .transportError →
      t.responses = s.responses ++ [{ Response.blank with status := e }])) ∧
  (∀ (i : Instr) (s s' t t' : State) (e : Status), e ≠ .ok → s.st = s'.st → s.params = s'.params →
    exec i s = .next t → t.lastStatus = some e → exec i s' = .next t' → t'.lastStatus = some e →
    ∃ r, t.responses = s.responses ++ [r] ∧ t'.responses = s'.responses ++ [r])

/-- R78: DeviceNotInitialised, exactly when a device command other than INIT finds `st.initialised` = 0,
before any other check and any transaction. -/
def Obligations.NotInitialisedGate : Prop :=
  ∀ (i : Instr) (s t : State), exec i s = .next t →
    (t.lastStatus = some .deviceNotInitialised ↔
      i.isDevice = true ∧ i.isInit = false ∧ s.st.initialised = false) ∧
    (t.lastStatus = some .deviceNotInitialised →
      t = s.ends [] { Response.blank with status := .deviceNotInitialised } s.st)

/-- R79: the InvalidParameter causes, exhaustively; no transaction is issued and no state is written. -/
def Obligations.InvalidParameterCauses : Prop :=
  ∀ (i : Instr) (s t : State), exec i s = .next t →
    (i.isDevice = true → i.isInit = false → s.st.initialised = true) →
    (t.lastStatus = some .invalidParameter ↔ InvalidCause i s) ∧
    (InvalidCause i s → t = s.ends [] { Response.blank with status := .invalidParameter } s.st)

/-- R81: the one status a command reports, in the order of priority. -/
def Obligations.StatusPriority : Prop :=
  ∀ (i : Instr) (s t : State), exec i s = .next t →
    let failed : Prop := ∃ x ∈ newTrace s t, x.reply = .err
    (i.isInit = true →
      ((s.upcoming 0).ok = false → t.lastStatus = some .deviceNotFound ∧
        newTrace s t = [⟨.probe, .err⟩]) ∧
      ((s.upcoming 0).ok = true → failed → t.lastStatus = some .transportError) ∧
      (¬ failed → t.lastStatus = some .ok)) ∧
    (i.isInit = false →
      (i.isDevice = true ∧ s.st.initialised = false →
        t.lastStatus = some .deviceNotInitialised ∧ newTrace s t = []) ∧
      (¬ (i.isDevice = true ∧ s.st.initialised = false) → InvalidCause i s →
        t.lastStatus = some .invalidParameter ∧ newTrace s t = []) ∧
      (¬ (i.isDevice = true ∧ s.st.initialised = false) → ¬ InvalidCause i s →
        (failed → t.lastStatus = some .transportError) ∧ (¬ failed → t.lastStatus = some .ok)))

/-- R82: errors are precise. After an error `st` is as before the command, except for INIT's reset, and
nothing else is saved or changed; the response has the status and the fields written so far; every
transaction before the last answered ok; and the last answered err exactly when the status is
DeviceNotFound or TransportError. -/
def Obligations.ErrorsArePrecise : Prop :=
  ∀ (i : Instr) (s t : State) (e : Status), exec i s = .next t → t.lastStatus = some e →
    (e ≠ .ok → i.isInit = false → t.st = s.st) ∧
    (e ≠ .ok → i.isInit = true → t.st = ⟨false, 0, ⟨false, false⟩, ⟨0, 0⟩, ⟨0, 0, 0⟩⟩) ∧
    (∀ x ∈ (newTrace s t).dropLast, x.reply ≠ .err) ∧
    ((∃ x, (newTrace s t).getLast? = some x ∧ x.reply = .err) ↔
      e = .deviceNotFound ∨ e = .transportError) ∧
    (e ≠ .ok → e ≠ .transportError →
      t.responses = s.responses ++ [{ Response.blank with status := e }]) ∧
    (e = .transportError → ∃ (t' : State) (r r' : Response), exec i s.withAllOk = .next t' ∧
      t.responses = s.responses ++ [r] ∧ t'.responses = s.responses ++ [r'] ∧
      reportsFieldsSoFar i r r') ∧
    t.trace = s.trace ++ newTrace s t ∧ t.params = s.params ∧ t.commands = s.commands

/-- A failed transaction leaves every register it targeted unknown, and no other register changes for it:
the image after the command is the image after the transactions before it, less those registers. -/
def Obligations.FailedTransactionLeavesTargetsUnknown : Prop :=
  ∀ (i : Instr) (s t : State) (x : Transaction), s.chip.wf → exec i s = .next t →
    (newTrace s t).getLast? = some x → x.reply = .err →
    (∀ n ∈ x.request.targets, t.chip.read n = none) ∧
    (∀ n, n ∉ x.request.targets →
      t.chip.read n = (s.chip.replay (newTrace s t).dropLast).read n)

/-- R24: a command that raises an error leaves `st` as it was, with the exception of INIT, which resets
every element whether or not it succeeds; every command writes its response. -/
def Obligations.StateWrittenOnlyOnSuccess : Prop :=
  ∀ (i : Instr) (s t : State), exec i s = .next t →
    (i.isInit = false → t.lastStatus ≠ some .ok → t.st = s.st) ∧
    (i.isInit = true → t.lastStatus ≠ some .ok → t.st = Device.powerOn) ∧
    (i.isInit = true → t.st.pllCfg = ⟨false, false⟩ ∧ t.st.pllHz = ⟨0, 0⟩ ∧ t.st.rdiv = ⟨0, 0, 0⟩) ∧
    (∃ r, t.responses = s.responses ++ [r])

/-! ### Whole-machine rules -/

/-- Who writes each element of `st`: `initialised` and `xtal_hz` INIT alone; `pll_cfg[p]`, which only
INIT clears, and `pll_hz[p]` also a successful setup of PLL p; `rdiv[ch]` also a successful SETUP_RDIV of
ch, which leaves its exponent there. -/
def Obligations.WritersOfDeviceState : Prop :=
  ∀ (i : Instr) (s t : State), exec i s = .next t → i.isInit = false →
    t.st.initialised = s.st.initialised ∧ t.st.xtalHz = s.st.xtalHz ∧
    (∀ p, s.st.pllCfg.get p = true → t.st.pllCfg.get p = true) ∧
    (∀ p, t.st.pllCfg.get p ≠ s.st.pllCfg.get p ∨ t.st.pllHz.get p ≠ s.st.pllHz.get p →
      i.configures = some p ∧ t.lastStatus = some .ok) ∧
    (∀ c, t.st.rdiv.get c ≠ s.st.rdiv.get c →
      t.lastStatus = some .ok ∧ i = .setupRdiv c.number (t.st.rdiv.get c))

/-- R75: the transitions of the lifecycle. -/
def Obligations.LifecycleTransitions : Prop :=
  (∀ d : Device, (d.initialised = false → d.lifecycle = .uninitialised) ∧
    (d.initialised = true → d.lifecycle = .initialised d.pllCfg)) ∧
  ∀ (i : Instr) (s t : State), exec i s = .next t →
    (i.isInit = true → t.lastStatus = some .ok → t.st.lifecycle = .initialised ⟨false, false⟩) ∧
    (i.isInit = true → t.lastStatus ≠ some .ok → t.st.lifecycle = .uninitialised) ∧
    (∀ p, i.configures = some p → t.lastStatus = some .ok →
      s.st.lifecycle = .initialised s.st.pllCfg ∧
      t.st.lifecycle = .initialised (s.st.pllCfg.set p true)) ∧
    (i.isInit = false → i.configures = none ∨ t.lastStatus ≠ some .ok →
      t.st.lifecycle = s.st.lifecycle)

/-- Every transaction any command makes is a probe, a read of 44, 52, 60 or 149, a write of
one of the byte registers, or a burst of 8 bytes at a parameter block, and no burst passes register 65
(R35; R30 and R32, which the spec marks as derived). Each command writes its own registers alone; INIT
alone probes, and reads 149; SETUP_RDIV reads its own channel's parameter-3 byte; no other command reads. -/
def Obligations.OnlyListedRegistersAccessed : Prop :=
  ∀ (i : Instr) (s t : State), exec i s = .next t → ∀ x ∈ newTrace s t,
    x.request.allowed ∧ (∀ n ∈ x.request.targets, n ∈ i.mayWrite) ∧
    (∀ r, x.request = .readByte r → r.toNat ∈ i.mayRead) ∧
    (x.request = .probe → i.isInit = true) ∧
    (∀ r bytes, x.request = .writeBurst r bytes → r.toNat + bytes.length ≤ 66)

/-- The memory frame of every command: each register of the image that is none of the command's own reads
after it as before it. For the codec commands that is every register. -/
def Obligations.OtherRegistersUnchanged : Prop :=
  ∀ (i : Instr) (s t : State), exec i s = .next t →
    ∀ n, n ∉ i.mayWrite → t.chip.read n = s.chip.read n

/-- What a successful command leaves in the registers it writes: the block its response reports, byte by
byte from the base up, and the byte written beside it; and the parameter-3 byte SETUP_RDIV writes back. -/
def Obligations.WrittenRegistersReadBack : Prop :=
  (∀ (f : Operand) (load : Byte) (s t : State), exec (.init f load) s = .next t →
    t.lastStatus = some .ok →
    t.chip.read 3 = some 0xFF ∧ (∀ n, 16 ≤ n → n ≤ 23 → t.chip.read n = some s.params.initPdnByte) ∧
    t.chip.read 183 = some load ∧ t.chip.read 149 = some ((s.upcoming 11).byte &&& 0x7F)) ∧
  (∀ (i : Instr) (p : PllId) (s t : State), i.configures = some p → exec i s = .next t →
    t.lastStatus = some .ok →
    ∃ r, t.responses = s.responses ++ [r] ∧ r.base.toNat = (if p = .a then 26 else 34) ∧
      t.chip.read 177 = some 0xA0 ∧
      ∀ k (h : k < 8), t.chip.read (r.base.toNat + k) = some (r.data.toList[k]'h)) ∧
  (∀ (i : Instr) (c : Channel) (p : PllId) (a b d : Operand) (s t : State),
    (i = .setupMs c.number p a b d ∨ (i = .setupMsInt c.number p a ∧ b = 0)) → exec i s = .next t →
    t.lastStatus = some .ok →
    ∃ r, t.responses = s.responses ++ [r] ∧ r.base.toNat = 42 + 8 * c.number.toNat ∧
      t.chip.read (16 + c.number.toNat) = some ((if b = 0 then 0x40 else 0) |||
        (if p = .b then 0x20 else 0) ||| s.params.clkctlLow.setWidth 8) ∧
      ∀ k (h : k < 8), t.chip.read (r.base.toNat + k) = some (r.data.toList[k]'h)) ∧
  (∀ (c : Channel) (e : RdivExp) (s t : State), exec (.setupRdiv c.number e) s = .next t →
    t.lastStatus = some .ok →
    t.chip.read (44 + 8 * c.number.toNat) = some (BitVec.ofNat 8
      ((s.upcoming 0).byte.toNat &&& (2 ^ s.params.rdivShift - 1) ||| e.toNat * 2 ^ s.params.rdivShift)))

/-- No command reads an output: two states that differ only in the image, the trace, the responses and
the commands waiting execute every command alike (R20, R26, R39). -/
def Obligations.OutputsAreNeverReadBack : Prop :=
  ∀ (i : Instr) (s s' t : State),
    s.st = s'.st → s.params = s'.params → s.answers = s'.answers → s.draws = s'.draws →
    exec i s = .next t →
    ∃ (t' : State) (r : Response), exec i s' = .next t' ∧ t'.st = t.st ∧
      newTrace s' t' = newTrace s t ∧ t.responses = s.responses ++ [r] ∧
      t'.responses = s'.responses ++ [r] ∧ t'.answers = t.answers ∧ t'.draws = t.draws

/-- Before an INIT no sequence of commands reaches the chip or changes `st`: whatever commands
an uninitialised DRE executes, it requests no transaction, stays uninitialised, and draws no answer (R77,
R78, R88). -/
def Obligations.NothingTouchesChipBeforeInit : Prop :=
  ∀ (is : List Instr) (s : State), s.st.initialised = false → (∀ i ∈ is, i.isInit = false) →
    ∃ t, execAll is s = .next t ∧ t.st = s.st ∧ t.trace = s.trace ∧ t.chip = s.chip ∧
      t.answers = s.answers ∧ t.draws = s.draws ∧
      t.responses.length = s.responses.length + is.length

/-- After a successful INIT the outputs stay disabled, and every driver that no following command may write
keeps the power-down byte, whatever commands follow, until the next INIT (R69, R90). Bit 7 of that byte,
which its source fixes as set (I8), powers the driver down. -/
def Obligations.OutputsStayDisabled : Prop :=
  ∀ (f : Operand) (load : Byte) (is : List Instr) (s t u : State),
    exec (.init f load) s = .next t → t.lastStatus = some .ok →
    (∀ i ∈ is, i.isInit = false) → execAll is t = .next u →
    u.chip.outputsDisabled ∧
    ∀ n, n < 8 → (∀ i ∈ is, 16 + n ∉ i.mayWrite) →
      u.chip.read (16 + n) = some s.params.initPdnByte ∧
      (s.params.initPdnByte.getLsbD 7 = true → u.chip.driverPoweredDown n = some true)

/-- The boot sequence of R90. From any state, INIT, SETUP_PLL and SETUP_MS against that PLL, with operands in
their ranges and every transaction answered ok, all succeed; the channel's driver is then powered up, its
frequency is reported, and the outputs are still disabled. -/
def Obligations.BootSequence : Prop :=
  ∀ (f : Operand) (load : Byte) (p : PllId) (a b c : Operand) (ch : Channel) (d n m : Operand) (s : State),
    PllInRange a b c → MsInRange d n m → s.params.enforceFoutRange = false →
    (∀ k, k < 17 → (s.upcoming k).ok = true) →
    let hz := f.toNat * (a.toNat * c.toNat + b.toNat) / c.toNat
    ∃ (t : State) (r1 r2 r3 : Response),
      execAll [.init f load, .setupPll p a b c, .setupMs ch.number p d n m] s = .next t ∧
      t.responses = s.responses ++ [r1, r2, r3] ∧
      r1.status = .ok ∧ r2.status = .ok ∧ r3.status = .ok ∧
      r2.freq.toNat = hz ∧ r3.freq.toNat = hz * m.toNat / (d.toNat * m.toNat + n.toNat) ∧
      t.st.lifecycle = .initialised ((⟨false, false⟩ : PerPll Bool).set p true) ∧
      (newTrace s t).length = 17 ∧ t.chip.outputsDisabled ∧
      t.chip.driverPoweredDown ch.number.toNat = some false

/-! ### Invariants and refinement -/

/-- Every invariant below holds at power-on. That the parameters at reset are sound rests on the model's
choice of the spec's defaults and on its inference of what sound means (log entry 3). -/
def Obligations.ResetMeetsInvariants : Prop :=
  deviceConsistent State.reset.st ∧ State.reset.chip.wf ∧ chipFollowsTrace State.reset ∧
  traceAllowed State.reset ∧ paramsSound State.reset.params

/-- Every step keeps `st` consistent: an uninitialised device is at its power-on values, an unconfigured
PLL has no frequency, and every recorded frequency is within its bound (R18, R23). -/
def Obligations.StepKeepsDeviceConsistent : Prop :=
  ∀ s t : State, deviceConsistent s.st → step s = .next t → deviceConsistent t.st

/-- Every step keeps the image in its canonical form: registers strictly rising, all below 256. -/
def Obligations.StepKeepsChipCanonical : Prop :=
  ∀ s t : State, s.chip.wf → step s = .next t → t.chip.wf

/-- Every step keeps the image equal to what the trace leaves of an unknown chip (R26). -/
def Obligations.StepKeepsChipFollowsTrace : Prop :=
  ∀ s t : State, chipFollowsTrace s → step s = .next t → chipFollowsTrace t

/-- Every step keeps the trace within the transactions the DRE may make (R25, R32, R35). -/
def Obligations.StepKeepsTraceAllowed : Prop :=
  ∀ s t : State, traceAllowed s → step s = .next t → traceAllowed t

/-- The image is sound for the chip: whatever a chip does that obeys the command's transactions (a
successful write puts its bytes, a failed one leaves any bytes in its targets), every byte the image then
knows is in the chip (R26, R36). -/
def Obligations.ChipImageIsTrue : Prop :=
  ∀ (i : Instr) (s t : State) (c c' : Nat → Byte), s.chip.wf → s.chip.trueOf c →
    exec i s = .next t → chipSteps c c' (newTrace s t) → t.chip.trueOf c'
end

