-- ==== Sys2Proof/Laws/Assembler.lean ====
section
/-! SUPPORT. The text syntax: what the assembler's parts give on well-written tokens and numbers. -/

namespace Sys2Proof.Machine

/-- A token of a line: not empty, no comma and no blank in it. -/
def IsToken (t : List Char) : Prop := t ≠ [] ∧ ∀ c ∈ t, c ≠ ',' ∧ isBlank c = false

/-- A list whose first and last characters are no blanks loses nothing. -/
theorem trimBlanks_eq_self {cs : List Char} (hn : cs ≠ []) (h : isBlank (cs.head hn) = false)
    (hl : isBlank (cs.getLast hn) = false) : trimBlanks cs = cs := by
  have front : cs.dropWhile isBlank = cs := by
    cases cs with
    | nil => rfl
    | cons c cs => simp only [List.head_cons] at h; simp [h]
  have hr : cs.reverse ≠ [] := by simpa using hn
  have back : cs.reverse.dropWhile isBlank = cs.reverse := by
    cases hc : cs.reverse with
    | nil => rfl
    | cons c r =>
      have : isBlank c = false := by
        have e : cs.getLast hn = c := by
          have := List.head_reverse (l := cs) hr
          simp only [hc, List.head_cons] at this
          exact this.symm
        rwa [e] at hl
      simp [this]
  rw [trimBlanks, front, back, List.reverse_reverse]

theorem IsToken.trimBlanks_eq {t : List Char} (h : IsToken t) : trimBlanks t = t :=
  trimBlanks_eq_self h.1 (h.2 _ (List.head_mem h.1)).2 (h.2 _ (List.getLast_mem h.1)).2

theorem trimBlanks_space (t : List Char) : trimBlanks (' ' :: t) = trimBlanks t := rfl

/-- Splitting at the comma after a token. -/
theorem splitAtCommas_token {t : List Char} (ht : ∀ c ∈ t, c ≠ ',') (cs : List Char) :
    splitAtCommas (t ++ ',' :: cs) = t :: splitAtCommas cs := by
  induction t with
  | nil => simp [splitAtCommas]
  | cons c t ih =>
    rw [List.cons_append, splitAtCommas, ih fun d hd => ht d (List.mem_cons_of_mem _ hd)]
    simp [ht c List.mem_cons_self]

theorem splitAtCommas_last {t : List Char} (ht : ∀ c ∈ t, c ≠ ',') : splitAtCommas t = [t] := by
  induction t with
  | nil => rfl
  | cons c t ih =>
    rw [splitAtCommas, ih fun d hd => ht d (List.mem_cons_of_mem _ hd)]
    simp [ht c List.mem_cons_self]

/-- The operands of a line are its tokens. -/
theorem operands_separated (ts : List (List Char)) (hn : ts ≠ []) (h : ∀ t ∈ ts, IsToken t) :
    (splitAtCommas (' ' :: separated ts)).map trimBlanks = ts := by
  induction ts with
  | nil => exact absurd rfl hn
  | cons t ts ih =>
    have tok := h t List.mem_cons_self
    have comma : ∀ c ∈ ' ' :: t, c ≠ ',' := by
      intro c hc
      rcases List.mem_cons.mp hc with rfl | hc
      · decide
      · exact (tok.2 c hc).1
    cases ts with
    | nil =>
      rw [separated, splitAtCommas_last comma]
      simp [trimBlanks_space, tok.trimBlanks_eq]
    | cons u us =>
      rw [separated, ← List.cons_append, splitAtCommas_token comma, List.map_cons,
        ih (List.cons_ne_nil _ _) fun x hx => h x (List.mem_cons_of_mem _ hx), trimBlanks_space,
        tok.trimBlanks_eq]

theorem separated_ne_nil {ts : List (List Char)} (hn : ts ≠ []) (h : ∀ t ∈ ts, IsToken t) :
    separated ts ≠ [] := by
  cases ts with
  | nil => exact absurd rfl hn
  | cons t ts =>
    have := (h t List.mem_cons_self).1
    cases ts <;> simp [separated, this]

theorem getLast_separated {ts : List (List Char)} (hn : ts ≠ []) (h : ∀ t ∈ ts, IsToken t)
    (hs : separated ts ≠ []) : isBlank ((separated ts).getLast hs) = false := by
  induction ts with
  | nil => exact absurd rfl hn
  | cons t ts ih =>
    cases ts with
    | nil => exact ((h t List.mem_cons_self).2 _ (List.getLast_mem _)).2
    | cons u us =>
      have hu : ∀ x ∈ u :: us, IsToken x := fun x hx => h x (List.mem_cons_of_mem _ hx)
      have hne := separated_ne_nil (List.cons_ne_nil u us) hu
      simp only [separated]
      rw [List.getLast_append_of_ne_nil _ (List.cons_ne_nil _ _), List.getLast_cons (List.cons_ne_nil _ _),
        List.getLast_cons hne]
      exact ih (List.cons_ne_nil _ _) hu hne

/-- A line of a mnemonic and tokens assembles to the fields its mnemonic and tokens give (R51). -/
theorem assemble_line {m : String} {ts : List (List Char)} (hm : IsToken m.toList) (hn : ts ≠ [])
    (h : ∀ t ∈ ts, IsToken t) :
    assemble (String.ofList (m.toList ++ ' ' :: separated ts)) =
      (assembleFields m ts).map Command.toWord := by
  have hs := separated_ne_nil hn h
  have hne : m.toList ++ ' ' :: separated ts ≠ [] := by simp
  have trim : trimBlanks (m.toList ++ ' ' :: separated ts) = m.toList ++ ' ' :: separated ts := by
    refine trimBlanks_eq_self hne ?_ ?_
    · rw [List.head_append_of_ne_nil hm.1]
      exact (hm.2 _ (List.head_mem _)).2
    · rw [List.getLast_append_of_ne_nil _ (List.cons_ne_nil _ _), List.getLast_cons hs]
      exact getLast_separated hn h hs
  have word : (m.toList ++ ' ' :: separated ts).takeWhile (fun c => !isBlank c) = m.toList := by
    rw [List.takeWhile_append_of_pos fun c hc => by simp [(hm.2 c hc).2]]
    simp [isBlank]
  rw [assemble]
  simp only [String.toList_ofList, trim, word, List.drop_left, operands_separated ts hn h,
    String.ofList_toList]
  cases assembleFields m ts <;> rfl

/-! ### Numbers -/

/-- One more digit at the end of a numeral. -/
theorem numeral_append {base acc r d : Nat} {cs : List Char} {c : Char}
    (h : numeral base acc cs = some r) (hc : digitValue c = some d) (hd : d < base) :
    numeral base acc (cs ++ [c]) = some (r * base + d) := by
  induction cs generalizing acc with
  | nil =>
    cases h
    simp [numeral, hc, hd]
  | cons x xs ih =>
    rw [List.cons_append, numeral] at *
    split at h
    · next v hv =>
      split at h
      · next hlt => simp only [if_pos hlt]; exact ih h
      · cases h
    · cases h

theorem digitValue_digitChar : ∀ d, d < 16 → digitValue d.digitChar = some d := by decide

/-- The library's digits of a number read back as the number. -/
theorem numeral_toDigits {base : Nat} (h1 : 1 < base) (h16 : base ≤ 16) (v : Nat) :
    numeral base 0 (Nat.toDigits base v) = some v := by
  induction v using Nat.strongRecOn with
  | _ v ih =>
    rw [Nat.toDigits_eq_if h1]
    split
    · next hv =>
      simp [numeral, digitValue_digitChar v (by omega), hv]
    · next hv =>
      have hm := Nat.mod_lt v (by omega : 0 < base)
      have hq := ih (v / base) (Nat.div_lt_self (by omega) h1)
      rw [numeral_append hq (digitValue_digitChar _ (by omega)) hm, Nat.div_add_mod']

theorem toDigits_char {base : Nat} (h1 : 1 < base) (h16 : base ≤ 16) (v : Nat) :
    ∀ c ∈ Nat.toDigits base v, ∃ d, d < 16 ∧ c = d.digitChar := by
  induction v using Nat.strongRecOn with
  | _ v ih =>
    rw [Nat.toDigits_eq_if h1]
    split
    · next hv => intro c hc; exact ⟨v, by omega, by simpa using hc⟩
    · next hv =>
      intro c hc
      rcases List.mem_append.mp hc with hc | hc
      · exact ih _ (Nat.div_lt_self (by omega) h1) c hc
      · exact ⟨v % base, (Nat.mod_lt v (by omega)).trans_le h16, by simpa using hc⟩

theorem digitChar_plain : ∀ d, d < 16 →
    d.digitChar ≠ ',' ∧ isBlank d.digitChar = false ∧ d.digitChar ≠ 'x' := by decide

theorem isToken_number {num : Nat → List Char} (h : WritesNumbers num) (v : Nat) : IsToken (num v) := by
  have plain {base : Nat} (h1 : 1 < base) (h16 : base ≤ 16) : ∀ c ∈ Nat.toDigits base v,
      c ≠ ',' ∧ isBlank c = false := fun c hc => by
    obtain ⟨d, hd, rfl⟩ := toDigits_char h1 h16 v c hc
    exact ⟨(digitChar_plain d hd).1, (digitChar_plain d hd).2.1⟩
  rcases h v with e | e <;> rw [e]
  · exact ⟨Nat.toDigits_ne_nil, plain (by decide) (by decide)⟩
  · refine ⟨List.cons_ne_nil _ _, fun c hc => ?_⟩
    simp only [hexadecimal, List.mem_cons] at hc
    rcases hc with rfl | rfl | hc
    · decide
    · decide
    · exact plain (by decide) (by decide) c hc

/-- A number written in either way reads back. -/
theorem parseNumber_number {num : Nat → List Char} (h : WritesNumbers num) (v : Nat) :
    parseNumber (num v) = some v := by
  rcases h v with e | e <;> rw [e]
  · have hx : ∀ c ∈ decimal v, c ≠ 'x' := fun c hc => by
      obtain ⟨d, hd, rfl⟩ := toDigits_char (by decide) (by decide) v c hc
      exact (digitChar_plain d hd).2.2
    have hn : decimal v ≠ [] := Nat.toDigits_ne_nil
    have key := numeral_toDigits (base := 10) (by decide) (by decide) v
    change numeral 10 0 (decimal v) = some v at key
    unfold parseNumber
    split
    · next e => exact absurd e hn
    · next e => exact absurd rfl (hx 'x' (by rw [e]; simp))
    · next e => exact absurd rfl (hx 'x' (by rw [e]; simp))
    · exact key
  · have key := numeral_toDigits (base := 16) (by decide) (by decide) v
    unfold hexadecimal parseNumber
    split
    · next e => cases e
    · next e => simp at e
    · next ds _ e => cases e; exact key
    · next h => exact absurd rfl (h _)

/-- A number operand of its field's width reads back as the field. -/
theorem numberOperand_number {num : Nat → List Char} (h : WritesNumbers num) {n : Nat} (v : BitVec n) :
    numberOperand n (num v.toNat) = some v := by
  simp [numberOperand, parseNumber_number h, v.isLt]

theorem isToken_pll (p : PllId) : IsToken p.text := by cases p <;> simp [IsToken, PllId.text, isBlank]

theorem isToken_kind (k : BlockKind) : IsToken k.text := by cases k <;> simp [IsToken, BlockKind.text, isBlank]

/-- The mnemonic and the operands of a command's line are tokens, and there is an operand. -/
theorem isToken_tokens {num : Nat → List Char} (h : WritesNumbers num) (i : Instr) :
    IsToken (i.tokens num).1.toList ∧ (i.tokens num).2 ≠ [] ∧ ∀ t ∈ (i.tokens num).2, IsToken t := by
  refine ⟨?_, ?_, ?_⟩
  · cases i <;> simp [Instr.tokens, IsToken, isBlank]
  · cases i <;> simp [Instr.tokens]
  · cases i <;> simp [Instr.tokens, isToken_number h, isToken_pll, isToken_kind]

@[simp] theorem pllOperand_text (p : PllId) : pllOperand p.text = some (bitOfPll p) := by cases p <;> rfl

@[simp] theorem kindOperand_text (k : BlockKind) : kindOperand k.text = some (bitOfKind k) := by
  cases k <;> rfl

end Sys2Proof.Machine
end

