-- ==== Sys2Proof/Laws/State.lean ====
section
/-! SUPPORT. One lemma per field per update of State, so that no proof unfolds a record update. -/

namespace Sys2Proof

@[simp] theorem PerPll.get_set_self {α : Type} (v : PerPll α) (p : PllId) (y : α) :
    (v.set p y).get p = y := by cases p <;> rfl

@[simp] theorem PerPll.get_set_of_ne {α : Type} (v : PerPll α) {p q : PllId} (y : α) (h : q ≠ p) :
    (v.set p y).get q = v.get q := by cases p <;> cases q <;> first | rfl | exact absurd rfl h

theorem PerPll.ext_get {α : Type} {v w : PerPll α} (h : ∀ p, v.get p = w.get p) : v = w := by
  cases v; cases w
  have ha := h .a
  have hb := h .b
  simp only [PerPll.get] at ha hb
  rw [ha, hb]

@[simp] theorem PerChannel.get_set_self {α : Type} (v : PerChannel α) (c : Channel) (y : α) :
    (v.set c y).get c = y := by cases c <;> rfl

@[simp] theorem PerChannel.get_set_of_ne {α : Type} (v : PerChannel α) {c d : Channel} (y : α)
    (h : d ≠ c) : (v.set c y).get d = v.get d := by
  cases c <;> cases d <;> first | rfl | exact absurd rfl h

@[simp] theorem Block.length_toList (d : Block) : d.toList.length = 8 := rfl

namespace Machine

section DropAnswer
variable (s : State)
@[simp] theorem State.dropAnswer_st : s.dropAnswer.st = s.st := by unfold State.dropAnswer; split <;> rfl
@[simp] theorem State.dropAnswer_params : s.dropAnswer.params = s.params := by
  unfold State.dropAnswer; split <;> rfl
@[simp] theorem State.dropAnswer_chip : s.dropAnswer.chip = s.chip := by
  unfold State.dropAnswer; split <;> rfl
@[simp] theorem State.dropAnswer_commands : s.dropAnswer.commands = s.commands := by
  unfold State.dropAnswer; split <;> rfl
@[simp] theorem State.dropAnswer_trace : s.dropAnswer.trace = s.trace := by
  unfold State.dropAnswer; split <;> rfl
@[simp] theorem State.dropAnswer_responses : s.dropAnswer.responses = s.responses := by
  unfold State.dropAnswer; split <;> rfl
end DropAnswer

section DropAnswers
@[simp] theorem State.dropAnswers_zero (s : State) : s.dropAnswers 0 = s := rfl
@[simp] theorem State.dropAnswers_succ (s : State) (n : Nat) :
    s.dropAnswers (n + 1) = s.dropAnswer.dropAnswers n := rfl
@[simp] theorem State.dropAnswers_st (s : State) (n : Nat) : (s.dropAnswers n).st = s.st := by
  induction n generalizing s with
  | zero => rfl
  | succ n ih => simp [ih]
@[simp] theorem State.dropAnswers_params (s : State) (n : Nat) :
    (s.dropAnswers n).params = s.params := by
  induction n generalizing s with
  | zero => rfl
  | succ n ih => simp [ih]
@[simp] theorem State.dropAnswers_chip (s : State) (n : Nat) : (s.dropAnswers n).chip = s.chip := by
  induction n generalizing s with
  | zero => rfl
  | succ n ih => simp [ih]
@[simp] theorem State.dropAnswers_commands (s : State) (n : Nat) :
    (s.dropAnswers n).commands = s.commands := by
  induction n generalizing s with
  | zero => rfl
  | succ n ih => simp [ih]
@[simp] theorem State.dropAnswers_trace (s : State) (n : Nat) : (s.dropAnswers n).trace = s.trace := by
  induction n generalizing s with
  | zero => rfl
  | succ n ih => simp [ih]
@[simp] theorem State.dropAnswers_responses (s : State) (n : Nat) :
    (s.dropAnswers n).responses = s.responses := by
  induction n generalizing s with
  | zero => rfl
  | succ n ih => simp [ih]
/-- Every answer to come is written `s.upcoming k`. -/
@[simp] theorem State.nextAnswer_eq_upcoming (s : State) : s.nextAnswer = s.upcoming 0 := rfl
@[simp] theorem State.upcoming_dropAnswer (s : State) (k : Nat) :
    s.dropAnswer.upcoming k = s.upcoming (k + 1) := rfl
end DropAnswers

section Transact
variable (s : State) (r : Request)
@[simp] theorem State.transact_st : (s.transact r).st = s.st := by simp [State.transact]
@[simp] theorem State.transact_params : (s.transact r).params = s.params := by simp [State.transact]
@[simp] theorem State.transact_chip : (s.transact r).chip = s.chip.apply (s.transaction r) := rfl
@[simp] theorem State.transact_commands : (s.transact r).commands = s.commands := by
  simp [State.transact]
@[simp] theorem State.transact_answers : (s.transact r).answers = s.dropAnswer.answers := rfl
@[simp] theorem State.transact_draws : (s.transact r).draws = s.dropAnswer.draws := rfl
@[simp] theorem State.transact_trace : (s.transact r).trace = s.trace ++ [s.transaction r] := rfl
@[simp] theorem State.transact_responses : (s.transact r).responses = s.responses := by
  simp [State.transact]
end Transact

section Respond
variable (resp : Response) (s : State)
@[simp] theorem respond_st : (respond resp s).st = s.st := rfl
@[simp] theorem respond_params : (respond resp s).params = s.params := rfl
@[simp] theorem respond_chip : (respond resp s).chip = s.chip := rfl
@[simp] theorem respond_commands : (respond resp s).commands = s.commands := rfl
@[simp] theorem respond_answers : (respond resp s).answers = s.answers := rfl
@[simp] theorem respond_draws : (respond resp s).draws = s.draws := rfl
@[simp] theorem respond_trace : (respond resp s).trace = s.trace := rfl
@[simp] theorem respond_responses : (respond resp s).responses = s.responses ++ [resp] := rfl
end Respond

section Raise
variable (e : Status) (resp : Response) (s : State)
@[simp] theorem raise_st : (raise e resp s).st = s.st := rfl
@[simp] theorem raise_params : (raise e resp s).params = s.params := rfl
@[simp] theorem raise_chip : (raise e resp s).chip = s.chip := rfl
@[simp] theorem raise_commands : (raise e resp s).commands = s.commands := rfl
@[simp] theorem raise_answers : (raise e resp s).answers = s.answers := rfl
@[simp] theorem raise_draws : (raise e resp s).draws = s.draws := rfl
@[simp] theorem raise_trace : (raise e resp s).trace = s.trace := rfl
@[simp] theorem raise_responses :
    (raise e resp s).responses = s.responses ++ [{ resp with status := e }] := rfl
end Raise

section RecordPll
variable (p : PllId) (a b c : Nat) (s : State)
@[simp] theorem recordPll_initialised : (recordPll p a b c s).st.initialised = s.st.initialised := rfl
@[simp] theorem recordPll_xtalHz : (recordPll p a b c s).st.xtalHz = s.st.xtalHz := rfl
@[simp] theorem recordPll_pllCfg : (recordPll p a b c s).st.pllCfg = s.st.pllCfg.set p true := rfl
@[simp] theorem recordPll_pllHz : (recordPll p a b c s).st.pllHz =
    s.st.pllHz.set p (BitVec.ofNat 64 (pllHzOf s.st.xtalHz.toNat a b c)) := rfl
@[simp] theorem recordPll_rdiv : (recordPll p a b c s).st.rdiv = s.st.rdiv := rfl
@[simp] theorem recordPll_params : (recordPll p a b c s).params = s.params := rfl
@[simp] theorem recordPll_chip : (recordPll p a b c s).chip = s.chip := rfl
@[simp] theorem recordPll_commands : (recordPll p a b c s).commands = s.commands := rfl
@[simp] theorem recordPll_answers : (recordPll p a b c s).answers = s.answers := rfl
@[simp] theorem recordPll_draws : (recordPll p a b c s).draws = s.draws := rfl
@[simp] theorem recordPll_trace : (recordPll p a b c s).trace = s.trace := rfl
@[simp] theorem recordPll_responses : (recordPll p a b c s).responses = s.responses := rfl
end RecordPll

section RecordRDivider
variable (ch : Channel) (e : RdivExp) (s : State)
@[simp] theorem recordRDivider_initialised :
    (recordRDivider ch e s).st.initialised = s.st.initialised := rfl
@[simp] theorem recordRDivider_xtalHz : (recordRDivider ch e s).st.xtalHz = s.st.xtalHz := rfl
@[simp] theorem recordRDivider_pllCfg : (recordRDivider ch e s).st.pllCfg = s.st.pllCfg := rfl
@[simp] theorem recordRDivider_pllHz : (recordRDivider ch e s).st.pllHz = s.st.pllHz := rfl
@[simp] theorem recordRDivider_rdiv : (recordRDivider ch e s).st.rdiv = s.st.rdiv.set ch e := rfl
@[simp] theorem recordRDivider_params : (recordRDivider ch e s).params = s.params := rfl
@[simp] theorem recordRDivider_chip : (recordRDivider ch e s).chip = s.chip := rfl
@[simp] theorem recordRDivider_commands : (recordRDivider ch e s).commands = s.commands := rfl
@[simp] theorem recordRDivider_answers : (recordRDivider ch e s).answers = s.answers := rfl
@[simp] theorem recordRDivider_draws : (recordRDivider ch e s).draws = s.draws := rfl
@[simp] theorem recordRDivider_trace : (recordRDivider ch e s).trace = s.trace := rfl
@[simp] theorem recordRDivider_responses : (recordRDivider ch e s).responses = s.responses := rfl
end RecordRDivider

section ResetDevice
variable (s : State)
@[simp] theorem resetDevice_st : (resetDevice s).st = Device.powerOn := rfl
@[simp] theorem resetDevice_params : (resetDevice s).params = s.params := rfl
@[simp] theorem resetDevice_chip : (resetDevice s).chip = s.chip := rfl
@[simp] theorem resetDevice_commands : (resetDevice s).commands = s.commands := rfl
@[simp] theorem resetDevice_answers : (resetDevice s).answers = s.answers := rfl
@[simp] theorem resetDevice_draws : (resetDevice s).draws = s.draws := rfl
@[simp] theorem resetDevice_trace : (resetDevice s).trace = s.trace := rfl
@[simp] theorem resetDevice_responses : (resetDevice s).responses = s.responses := rfl
end ResetDevice

section MarkInitialised
variable (x : BitVec 32) (s : State)
@[simp] theorem markInitialised_initialised : (markInitialised x s).st.initialised = true := rfl
@[simp] theorem markInitialised_xtalHz : (markInitialised x s).st.xtalHz = x := rfl
@[simp] theorem markInitialised_pllCfg : (markInitialised x s).st.pllCfg = s.st.pllCfg := rfl
@[simp] theorem markInitialised_pllHz : (markInitialised x s).st.pllHz = s.st.pllHz := rfl
@[simp] theorem markInitialised_rdiv : (markInitialised x s).st.rdiv = s.st.rdiv := rfl
@[simp] theorem markInitialised_params : (markInitialised x s).params = s.params := rfl
@[simp] theorem markInitialised_chip : (markInitialised x s).chip = s.chip := rfl
@[simp] theorem markInitialised_commands : (markInitialised x s).commands = s.commands := rfl
@[simp] theorem markInitialised_answers : (markInitialised x s).answers = s.answers := rfl
@[simp] theorem markInitialised_draws : (markInitialised x s).draws = s.draws := rfl
@[simp] theorem markInitialised_trace : (markInitialised x s).trace = s.trace := rfl
@[simp] theorem markInitialised_responses : (markInitialised x s).responses = s.responses := rfl
end MarkInitialised

end Machine

end Sys2Proof
end

