-- ==== Sys2Proof/Laws/Memory.lean ====
section
/-! SUPPORT. The ideal chip image: read after write, and every operation keeps the canonical form. -/

namespace Sys2Proof.Machine

@[simp] theorem Memory.read_nil (a : Nat) : Memory.read [] a = none := rfl

theorem Memory.read_eq_none_of_lt {m : Memory} {a : Nat} (h : ∀ x ∈ m, a < x.1) : m.read a = none := by
  induction m with
  | nil => rfl
  | cons x rest ih =>
    obtain ⟨b, w⟩ := x
    have hb : a < b := h (b, w) (by simp)
    have hr := ih fun y hy => h y (by simp [hy])
    simp [Memory.read, Nat.ne_of_lt hb, hr]

theorem Memory.read_write_self (m : Memory) (a : Nat) (v : Byte) : (m.write a v).read a = some v := by
  induction m with
  | nil => simp [Memory.write, Memory.read]
  | cons x rest ih =>
    obtain ⟨b, w⟩ := x
    by_cases hlt : a < b
    · simp [Memory.write, Memory.read, hlt]
    · by_cases heq : a = b
      · simp [Memory.write, Memory.read, heq]
      · simp [Memory.write, Memory.read, hlt, heq, ih]

theorem Memory.read_write_of_ne (m : Memory) {a b : Nat} (v : Byte) (h : b ≠ a) :
    (m.write a v).read b = m.read b := by
  induction m with
  | nil => simp [Memory.write, Memory.read, h]
  | cons x rest ih =>
    obtain ⟨c, w⟩ := x
    by_cases hlt : a < c
    · simp [Memory.write, Memory.read, hlt, h]
    · by_cases heq : a = c
      · subst heq
        simp [Memory.write, Memory.read, h]
      · simp [Memory.write, Memory.read, hlt, heq, ih]

theorem Memory.read_forget_of_ne (m : Memory) {a b : Nat} (h : b ≠ a) :
    (m.forget a).read b = m.read b := by
  induction m with
  | nil => rfl
  | cons x rest ih =>
    obtain ⟨c, w⟩ := x
    by_cases heq : a = c
    · subst heq
      simp [Memory.forget, Memory.read, h]
    · simp [Memory.forget, Memory.read, heq, ih]

theorem Memory.read_forget_self {m : Memory} (hm : m.wf) (a : Nat) : (m.forget a).read a = none := by
  induction m with
  | nil => rfl
  | cons x rest ih =>
    obtain ⟨c, w⟩ := x
    have hp := List.pairwise_cons.mp hm.1
    by_cases heq : a = c
    · subst heq
      simpa [Memory.forget] using Memory.read_eq_none_of_lt hp.1
    · have hr : Memory.wf rest := ⟨hp.2, fun y hy => hm.2 y (by simp [hy])⟩
      simp [Memory.forget, Memory.read, heq, ih hr]

theorem Memory.mem_write {m : Memory} {a : Nat} {v : Byte} {x : Host.Cell} (h : x ∈ m.write a v) :
    x = (a, v) ∨ x ∈ m := by
  induction m with
  | nil => simpa [Memory.write] using h
  | cons y rest ih =>
    obtain ⟨b, w⟩ := y
    by_cases hlt : a < b
    · simpa [Memory.write, hlt] using h
    · by_cases heq : a = b
      · subst heq
        simp only [Memory.write, Nat.lt_irrefl, if_false, if_true, List.mem_cons] at h
        rcases h with h | h
        · exact .inl h
        · exact .inr (by simp [h])
      · simp only [Memory.write, hlt, heq, if_false, List.mem_cons] at h
        rcases h with h | h
        · exact .inr (by simp [h])
        · rcases ih h with h | h
          · exact .inl h
          · exact .inr (by simp [h])

theorem Memory.mem_forget {m : Memory} {a : Nat} {x : Host.Cell} (h : x ∈ m.forget a) : x ∈ m := by
  induction m with
  | nil => simp [Memory.forget] at h
  | cons y rest ih =>
    obtain ⟨b, w⟩ := y
    by_cases heq : a = b
    · simp only [Memory.forget, heq, if_true] at h
      simp [h]
    · simp only [Memory.forget, heq, if_false, List.mem_cons] at h
      rcases h with h | h
      · simp [h]
      · simp [ih h]

theorem Memory.wf_write {m : Memory} (hm : m.wf) {a : Nat} (ha : a < 256) (v : Byte) :
    Memory.wf (m.write a v) := by
  refine ⟨?_, fun x hx => ?_⟩
  · have hs := hm.1
    clear hm
    induction m with
    | nil => simp [Memory.write]
    | cons y rest ih =>
      obtain ⟨b, w⟩ := y
      have hp := List.pairwise_cons.mp hs
      by_cases hlt : a < b
      · simp only [Memory.write, hlt, if_true]
        refine List.pairwise_cons.mpr ⟨fun z hz => ?_, hs⟩
        rcases List.mem_cons.mp hz with rfl | hz
        · exact hlt
        · exact Nat.lt_trans hlt (hp.1 z hz)
      · by_cases heq : a = b
        · subst heq
          simp only [Memory.write, Nat.lt_irrefl, if_false, if_true]
          exact List.pairwise_cons.mpr ⟨hp.1, hp.2⟩
        · simp only [Memory.write, hlt, heq, if_false]
          refine List.pairwise_cons.mpr ⟨fun z hz => ?_, ih hp.2⟩
          rcases Memory.mem_write hz with rfl | hz
          · exact show b < a by omega
          · exact hp.1 z hz
  · rcases Memory.mem_write hx with rfl | hx
    · exact ha
    · exact hm.2 x hx

theorem Memory.wf_forget {m : Memory} (hm : m.wf) (a : Nat) : Memory.wf (m.forget a) := by
  refine ⟨?_, fun x hx => hm.2 x (Memory.mem_forget hx)⟩
  have hs := hm.1
  clear hm
  induction m with
  | nil => exact hs
  | cons y rest ih =>
    obtain ⟨b, w⟩ := y
    have hp := List.pairwise_cons.mp hs
    by_cases heq : a = b
    · simpa [Memory.forget, heq] using hp.2
    · simp only [Memory.forget, heq, if_false]
      exact List.pairwise_cons.mpr ⟨fun z hz => hp.1 z (Memory.mem_forget hz), ih hp.2⟩

theorem Memory.wf_writeMany {m : Memory} (hm : m.wf) {a : Nat} {vs : List Byte}
    (h : a + vs.length ≤ 256) : Memory.wf (m.writeMany a vs) := by
  induction vs generalizing m a with
  | nil => exact hm
  | cons v vs ih =>
    simp only [List.length_cons] at h
    exact ih (Memory.wf_write hm (by omega) v) (by omega)

theorem Memory.wf_forgetMany {m : Memory} (hm : m.wf) (a n : Nat) :
    Memory.wf (m.forgetMany a n) := by
  induction n generalizing m a with
  | zero => exact hm
  | succ n ih => exact ih (Memory.wf_forget hm a) (a + 1)

/-- Every transaction keeps the image canonical. -/
theorem Memory.wf_apply {m : Memory} (hm : m.wf) (x : Transaction) : Memory.wf (m.apply x) := by
  obtain ⟨r, y⟩ := x
  cases r with
  | probe => exact hm
  | readByte r => exact hm
  | writeByte r v =>
    cases y with
    | err => exact Memory.wf_forget hm _
    | ok => exact Memory.wf_write hm r.isLt v
    | byte u => exact Memory.wf_write hm r.isLt v
  | writeBurst r bytes =>
    by_cases h : r.toNat + bytes.length ≤ 256
    · cases y with
      | err => simpa [Memory.apply, h] using Memory.wf_forgetMany hm _ _
      | ok => simpa [Memory.apply, h] using Memory.wf_writeMany hm h
      | byte u => simpa [Memory.apply, h] using Memory.wf_writeMany hm h
    · simp [Memory.apply, h, Memory.wf]

theorem Memory.wf_replay {m : Memory} (hm : m.wf) (xs : List Transaction) : Memory.wf (m.replay xs) := by
  induction xs generalizing m with
  | nil => exact hm
  | cons x xs ih => exact ih (Memory.wf_apply hm x)

@[simp] theorem Memory.replay_nil (m : Memory) : m.replay [] = m := rfl

@[simp] theorem Memory.replay_cons (m : Memory) (x : Transaction) (xs : List Transaction) :
    m.replay (x :: xs) = (m.apply x).replay xs := rfl

theorem Memory.replay_append (m : Memory) (xs ys : List Transaction) :
    m.replay (xs ++ ys) = (m.replay xs).replay ys := List.foldl_append

theorem Memory.read_writeMany_of_outside (m : Memory) {a n : Nat} {vs : List Byte}
    (h : n < a ∨ a + vs.length ≤ n) : (m.writeMany a vs).read n = m.read n := by
  induction vs generalizing m a with
  | nil => rfl
  | cons v vs ih =>
    simp only [List.length_cons] at h
    rw [Memory.writeMany, ih _ (by omega), Memory.read_write_of_ne _ _ (by omega)]

theorem Memory.read_writeMany_of_inside (m : Memory) (a : Nat) {vs : List Byte} {k : Nat}
    (h : k < vs.length) : (m.writeMany a vs).read (a + k) = some vs[k] := by
  induction vs generalizing m a k with
  | nil => simp at h
  | cons v vs ih =>
    cases k with
    | zero =>
      rw [Memory.writeMany, Memory.read_writeMany_of_outside _ (by omega)]
      exact Memory.read_write_self _ _ _
    | succ k =>
      have h' : k < vs.length := by simpa using h
      have e : a + (k + 1) = a + 1 + k := by omega
      rw [Memory.writeMany, e, ih _ _ h']
      simp

theorem Memory.read_forgetMany_of_outside (m : Memory) {a n k : Nat} (h : n < a ∨ a + k ≤ n) :
    (m.forgetMany a k).read n = m.read n := by
  induction k generalizing m a with
  | zero => rfl
  | succ k ih =>
    rw [Memory.forgetMany, ih _ (by omega), Memory.read_forget_of_ne _ (by omega)]

theorem Memory.read_forgetMany_of_inside {m : Memory} (hm : m.wf) (a : Nat) {n k : Nat} (h : k < n) :
    (m.forgetMany a n).read (a + k) = none := by
  induction n generalizing m a k with
  | zero => omega
  | succ n ih =>
    cases k with
    | zero =>
      rw [Memory.forgetMany, Memory.read_forgetMany_of_outside _ (by omega)]
      exact Memory.read_forget_self hm a
    | succ k =>
      have e : a + (k + 1) = a + 1 + k := by omega
      rw [Memory.forgetMany, e]
      exact ih (Memory.wf_forget hm a) (a + 1) (by omega)

end Sys2Proof.Machine
end

