-- ==== Sys2Proof/Laws/Transport.lean ====
section
/-! SUPPORT. What one transaction, one attempt and one response can do, said once in terms of
`State.ends`, so that a proof about a command never unfolds them. -/

namespace Sys2Proof.Machine

theorem State.ext_fields {s t : State} (h1 : s.st = t.st) (h2 : s.params = t.params)
    (h3 : s.chip = t.chip) (h4 : s.commands = t.commands) (h5 : s.answers = t.answers)
    (h6 : s.draws = t.draws) (h7 : s.trace = t.trace) (h8 : s.responses = t.responses) : s = t := by
  cases s; cases t
  simp only at h1 h2 h3 h4 h5 h6 h7 h8
  subst h1 h2 h3 h4 h5 h6 h7 h8
  rfl

/-- The answers to come depend on the lists of answers and the counter alone. -/
theorem State.nextAnswer_congr {s t : State} (h5 : s.answers = t.answers) (h6 : s.draws = t.draws) :
    s.nextAnswer = t.nextAnswer := by
  unfold State.nextAnswer
  rw [h5, h6]

theorem State.dropAnswer_answers_congr {s t : State} (h5 : s.answers = t.answers) :
    s.dropAnswer.answers = t.dropAnswer.answers := by
  simp only [State.dropAnswer, h5]
  cases t.answers <;> simp

theorem State.dropAnswer_draws_congr {s t : State} (h5 : s.answers = t.answers)
    (h6 : s.draws = t.draws) : s.dropAnswer.draws = t.dropAnswer.draws := by
  simp only [State.dropAnswer, h5]
  cases t.answers <;> simp [h6]

theorem State.upcoming_congr {s t : State} (h5 : s.answers = t.answers) (h6 : s.draws = t.draws)
    (k : Nat) : s.upcoming k = t.upcoming k := by
  induction k generalizing s t with
  | zero => exact State.nextAnswer_congr h5 h6
  | succ k ih => exact ih (State.dropAnswer_answers_congr h5) (State.dropAnswer_draws_congr h5 h6)

theorem State.answered_congr {s t : State} (h5 : s.answers = t.answers) (h6 : s.draws = t.draws)
    (rs : List Request) : s.answered rs = t.answered rs := by
  induction rs generalizing s t with
  | nil => rfl
  | cons r rs ih =>
    simp only [State.answered, State.transaction, State.nextAnswer_congr h5 h6,
      ih (State.dropAnswer_answers_congr h5) (State.dropAnswer_draws_congr h5 h6)]

theorem State.dropAnswers_answers_congr {s t : State} (h5 : s.answers = t.answers) (n : Nat) :
    (s.dropAnswers n).answers = (t.dropAnswers n).answers := by
  induction n generalizing s t with
  | zero => exact h5
  | succ n ih => exact ih (State.dropAnswer_answers_congr h5)

theorem State.dropAnswers_draws_congr {s t : State} (h5 : s.answers = t.answers)
    (h6 : s.draws = t.draws) (n : Nat) : (s.dropAnswers n).draws = (t.dropAnswers n).draws := by
  induction n generalizing s t with
  | zero => exact h6
  | succ n ih => exact ih (State.dropAnswer_answers_congr h5) (State.dropAnswer_draws_congr h5 h6)

@[simp] theorem State.upcoming_transact (s : State) (r : Request) (k : Nat) :
    (s.transact r).upcoming k = s.upcoming (k + 1) :=
  State.upcoming_congr (s := s.transact r) (t := s.dropAnswer) rfl rfl k

@[simp] theorem State.length_answered (s : State) (rs : List Request) :
    (s.answered rs).length = rs.length := by
  induction rs generalizing s with
  | nil => rfl
  | cons r rs ih => simp [State.answered, ih]

/-- The j-th transaction is the j-th request with the j-th answer to come. -/
theorem State.getElem_answered (s : State) (rs : List Request) (j : Nat) (h : j < rs.length)
    (h' : j < (s.answered rs).length) :
    (s.answered rs)[j] = ⟨rs[j], rs[j].reply (s.upcoming j)⟩ := by
  induction rs generalizing s j with
  | nil => simp at h
  | cons r rs ih =>
    cases j with
    | zero => rfl
    | succ j =>
      have hj : j < rs.length := by simpa using h
      simpa [State.answered] using ih s.dropAnswer j hj (by simpa using hj)

/-- Every transaction of `answered` is a request with one of the answers to come. -/
theorem State.mem_answered {s : State} {rs : List Request} {x : Transaction}
    (h : x ∈ s.answered rs) :
    ∃ (j : Nat) (hj : j < rs.length), x = ⟨rs[j], rs[j].reply (s.upcoming j)⟩ := by
  obtain ⟨j, hj, rfl⟩ := List.getElem_of_mem h
  have hj' : j < rs.length := by simpa using hj
  exact ⟨j, hj', s.getElem_answered rs j hj' hj⟩

theorem Request.reply_eq_err_iff (r : Request) (x : Answer) : r.reply x = .err ↔ x.ok = false := by
  cases h : x.ok <;> cases r <;> simp [Request.reply, h]

theorem Request.reply_of_err {r : Request} {x : Answer} (h : x.ok = false) : r.reply x = .err :=
  (r.reply_eq_err_iff x).mpr h

/-- Two states that differ only in `st` end alike. -/
theorem State.ends_congr {s t : State} (h2 : s.params = t.params) (h3 : s.chip = t.chip)
    (h4 : s.commands = t.commands) (h5 : s.answers = t.answers) (h6 : s.draws = t.draws)
    (h7 : s.trace = t.trace) (h8 : s.responses = t.responses) (reqs : List Request) (resp : Response)
    (d : Device) : s.ends reqs resp d = t.ends reqs resp d := by
  apply State.ext_fields
  · rfl
  · simp [State.ends, h2]
  · simp [State.ends, h3, State.answered_congr h5 h6]
  · simp [State.ends, h4]
  · exact State.dropAnswers_answers_congr h5 _
  · exact State.dropAnswers_draws_congr h5 h6 _
  · simp [State.ends, h7, State.answered_congr h5 h6]
  · simp [State.ends, h8]

section Ends
variable (s : State) (reqs : List Request) (resp : Response) (d : Device)
@[simp] theorem State.ends_st : (s.ends reqs resp d).st = d := rfl
@[simp] theorem State.ends_params : (s.ends reqs resp d).params = s.params := by simp [State.ends]
@[simp] theorem State.ends_chip : (s.ends reqs resp d).chip = s.chip.replay (s.answered reqs) := rfl
@[simp] theorem State.ends_commands : (s.ends reqs resp d).commands = s.commands := by
  simp [State.ends]
@[simp] theorem State.ends_answers :
    (s.ends reqs resp d).answers = (s.dropAnswers reqs.length).answers := rfl
@[simp] theorem State.ends_draws :
    (s.ends reqs resp d).draws = (s.dropAnswers reqs.length).draws := rfl
@[simp] theorem State.ends_trace : (s.ends reqs resp d).trace = s.trace ++ s.answered reqs := rfl
@[simp] theorem State.ends_responses : (s.ends reqs resp d).responses = s.responses ++ [resp] := rfl
@[simp] theorem State.ends_lastStatus : (s.ends reqs resp d).lastStatus = some resp.status := by
  simp [State.lastStatus]
@[simp] theorem newTrace_ends : newTrace s (s.ends reqs resp d) = s.answered reqs := by
  simp [newTrace]
end Ends

/-- A command that ends after transaction `r` has `r` first among its requests. -/
@[simp] theorem State.transact_ends (s : State) (r : Request) (reqs : List Request) (resp : Response)
    (d : Device) : (s.transact r).ends reqs resp d = s.ends (r :: reqs) resp d := by
  apply State.ext_fields
  · rfl
  · simp [State.ends]
  · simp only [State.ends, State.answered, Memory.replay_cons, State.transact_chip]
    rw [State.answered_congr (s := s.transact r) (t := s.dropAnswer) rfl rfl]
  · simp [State.ends]
  · simp [State.ends, State.dropAnswers_answers_congr (s := s.transact r) (t := s.dropAnswer) rfl]
  · simp [State.ends, State.dropAnswers_draws_congr (s := s.transact r) (t := s.dropAnswer) rfl rfl]
  · simp only [State.ends, State.answered, State.transact_trace]
    rw [State.answered_congr (s := s.transact r) (t := s.dropAnswer) rfl rfl]
    simp
  · simp [State.ends]

/-- `raise` ends the command with no further request and `st` as it is (R82). -/
theorem raise_eq_ends (e : Status) (resp : Response) (s : State) :
    raise e resp s = s.ends [] { resp with status := e } s.st := by
  apply State.ext_fields <;> simp [State.ends, State.answered]

/-- `respond` ends the command with no further request. -/
theorem respond_eq_ends (resp : Response) (s : State) : respond resp s = s.ends [] resp s.st := by
  apply State.ext_fields <;> simp [State.ends, State.answered]

theorem respond_recordPll (resp : Response) (p : PllId) (a b c : Nat) (s : State) :
    respond resp (recordPll p a b c s) = s.ends [] resp (recordPll p a b c s).st := by
  apply State.ext_fields <;> simp [State.ends, State.answered]

theorem respond_recordRDivider (resp : Response) (ch : Channel) (e : RdivExp) (s : State) :
    respond resp (recordRDivider ch e s) = s.ends [] resp (recordRDivider ch e s).st := by
  apply State.ext_fields <;> simp [State.ends, State.answered]

theorem respond_markInitialised (resp : Response) (x : BitVec 32) (s : State) :
    respond resp (markInitialised x s) = s.ends [] resp (markInitialised x s).st := by
  apply State.ext_fields <;> simp [State.ends, State.answered]

theorem resetDevice_ends (s : State) (reqs : List Request) (resp : Response) (d : Device) :
    (resetDevice s).ends reqs resp d = s.ends reqs resp d :=
  State.ends_congr (s := resetDevice s) (t := s) rfl rfl rfl rfl rfl rfl rfl reqs resp d

/-- An attempt goes on exactly when its answer is `ok` (R11). -/
theorem attempt_of_ok {e : Status} {r : Request} {resp : Response} {s : State}
    {k : Byte → State → State} (h : (s.upcoming 0).ok = true) :
    attempt e r resp s k = k (s.upcoming 0).byte (s.transact r) := by simp [attempt, h]

/-- An attempt whose answer is `err` ends the command after that transaction (R82). -/
theorem attempt_of_err {e : Status} {r : Request} {resp : Response} {s : State}
    {k : Byte → State → State} (h : (s.upcoming 0).ok = false) :
    attempt e r resp s k = s.ends [r] { resp with status := e } s.st := by
  simp [attempt, h, raise_eq_ends]

/-- What one attempt can do: go on after a transaction that answered `ok`, or end the command after one
that answered `err`. -/
theorem attempt_cases (e : Status) (r : Request) (resp : Response) (s : State)
    (k : Byte → State → State) :
    ((s.upcoming 0).ok = true ∧ attempt e r resp s k = k (s.upcoming 0).byte (s.transact r)) ∨
    ((s.upcoming 0).ok = false ∧
      attempt e r resp s k = s.ends [r] { resp with status := e } s.st) := by
  cases h : (s.upcoming 0).ok
  · exact .inr ⟨rfl, attempt_of_err h⟩
  · exact .inl ⟨rfl, attempt_of_ok h⟩

theorem requireInitialised_of_initialised {s k : State} (h : s.st.initialised = true) :
    requireInitialised s k = k := by simp [requireInitialised, h]

theorem requireInitialised_of_not {s k : State} (h : s.st.initialised = false) :
    requireInitialised s k =
      s.ends [] { Response.blank with status := .deviceNotInitialised } s.st := by
  simp [requireInitialised, h, raise_eq_ends]

theorem requireConfigured_of_configured {p : PllId} {s k : State} (h : s.st.pllCfg.get p = true) :
    requireConfigured p s k = k := by simp [requireConfigured, h]

theorem requireConfigured_of_not {p : PllId} {s k : State} (h : s.st.pllCfg.get p = false) :
    requireConfigured p s k = s.ends [] { Response.blank with status := .invalidParameter } s.st := by
  simp [requireConfigured, h, raise_eq_ends]

theorem requireFoutInRange_of_rejected {f : Nat} {s k : State} (h : FoutRejected s f) :
    requireFoutInRange f s k =
      s.ends [] { Response.blank with status := .invalidParameter } s.st := by
  obtain ⟨h1, h2⟩ := h
  simp [requireFoutInRange, h1, h2, raise_eq_ends]

theorem requireFoutInRange_of_not {f : Nat} {s k : State} (h : ¬ FoutRejected s f) :
    requireFoutInRange f s k = k := by
  simp only [FoutRejected, not_and, not_or] at h
  simp only [requireFoutInRange, Bool.and_eq_true, Bool.or_eq_true, decide_eq_true_eq]
  split
  · next h' => exact absurd h'.2 (by have := h h'.1; omega)
  · rfl

end Sys2Proof.Machine
end

