-- ==== Sys2Proof/Laws/Operands.lean ====
section
/-! SUPPORT. The operand checks as the propositions the claims use, and the channel field. -/

namespace Sys2Proof.Machine

@[simp] theorem fracInRange_iff (b c : Operand) : fracInRange b c = true ↔ FracInRange b c := by
  simp only [fracInRange, Bool.and_eq_true, decide_eq_true_eq]
  simp only [fracMax, FracInRange]
  omega

@[simp] theorem pllOperandsInRange_iff (a b c : Operand) :
    pllOperandsInRange a b c = true ↔ PllInRange a b c := by
  simp only [pllOperandsInRange, Bool.and_eq_true, decide_eq_true_eq, fracInRange_iff]
  simp only [pllMultMin, pllMultMax, PllInRange, and_assoc]

@[simp] theorem msOperandsInRange_iff (a b c : Operand) :
    msOperandsInRange a b c = true ↔ MsInRange a b c := by
  simp only [msOperandsInRange, Bool.and_eq_true, decide_eq_true_eq, fracInRange_iff]
  simp only [msDivMin, msDivMax, MsInRange, and_assoc]

@[simp] theorem msIntDivInRange_iff (a : Operand) :
    msIntDivInRange a = true ↔ a.toNat = 4 ∨ a.toNat = 6 ∨ a.toNat = 8 := by
  simp [msIntDivInRange, msIntDivs]

@[simp] theorem channelOf_number (c : Channel) : channelOf c.number = some c := by cases c <;> rfl

theorem channelOf_eq_some {ch : Byte} {c : Channel} (h : channelOf ch = some c) : ch = c.number := by
  unfold channelOf at h
  split at h
  · next h0 => cases h; exact BitVec.eq_of_toNat_eq h0
  · next h1 => cases h; exact BitVec.eq_of_toNat_eq h1
  · next h2 => cases h; exact BitVec.eq_of_toNat_eq h2
  · cases h

theorem channelOf_eq_none_iff (ch : Byte) : channelOf ch = none ↔ 2 < ch.toNat := by
  unfold channelOf
  split
  · next h => simp [h]
  · next h => simp [h]
  · next h => simp [h]
  · next h0 h1 h2 =>
    simp only [true_iff]
    have e0 : ch.toNat ≠ 0 := h0
    have e1 : ch.toNat ≠ 1 := h1
    have e2 : ch.toNat ≠ 2 := h2
    omega

end Sys2Proof.Machine
end

