-- ==== Sys2Proof/Laws/Encoding.lean ====
section
/-! SUPPORT. The fields of a command word and of the small encodings, there and back. -/

namespace Sys2Proof

@[simp] theorem pllOfBit_bitOfPll (p : PllId) : pllOfBit (bitOfPll p) = p := by cases p <;> rfl

@[simp] theorem kindOfBit_bitOfKind (k : BlockKind) : kindOfBit (bitOfKind k) = k := by cases k <;> rfl

theorem bitOfPll_pllOfBit (v : BitVec 1) : bitOfPll (pllOfBit v) = v := by
  revert v; decide

theorem bitOfKind_kindOfBit (v : BitVec 1) : bitOfKind (kindOfBit v) = v := by
  revert v; decide

/-- A slice of a concatenation that lies in its low part. -/
theorem slice_low {v w k n : Nat} {x : BitVec v} {y : BitVec w} (h : k + n ≤ w) :
    (x ++ y).extractLsb' k n = y.extractLsb' k n := BitVec.extractLsb'_append_eq_of_add_le h

/-- A slice of a concatenation that lies in its high part. -/
theorem slice_high {v w k n : Nat} {x : BitVec v} {y : BitVec w} (h : w ≤ k) :
    (x ++ y).extractLsb' k n = x.extractLsb' (k - w) n := BitVec.extractLsb'_append_eq_of_le h

/-- The slice that is the whole. -/
theorem slice_whole {w : Nat} {x : BitVec w} : x.extractLsb' 0 w = x := BitVec.extractLsb'_eq_self

/-- The control word lies in the low 32 bits of the command word (R40). -/
theorem Command.slice_control (c : Command) {k n : Nat} (h : k + n ≤ 32) :
    c.toWord.extractLsb' k n = c.control.extractLsb' k n := slice_low h

/-- Reading the fields back from a command word (R40). -/
@[simp] theorem Command.ofWord_toWord (c : Command) : Command.ofWord c.toWord = c := by
  have low {k n : Nat} (h : k + n ≤ 32) := c.slice_control h
  cases c with
  | mk op pll kind rl ch e rh a b d =>
  rw [Command.ofWord, Command.mk.injEq]
  refine ⟨(low (by decide)).trans ?_, (low (by decide)).trans ?_, (low (by decide)).trans ?_,
    (low (by decide)).trans ?_, (low (by decide)).trans ?_, (low (by decide)).trans ?_,
    (low (by decide)).trans ?_, ?_, ?_, ?_⟩
  · exact (slice_low (by decide)).trans slice_whole
  · exact (slice_high (by decide)).trans <| (slice_low (by decide)).trans slice_whole
  · exact (slice_high (by decide)).trans <| (slice_high (by decide)).trans <|
      (slice_low (by decide)).trans slice_whole
  · exact (slice_high (by decide)).trans <| (slice_high (by decide)).trans <|
      (slice_high (by decide)).trans <| (slice_low (by decide)).trans slice_whole
  · exact (slice_high (by decide)).trans <| (slice_high (by decide)).trans <|
      (slice_high (by decide)).trans <| (slice_high (by decide)).trans <|
      (slice_low (by decide)).trans slice_whole
  · exact (slice_high (by decide)).trans <| (slice_high (by decide)).trans <|
      (slice_high (by decide)).trans <| (slice_high (by decide)).trans <|
      (slice_high (by decide)).trans <| (slice_low (by decide)).trans slice_whole
  · exact (slice_high (by decide)).trans <| (slice_high (by decide)).trans <|
      (slice_high (by decide)).trans <| (slice_high (by decide)).trans <|
      (slice_high (by decide)).trans <| (slice_high (by decide)).trans slice_whole
  · exact (slice_high (by decide)).trans <| (slice_low (by decide)).trans slice_whole
  · exact (slice_high (by decide)).trans <| (slice_high (by decide)).trans <|
      (slice_low (by decide)).trans slice_whole
  · exact (slice_high (by decide)).trans <| (slice_high (by decide)).trans <|
      (slice_high (by decide)).trans slice_whole

end Sys2Proof
end

