-- ==== Sys2Proof/Laws/Commands.lean ====
section
/-! SUPPORT. What the shared operations of the device commands can do, each said once: a proof about
SETUP_PLL, SETUP_PLL_INT, SETUP_MS or SETUP_MS_INT starts from one of these case lists. -/

namespace Sys2Proof.Machine

theorem pllBase_eq (p : PllId) : pllBase p = if p = .a then 26 else 34 := by cases p <;> rfl
theorem msBase_eq (c : Channel) : msBase c = 42 + 8 * c.number := by cases c <;> rfl
theorem clkctlReg_eq (c : Channel) : clkctlReg c = 16 + c.number := by cases c <;> rfl
theorem param3Reg_eq (c : Channel) : param3Reg c = 44 + 8 * c.number := by cases c <;> rfl

/-- The two requests of SETUP_PLL (R70). -/
def setupPllRequests (p : PllId) (a b c : Operand) : List Request :=
  [.writeBurst (pllBase p) (setupPllResponse p a b c).data.toList, .writeByte resetReg pllResetByte]

/-- Everything `setupPll` can do (R70). -/
theorem setupPll_cases (p : PllId) (a b c : Operand) (s : State) :
    (s.st.initialised = false ∧ setupPll p a b c s =
      s.ends [] { Response.blank with status := .deviceNotInitialised } s.st) ∨
    (s.st.initialised = true ∧ ¬ PllInRange a b c ∧ setupPll p a b c s =
      s.ends [] { Response.blank with status := .invalidParameter } s.st) ∨
    (s.st.initialised = true ∧ PllInRange a b c ∧ (s.upcoming 0).ok = false ∧
      setupPll p a b c s = s.ends ((setupPllRequests p a b c).take 1)
        { setupPllResponse p a b c with status := .transportError } s.st) ∨
    (s.st.initialised = true ∧ PllInRange a b c ∧ (s.upcoming 0).ok = true ∧
      (s.upcoming 1).ok = false ∧ setupPll p a b c s = s.ends (setupPllRequests p a b c)
        { setupPllResponse p a b c with status := .transportError } s.st) ∨
    (s.st.initialised = true ∧ PllInRange a b c ∧ (s.upcoming 0).ok = true ∧
      (s.upcoming 1).ok = true ∧ setupPll p a b c s = s.ends (setupPllRequests p a b c)
        { setupPllResponse p a b c with
          freq := BitVec.ofNat 64 (pllHzOf s.st.xtalHz.toNat a.toNat b.toNat c.toNat) }
        (recordPll p a.toNat b.toNat c.toNat s).st) := by
  cases hi : s.st.initialised with
  | false => exact .inl ⟨rfl, requireInitialised_of_not hi⟩
  | true =>
    refine .inr ?_
    unfold setupPll
    rw [requireInitialised_of_initialised hi]
    by_cases hr : PllInRange a b c
    · refine .inr ?_
      rw [if_pos ((pllOperandsInRange_iff a b c).mpr hr)]
      rcases attempt_cases .transportError (.writeBurst (pllBase p) (setupPllResponse p a b c).data.toList)
          (setupPllResponse p a b c) s _ with ⟨h0, e0⟩ | ⟨h0, e0⟩
      · rcases attempt_cases .transportError (.writeByte resetReg pllResetByte)
            (setupPllResponse p a b c)
            (s.transact (.writeBurst (pllBase p) (setupPllResponse p a b c).data.toList)) _ with
          ⟨h1, e1⟩ | ⟨h1, e1⟩
        · refine .inr (.inr ⟨rfl, hr, h0, by simpa using h1, (e0.trans e1).trans ?_⟩)
          simp only [respond_recordPll, State.transact_ends]
          simp [recordPll, setupPllRequests]
        · refine .inr (.inl ⟨rfl, hr, h0, by simpa using h1, (e0.trans e1).trans ?_⟩)
          simp [setupPllRequests]
      · exact .inl ⟨rfl, hr, h0, e0⟩
    · refine .inl ⟨rfl, hr, ?_⟩
      rw [if_neg (mt (pllOperandsInRange_iff a b c).mp hr), raise_eq_ends]

/-- The two requests of SETUP_MS (R72). -/
def setupMsRequests (c : Channel) (p : PllId) (a b d : Operand) (s : State) : List Request :=
  [.writeBurst (msBase c) (setupMsResponse c p a b d s).data.toList,
   .writeByte (clkctlReg c) (clkctlByte s.params.clkctlLow p b)]

/-- Everything `setupMs` can do (R72). -/
theorem setupMs_cases (ch : Byte) (p : PllId) (a b d : Operand) (s : State) :
    (s.st.initialised = false ∧ setupMs ch p a b d s =
      s.ends [] { Response.blank with status := .deviceNotInitialised } s.st) ∨
    (s.st.initialised = true ∧ InvalidCause (.setupMs ch p a b d) s ∧ setupMs ch p a b d s =
      s.ends [] { Response.blank with status := .invalidParameter } s.st) ∨
    (s.st.initialised = true ∧ ¬ InvalidCause (.setupMs ch p a b d) s ∧
      MsInRange a b d ∧ s.st.pllCfg.get p = true ∧ ∃ c : Channel, ch = c.number ∧
      (((s.upcoming 0).ok = false ∧ setupMs ch p a b d s =
          s.ends ((setupMsRequests c p a b d s).take 1)
            { setupMsResponse c p a b d s with status := .transportError } s.st) ∨
        ((s.upcoming 0).ok = true ∧ (s.upcoming 1).ok = false ∧ setupMs ch p a b d s =
          s.ends (setupMsRequests c p a b d s)
            { setupMsResponse c p a b d s with status := .transportError } s.st) ∨
        ((s.upcoming 0).ok = true ∧ (s.upcoming 1).ok = true ∧ setupMs ch p a b d s =
          s.ends (setupMsRequests c p a b d s) (setupMsResponse c p a b d s) s.st))) := by
  cases hi : s.st.initialised with
  | false => exact .inl ⟨rfl, requireInitialised_of_not hi⟩
  | true =>
    refine .inr ?_
    unfold setupMs
    rw [requireInitialised_of_initialised hi]
    cases hc : channelOf ch with
    | none => exact .inl ⟨by trivial, .inl ((channelOf_eq_none_iff ch).mp hc), raise_eq_ends _ _ s⟩
    | some c =>
      have hch : ¬ 2 < ch.toNat := fun h => by simp [(channelOf_eq_none_iff ch).mpr h] at hc
      by_cases hr : MsInRange a b d
      · simp only [if_pos ((msOperandsInRange_iff a b d).mpr hr)]
        cases hp : s.st.pllCfg.get p with
        | false => exact .inl ⟨by trivial, .inr (.inr (.inl hp)), requireConfigured_of_not hp⟩
        | true =>
          rw [requireConfigured_of_configured hp]
          by_cases hf : FoutRejected s (msOutputHz p a.toNat b.toNat d.toNat s)
          · exact .inl ⟨by trivial, .inr (.inr (.inr hf)), requireFoutInRange_of_rejected hf⟩
          · have hv : ¬ InvalidCause (.setupMs ch p a b d) s := by
              rintro (h | h | h | h)
              · exact hch h
              · exact h hr
              · simp [hp] at h
              · exact hf h
            refine .inr ⟨by trivial, hv, hr, by trivial, c, channelOf_eq_some hc, ?_⟩
            rw [requireFoutInRange_of_not hf]
            rcases attempt_cases .transportError
                (.writeBurst (msBase c) (setupMsResponse c p a b d s).data.toList)
                (setupMsResponse c p a b d s) s _ with ⟨h0, e0⟩ | ⟨h0, e0⟩
            · rcases attempt_cases .transportError
                  (.writeByte (clkctlReg c) (clkctlByte s.params.clkctlLow p b))
                  (setupMsResponse c p a b d s)
                  (s.transact (.writeBurst (msBase c) (setupMsResponse c p a b d s).data.toList)) _ with
                ⟨h1, e1⟩ | ⟨h1, e1⟩
              · refine .inr (.inr ⟨h0, by simpa using h1, (e0.trans e1).trans ?_⟩)
                simp [respond_eq_ends, setupMsRequests]
              · refine .inr (.inl ⟨h0, by simpa using h1, (e0.trans e1).trans ?_⟩)
                simp [setupMsRequests]
            · exact .inl ⟨h0, e0⟩
      · simp only [if_neg (mt (msOperandsInRange_iff a b d).mp hr)]
        exact .inl ⟨by trivial, .inr (.inl hr), raise_eq_ends _ _ s⟩

/-- SETUP_MS_INT with one of its three dividers is SETUP_MS with b = 0 and c = 1 (R73). -/
theorem execSetupMsInt_of_div {ch : Byte} {p : PllId} {a : Operand} {s : State}
    (h : a.toNat = 4 ∨ a.toNat = 6 ∨ a.toNat = 8) :
    execSetupMsInt ch p a s = .next (setupMs ch p a 0 1 s) := by
  have ha : msIntDivInRange a = true := (msIntDivInRange_iff a).mpr h
  cases hi : s.st.initialised with
  | false =>
    unfold execSetupMsInt setupMs
    rw [requireInitialised_of_not hi, requireInitialised_of_not hi]
  | true =>
    unfold execSetupMsInt
    rw [requireInitialised_of_initialised hi, if_pos ha]

/-- Everything a row of byte writes can do: all answer `ok`, or the j-th is the first that does not. -/
theorem tryWriteEach_cases (regs : List Reg) (v : Byte) (resp : Response) (s : State)
    (k : State → State) :
    ((∀ j, j < regs.length → (s.upcoming j).ok = true) ∧
      tryWriteEach regs v resp s k =
        k ((regs.map fun r => Request.writeByte r v).foldl State.transact s)) ∨
    (∃ j, j < regs.length ∧ (∀ i, i < j → (s.upcoming i).ok = true) ∧ (s.upcoming j).ok = false ∧
      tryWriteEach regs v resp s k =
        s.ends ((regs.map fun r => Request.writeByte r v).take (j + 1))
          { resp with status := .transportError } s.st) := by
  induction regs generalizing s with
  | nil => exact .inl ⟨fun j hj => absurd hj (Nat.not_lt_zero j), rfl⟩
  | cons r regs ih =>
    rcases attempt_cases .transportError (.writeByte r v) resp s
        (fun _ s' => tryWriteEach regs v resp s' k) with ⟨h0, e0⟩ | ⟨h0, e0⟩
    · rcases ih (s.transact (.writeByte r v)) with ⟨hall, e⟩ | ⟨j, hj, hbefore, hat, e⟩
      · refine .inl ⟨fun j hj => ?_, e0.trans e⟩
        cases j with
        | zero => exact h0
        | succ j => simpa using hall j (by simpa using hj)
      · refine .inr ⟨j + 1, by simpa using hj, fun i hi => ?_, by simpa using hat, ?_⟩
        · cases i with
          | zero => exact h0
          | succ i => simpa using hbefore i (by omega)
        · rw [List.map_cons, List.take_succ_cons, ← State.transact_ends]
          exact e0.trans (by simpa using e)
    · exact .inr ⟨0, by simp, fun i hi => absurd hi (Nat.not_lt_zero i), h0, e0⟩

end Sys2Proof.Machine
end

