-- ==== Sys2Proof/Laws/Exec.lean ====
section
/-! SUPPORT. What executing a command can do, said once: `exec_inversion`. Invariants and whole-machine
rules are read off it without unfolding a meaning again. -/

namespace Sys2Proof.Machine

/-- Everything INIT can do (R69): all thirteen transactions answer `ok`, or the k-th is the first that
does not. -/
theorem execInit_cases (f : Operand) (load : Byte) (s : State) :
    ((∀ k, k < 13 → (s.upcoming k).ok = true) ∧ execInit f load s =
      .next (s.ends (initRequests s.params.initPdnByte load (s.upcoming 11).byte) Response.blank
        ⟨true, f, ⟨false, false⟩, ⟨0, 0⟩, ⟨0, 0, 0⟩⟩)) ∨
    (∃ k, k < 13 ∧ (∀ j, j < k → (s.upcoming j).ok = true) ∧ (s.upcoming k).ok = false ∧
      execInit f load s =
        .next (s.ends ((initRequests s.params.initPdnByte load (s.upcoming 11).byte).take (k + 1))
          { Response.blank with status := if k = 0 then .deviceNotFound else .transportError }
          Device.powerOn)) := by
  have ups : ∀ k, s.upcoming k = (resetDevice s).upcoming k := fun k => (State.upcoming_congr (s := resetDevice s) (t := s) rfl rfl k).symm
  have fin : ∀ r rp d, s.ends r rp d = (resetDevice s).ends r rp d := fun r rp d => (resetDevice_ends s r rp d).symm
  simp only [ups, fin]
  unfold execInit
  have hst : (resetDevice s).st = Device.powerOn := rfl
  generalize hpdn : s.params.initPdnByte = pdn
  clear ups fin
  generalize resetDevice s = s0 at *
  rcases attempt_cases .deviceNotFound .probe Response.blank s0 (fun _ s1 =>
    tryWrite oeReg oeAllDisabled Response.blank s1 fun s2 =>
    tryWriteEach clkctlRegs pdn Response.blank s2 fun s3 =>
    tryWrite loadcapReg load Response.blank s3 fun s4 =>
    tryRead ssReg Response.blank s4 fun v s5 =>
    tryWrite ssReg (v &&& ssDisableMask) Response.blank s5 fun s6 =>
    respond Response.blank (markInitialised f s6)) with ⟨h0, e0⟩ | ⟨h0, e0⟩
  swap
  · exact .inr ⟨0, by decide, fun j hj => absurd hj (Nat.not_lt_zero j), h0, congrArg _ (e0.trans (by rw [hst]; rfl))⟩
  rw [e0]; clear e0
  generalize hs1 : s0.transact .probe = s1
  have u1 : ∀ k, s0.upcoming (k+1) = s1.upcoming k := fun k => by rw [← hs1]; simp
  have d1 : ∀ r rp d, s1.ends r rp d = s0.ends (.probe :: r) rp d := fun r rp d => by rw [← hs1]; simp
  have st1 : s1.st = Device.powerOn := by rw [← hs1]; simpa using hst
  rcases attempt_cases .transportError (.writeByte oeReg oeAllDisabled) Response.blank s1 (fun _ s2 =>
    tryWriteEach clkctlRegs pdn Response.blank s2 fun s3 =>
    tryWrite loadcapReg load Response.blank s3 fun s4 =>
    tryRead ssReg Response.blank s4 fun v s5 =>
    tryWrite ssReg (v &&& ssDisableMask) Response.blank s5 fun s6 =>
    respond Response.blank (markInitialised f s6)) with ⟨h1, e1⟩ | ⟨h1, e1⟩
  swap
  · refine .inr ⟨1, by decide, fun j hj => ?_, (congrArg Answer.ok (u1 0)).trans h1, congrArg _ (e1.trans ?_)⟩
    · obtain rfl : j = 0 := by omega
      exact h0
    · rw [d1, st1]; rfl
  change _ ∧ Host.Outcome.next (attempt _ _ _ _ _) = _ ∨ ∃ k, _ ∧ _ ∧ _ ∧ Host.Outcome.next (attempt _ _ _ _ _) = _
  rw [e1]; clear e1
  generalize hs2 : s1.transact _ = s2
  have u2 : ∀ k, s1.upcoming (k+1) = s2.upcoming k := fun k => by rw [← hs2]; simp
  have d2 : ∀ r rp d, s2.ends r rp d = s0.ends (.probe :: .writeByte oeReg oeAllDisabled :: r) rp d := fun r rp d => by rw [← hs2]; simp [d1]
  have st2 : s2.st = Device.powerOn := by rw [← hs2]; simpa using st1
  rcases tryWriteEach_cases clkctlRegs pdn Response.blank s2 (fun s3 =>
    tryWrite loadcapReg load Response.blank s3 fun s4 =>
    tryRead ssReg Response.blank s4 fun v s5 =>
    tryWrite ssReg (v &&& ssDisableMask) Response.blank s5 fun s6 =>
    respond Response.blank (markInitialised f s6)) with ⟨h2, e2⟩ | ⟨j, hj, hb, ha, e2⟩
  swap
  · refine .inr ⟨j + 2, ?_, fun i hi => ?_, ?_, congrArg _ (e2.trans ?_)⟩
    · have : j < 8 := hj
      omega
    · rcases i with _ | _ | i
      · exact h0
      · rw [u1]; exact h1
      · rw [u1, u2]; exact hb i (by omega)
    · rw [u1, u2]; exact ha
    · rw [d2, st2]
      have : j < 8 := hj
      have : List.take (j + 2 + 1) (initRequests pdn load (s0.upcoming 11).byte) = Request.probe :: Request.writeByte oeReg oeAllDisabled :: List.take (j + 1) (List.map (fun r => Request.writeByte r pdn) clkctlRegs) := by
        interval_cases j <;> rfl
      rw [this]
      simp
  rw [e2]; clear e2
  have len : (clkctlRegs.map fun r => Request.writeByte r pdn).length = 8 := rfl
  generalize hs3 : (clkctlRegs.map fun r => Request.writeByte r pdn).foldl State.transact s2 = s3
  have u3 : ∀ k, s2.upcoming (k+8) = s3.upcoming k := fun k => by rw [← hs3]; simp [clkctlRegs]
  have d3 : ∀ r rp d, s3.ends r rp d = s0.ends (.probe :: .writeByte oeReg oeAllDisabled :: ((clkctlRegs.map fun r => Request.writeByte r pdn) ++ r)) rp d := fun r rp d => by rw [← hs3]; simp [d2, clkctlRegs]
  have st3 : s3.st = Device.powerOn := by rw [← hs3]; simp [clkctlRegs]; exact st2
  have up : ∀ i, i < 10 → (s0.upcoming i).ok = true := by
    intro i hi
    rcases i with _ | _ | i
    · exact h0
    · rw [u1]; exact h1
    · rw [u1, u2]; exact h2 i (by show i < 8; omega)
  have u : ∀ k, s0.upcoming (k + 10) = s3.upcoming k := fun k => by rw [u1, u2, u3]
  rcases attempt_cases .transportError (.writeByte loadcapReg load) Response.blank s3 (fun _ s4 =>
    tryRead ssReg Response.blank s4 fun v s5 =>
    tryWrite ssReg (v &&& ssDisableMask) Response.blank s5 fun s6 =>
    respond Response.blank (markInitialised f s6)) with ⟨h3, e3⟩ | ⟨h3, e3⟩
  swap
  · refine .inr ⟨10, by decide, up, by rw [u 0]; exact h3, congrArg _ (e3.trans ?_)⟩
    rw [d3, st3]; rfl
  change _ ∧ Host.Outcome.next (attempt _ _ _ _ _) = _ ∨ ∃ k, _ ∧ _ ∧ _ ∧ Host.Outcome.next (attempt _ _ _ _ _) = _
  rw [e3]; clear e3
  rcases attempt_cases .transportError (.readByte ssReg) Response.blank (s3.transact (.writeByte loadcapReg load)) (fun v s5 =>
    tryWrite ssReg (v &&& ssDisableMask) Response.blank s5 fun s6 =>
    respond Response.blank (markInitialised f s6)) with ⟨h4, e4⟩ | ⟨h4, e4⟩
  swap
  · refine .inr ⟨11, by decide, fun j hj => ?_, by rw [u 1]; simpa using h4, congrArg _ (e4.trans ?_)⟩
    · rcases Nat.lt_or_ge j 10 with h | h
      · exact up j h
      · obtain rfl : j = 10 := by omega
        rw [u 0]; exact h3
    · rw [State.transact_ends, d3, State.transact_st, st3]; rfl
  change _ ∧ Host.Outcome.next (attempt _ _ _ _ _) = _ ∨ ∃ k, _ ∧ _ ∧ _ ∧ Host.Outcome.next (attempt _ _ _ _ _) = _
  rw [e4]; clear e4
  have v11 : (s0.upcoming 11).byte = ((s3.transact (.writeByte loadcapReg load)).upcoming 0).byte := by rw [u 1]; simp
  have up12 : ∀ j, j < 12 → (s0.upcoming j).ok = true := by
    intro j hj
    rcases Nat.lt_or_ge j 10 with h | h
    · exact up j h
    · obtain rfl | rfl : j = 10 ∨ j = 11 := by omega
      · rw [u 0]; exact h3
      · rw [u 1]; simpa using h4
  rw [v11]
  generalize hv : ((s3.transact (.writeByte loadcapReg load)).upcoming 0).byte = v at *
  rcases attempt_cases .transportError (.writeByte ssReg (v &&& ssDisableMask)) Response.blank ((s3.transact (.writeByte loadcapReg load)).transact (.readByte ssReg)) (fun _ s6 =>
    respond Response.blank (markInitialised f s6)) with ⟨h5, e5⟩ | ⟨h5, e5⟩
  · refine .inl ⟨fun k hk => ?_, congrArg _ (e5.trans ?_)⟩
    · rcases Nat.lt_or_ge k 12 with h | h
      · exact up12 k h
      · obtain rfl : k = 12 := by omega
        rw [u 2]; simpa using h5
    · rw [respond_markInitialised, State.transact_ends, State.transact_ends, State.transact_ends, d3]
      simp only [markInitialised, State.transact_st, st3]
      rfl
  · refine .inr ⟨12, by decide, up12, by rw [u 2]; simpa using h5, congrArg _ (e5.trans ?_)⟩
    rw [State.transact_ends, State.transact_ends, d3]
    simp only [State.transact_st, st3]
    rfl

/-- The gate every device command but INIT stands behind (R68). -/
def GateOpen (i : Instr) (s : State) : Prop :=
  i.isDevice = true → i.isInit = false → s.st.initialised = true

/-- What `st` is after a command with status OK (R23, R62, R64). -/
def DeviceAfterOk (i : Instr) (s : State) (d : Device) : Prop :=
  match i with
  | .init f _ => d = ⟨true, f, ⟨false, false⟩, ⟨0, 0⟩, ⟨0, 0, 0⟩⟩
  | .setupPll p a b c => d = (recordPll p a.toNat b.toNat c.toNat s).st
  | .setupPllInt p a => d = (recordPll p a.toNat 0 1 s).st
  | .setupMs _ _ _ _ _ => d = s.st
  | .setupMsInt _ _ _ => d = s.st
  | .setupRdiv ch e => ∃ c : Channel, ch = c.number ∧ d = (recordRDivider c e s).st
  | .pack _ _ _ _ => d = s.st
  | .serPll _ _ _ _ => d = s.st
  | .serMs _ _ _ _ _ => d = s.st
  | .unpack _ => d = s.st

/-- How a command that makes `reqs`, answers `resp` and leaves `d` may end. -/
inductive CommandOutcome (i : Instr) (s : State) (reqs : List Request) (resp : Response)
    (d : Device) : Prop where
  | ok (status : resp.status = .ok) (answers : ∀ j, j < reqs.length → (s.upcoming j).ok = true)
      (gate : GateOpen i s) (valid : ¬ InvalidCause i s) (device : DeviceAfterOk i s d)
  | notInitialised (none : reqs = [])
      (response : resp = { Response.blank with status := .deviceNotInitialised })
      (isDevice : i.isDevice = true) (notInit : i.isInit = false)
      (closed : s.st.initialised = false) (device : d = s.st)
  | invalid (none : reqs = []) (response : resp = { Response.blank with status := .invalidParameter })
      (gate : GateOpen i s) (cause : InvalidCause i s) (notInit : i.isInit = false) (device : d = s.st)
  | transportError (k : Nat) (length : reqs.length = k + 1) (status : resp.status = .transportError)
      (before : ∀ j, j < k → (s.upcoming j).ok = true) (failed : (s.upcoming k).ok = false)
      (isDevice : i.isDevice = true) (later : i.isInit = true → k ≠ 0)
      (gate : GateOpen i s) (valid : ¬ InvalidCause i s)
      (device : d = if i.isInit then Device.powerOn else s.st)
  | notFound (probe : reqs = [.probe])
      (response : resp = { Response.blank with status := .deviceNotFound })
      (failed : (s.upcoming 0).ok = false) (isInit : i.isInit = true) (device : d = Device.powerOn)

/-- Every request of `reqs` is one the DRE may make, and one of this command's: it writes and reads the
command's own registers alone, and INIT alone probes (R31, R32, R69, R74). -/
def RequestsListed (i : Instr) (reqs : List Request) : Prop :=
  ∀ r ∈ reqs, r.allowed ∧ (∀ n ∈ r.targets, n ∈ i.mayWrite) ∧
    (∀ n, r = .readByte n → n.toNat ∈ i.mayRead) ∧ (r = .probe → i.isInit = true)

theorem RequestsListed.take {i : Instr} {reqs : List Request} (h : RequestsListed i reqs) (n : Nat) :
    RequestsListed i (reqs.take n) := fun r hr => h r (List.mem_of_mem_take hr)

theorem requestsListed_nil (i : Instr) : RequestsListed i [] := fun r hr => by simp at hr

theorem requestsListed_init (f : Operand) (load pdn v : Byte) :
    RequestsListed (.init f load) (initRequests pdn load v) := by
  intro r hr
  simp only [initRequests, List.mem_cons, List.not_mem_nil, or_false] at hr
  rcases hr with rfl | rfl | rfl | rfl | rfl | rfl | rfl | rfl | rfl | rfl | rfl | rfl | rfl <;>
    simp [Request.allowed, Request.targets, Instr.mayWrite, Instr.mayRead, Instr.isInit]

theorem requestsListed_setupPll (p : PllId) (a b c : Operand) :
    RequestsListed (.setupPll p a b c) (setupPllRequests p a b c) := by
  intro r hr
  simp only [setupPllRequests, List.mem_cons, List.not_mem_nil, or_false] at hr
  rcases hr with rfl | rfl <;> cases p <;>
    simp [Request.allowed, Request.targets, Instr.mayWrite, Instr.mayRead, Instr.isInit, pllBase, resetReg, List.range_succ]

theorem requestsListed_setupPllInt (p : PllId) (a b c : Operand) :
    RequestsListed (.setupPllInt p a) (setupPllRequests p a b c) := by
  intro r hr
  simp only [setupPllRequests, List.mem_cons, List.not_mem_nil, or_false] at hr
  rcases hr with rfl | rfl <;> cases p <;>
    simp [Request.allowed, Request.targets, Instr.mayWrite, Instr.mayRead, Instr.isInit, pllBase, resetReg, List.range_succ]

theorem requestsListed_setupMs (c : Channel) (p : PllId) (a b d : Operand) (s : State) :
    RequestsListed (.setupMs c.number p a b d) (setupMsRequests c p a b d s) := by
  intro r hr
  simp only [setupMsRequests, List.mem_cons, List.not_mem_nil, or_false] at hr
  rcases hr with rfl | rfl <;> cases c <;>
    simp [Request.allowed, Request.targets, Instr.mayWrite, Instr.mayRead, Instr.isInit, msBase, clkctlReg, Channel.number,
      List.range_succ]

theorem requestsListed_setupMsInt (c : Channel) (p : PllId) (a b d a' : Operand) (s : State) :
    RequestsListed (.setupMsInt c.number p a') (setupMsRequests c p a b d s) :=
  requestsListed_setupMs c p a b d s

/-- The two requests of SETUP_RDIV (R74). -/
def setupRdivRequests (c : Channel) (e : RdivExp) (s : State) : List Request :=
  [.readByte (param3Reg c),
   .writeByte (param3Reg c) (mergeRdiv s.params.rdivShift (s.upcoming 0).byte e)]

theorem requestsListed_setupRdiv (c : Channel) (e : RdivExp) (s : State) :
    RequestsListed (.setupRdiv c.number e) (setupRdivRequests c e s) := by
  intro r hr
  simp only [setupRdivRequests, List.mem_cons, List.not_mem_nil, or_false] at hr
  rcases hr with rfl | rfl <;> cases c <;>
    simp [Request.allowed, Request.targets, Instr.mayWrite, Instr.mayRead, Instr.isInit, msBase, param3Reg, Channel.number]

theorem invalidCause_setupMs_int {ch : Byte} {p : PllId} {a : Operand} {s : State}
    (h : a.toNat = 4 ∨ a.toNat = 6 ∨ a.toNat = 8) :
    InvalidCause (.setupMs ch p a 0 1) s ↔ InvalidCause (.setupMsInt ch p a) s := by
  have hr : MsInRange a 0#32 1#32 := by
    refine ⟨?_, ?_, by decide⟩ <;> omega
  simp [InvalidCause, hr, h]

theorem pllInRange_int (a : Operand) : PllInRange a 0 1 ↔ 15 ≤ a.toNat ∧ a.toNat ≤ 90 := by
  simp [PllInRange, FracInRange]

/-- What executing a command can do: it always answers a next state, which is `s` with exactly the
command's requests made, one response given, and `st` as its outcome says. -/
theorem exec_inversion (i : Instr) (s : State) :
    ∃ reqs resp d, exec i s = .next (s.ends reqs resp d) ∧ CommandOutcome i s reqs resp d ∧
      RequestsListed i reqs := by
  cases i with
  | init f load =>
    rcases execInit_cases f load s with ⟨h, e⟩ | ⟨k, hk, hb, hf, e⟩
    · refine ⟨_, _, _, e, .ok rfl h (fun _ h => by simp [Instr.isInit] at h) (fun h => h) rfl, ?_⟩
      exact requestsListed_init f load _ _
    · refine ⟨_, _, _, e, ?_, (requestsListed_init f load _ _).take _⟩
      cases k with
      | zero => exact .notFound rfl rfl hf rfl rfl
      | succ k =>
        refine .transportError (k + 1) ?_ rfl hb hf rfl (fun _ => Nat.succ_ne_zero k)
          (fun _ h => by simp [Instr.isInit] at h) (fun h => h) rfl
        simp only [List.length_take, initRequests, List.length_cons, List.length_nil]
        omega
  | setupPll p a b c =>
    rcases setupPll_cases p a b c s with ⟨hi, e⟩ | ⟨hi, hr, e⟩ | ⟨hi, hr, h0, e⟩ | ⟨hi, hr, h0, h1, e⟩ |
      ⟨hi, hr, h0, h1, e⟩
    · exact ⟨_, _, _, congrArg _ e, .notInitialised rfl rfl rfl rfl hi rfl, requestsListed_nil _⟩
    · exact ⟨_, _, _, congrArg _ e, .invalid rfl rfl (fun _ _ => hi) hr rfl rfl, requestsListed_nil _⟩
    · exact ⟨_, _, _, congrArg _ e, .transportError 0 rfl rfl (fun j hj => absurd hj (Nat.not_lt_zero j))
        h0 rfl (fun h => by simp [Instr.isInit] at h) (fun _ _ => hi) (fun h => h hr) rfl,
        (requestsListed_setupPll p a b c).take 1⟩
    · refine ⟨_, _, _, congrArg _ e, .transportError 1 rfl rfl (fun j hj => ?_) h1 rfl
        (fun _ => Nat.one_ne_zero) (fun _ _ => hi) (fun h => h hr) rfl, requestsListed_setupPll p a b c⟩
      obtain rfl : j = 0 := by omega
      exact h0
    · refine ⟨_, _, _, congrArg _ e, .ok rfl (fun j hj => ?_) (fun _ _ => hi) (fun h => h hr) rfl,
        requestsListed_setupPll p a b c⟩
      simp only [setupPllRequests, List.length_cons, List.length_nil] at hj
      obtain rfl | rfl : j = 0 ∨ j = 1 := by omega
      · exact h0
      · exact h1
  | setupPllInt p a =>
    have hv : InvalidCause (.setupPllInt p a) s ↔ ¬ PllInRange a 0 1 := not_congr (pllInRange_int a).symm
    rcases setupPll_cases p a 0 1 s with ⟨hi, e⟩ | ⟨hi, hr, e⟩ | ⟨hi, hr, h0, e⟩ | ⟨hi, hr, h0, h1, e⟩ |
      ⟨hi, hr, h0, h1, e⟩
    · exact ⟨_, _, _, congrArg _ e, .notInitialised rfl rfl rfl rfl hi rfl, requestsListed_nil _⟩
    · exact ⟨_, _, _, congrArg _ e, .invalid rfl rfl (fun _ _ => hi) (hv.mpr hr) rfl rfl,
        requestsListed_nil _⟩
    · exact ⟨_, _, _, congrArg _ e, .transportError 0 rfl rfl (fun j hj => absurd hj (Nat.not_lt_zero j))
        h0 rfl (fun h => by simp [Instr.isInit] at h) (fun _ _ => hi) (fun h => hv.mp h hr) rfl,
        (requestsListed_setupPllInt p a 0 1).take 1⟩
    · refine ⟨_, _, _, congrArg _ e, .transportError 1 rfl rfl (fun j hj => ?_) h1 rfl
        (fun _ => Nat.one_ne_zero) (fun _ _ => hi) (fun h => hv.mp h hr) rfl,
        requestsListed_setupPllInt p a 0 1⟩
      obtain rfl : j = 0 := by omega
      exact h0
    · refine ⟨_, _, _, congrArg _ e, .ok rfl (fun j hj => ?_) (fun _ _ => hi) (fun h => hv.mp h hr) rfl,
        requestsListed_setupPllInt p a 0 1⟩
      simp only [setupPllRequests, List.length_cons, List.length_nil] at hj
      obtain rfl | rfl : j = 0 ∨ j = 1 := by omega
      · exact h0
      · exact h1
  | setupMs ch p a b d =>
    rcases setupMs_cases ch p a b d s with ⟨hi, e⟩ | ⟨hi, hc, e⟩ |
      ⟨hi, hv, -, -, c, rfl, ⟨h0, e⟩ | ⟨h0, h1, e⟩ | ⟨h0, h1, e⟩⟩
    · exact ⟨_, _, _, congrArg _ e, .notInitialised rfl rfl rfl rfl hi rfl, requestsListed_nil _⟩
    · exact ⟨_, _, _, congrArg _ e, .invalid rfl rfl (fun _ _ => hi) hc rfl rfl, requestsListed_nil _⟩
    · exact ⟨_, _, _, congrArg _ e, .transportError 0 rfl rfl (fun j hj => absurd hj (Nat.not_lt_zero j))
        h0 rfl (fun h => by simp [Instr.isInit] at h) (fun _ _ => hi) hv rfl,
        (requestsListed_setupMs c p a b d s).take 1⟩
    · refine ⟨_, _, _, congrArg _ e, .transportError 1 rfl rfl (fun j hj => ?_) h1 rfl
        (fun _ => Nat.one_ne_zero) (fun _ _ => hi) hv rfl, requestsListed_setupMs c p a b d s⟩
      obtain rfl : j = 0 := by omega
      exact h0
    · refine ⟨_, _, _, congrArg _ e, .ok rfl (fun j hj => ?_) (fun _ _ => hi) hv rfl,
        requestsListed_setupMs c p a b d s⟩
      simp only [setupMsRequests, List.length_cons, List.length_nil] at hj
      obtain rfl | rfl : j = 0 ∨ j = 1 := by omega
      · exact h0
      · exact h1
  | setupMsInt ch p a =>
    by_cases ha : a.toNat = 4 ∨ a.toNat = 6 ∨ a.toNat = 8
    · have hv := invalidCause_setupMs_int (ch := ch) (p := p) (s := s) ha
      have E : exec (.setupMsInt ch p a) s = .next (setupMs ch p a 0 1 s) := execSetupMsInt_of_div ha
      rw [E]
      rcases setupMs_cases ch p a 0 1 s with ⟨hi, e⟩ | ⟨hi, hc, e⟩ |
        ⟨hi, hc, -, -, c, rfl, ⟨h0, e⟩ | ⟨h0, h1, e⟩ | ⟨h0, h1, e⟩⟩
      · exact ⟨_, _, _, congrArg _ e, .notInitialised rfl rfl rfl rfl hi rfl, requestsListed_nil _⟩
      · exact ⟨_, _, _, congrArg _ e, .invalid rfl rfl (fun _ _ => hi) (hv.mp hc) rfl rfl,
          requestsListed_nil _⟩
      · exact ⟨_, _, _, congrArg _ e, .transportError 0 rfl rfl
          (fun j hj => absurd hj (Nat.not_lt_zero j)) h0 rfl (fun h => by simp [Instr.isInit] at h)
          (fun _ _ => hi) (mt hv.mpr hc) rfl, (requestsListed_setupMsInt c p a 0 1 a s).take 1⟩
      · refine ⟨_, _, _, congrArg _ e, .transportError 1 rfl rfl (fun j hj => ?_) h1 rfl
          (fun _ => Nat.one_ne_zero) (fun _ _ => hi) (mt hv.mpr hc) rfl,
          requestsListed_setupMsInt c p a 0 1 a s⟩
        obtain rfl : j = 0 := by omega
        exact h0
      · refine ⟨_, _, _, congrArg _ e, .ok rfl (fun j hj => ?_) (fun _ _ => hi) (mt hv.mpr hc) rfl,
          requestsListed_setupMsInt c p a 0 1 a s⟩
        simp only [setupMsRequests, List.length_cons, List.length_nil] at hj
        obtain rfl | rfl : j = 0 ∨ j = 1 := by omega
        · exact h0
        · exact h1
    · cases hi : s.st.initialised with
      | false =>
        exact ⟨_, _, _, congrArg _ (requireInitialised_of_not hi),
          .notInitialised rfl rfl rfl rfl hi rfl, requestsListed_nil _⟩
      | true =>
        refine ⟨_, _, _, congrArg _ ((requireInitialised_of_initialised hi).trans
          ((if_neg (mt (msIntDivInRange_iff a).mp ha)).trans (raise_eq_ends _ _ s))),
          .invalid rfl rfl (fun _ _ => hi) (.inl ha) rfl rfl, requestsListed_nil _⟩
  | setupRdiv ch e =>
    cases hi : s.st.initialised with
    | false =>
      exact ⟨_, _, _, congrArg _ (requireInitialised_of_not hi),
        .notInitialised rfl rfl rfl rfl hi rfl, requestsListed_nil _⟩
    | true =>
      simp only [exec, execSetupRdiv, requireInitialised_of_initialised hi]
      cases hc : channelOf ch with
      | none =>
        exact ⟨_, _, _, congrArg _ (raise_eq_ends _ _ s),
          .invalid rfl rfl (fun _ _ => hi) ((channelOf_eq_none_iff ch).mp hc) rfl rfl,
          requestsListed_nil _⟩
      | some c =>
        obtain rfl := channelOf_eq_some hc
        have hv : ¬ InvalidCause (.setupRdiv c.number e) s := by
          cases c <;> simp [InvalidCause, Channel.number]
        simp only
        rcases attempt_cases .transportError (.readByte (param3Reg c)) Response.blank s
            (fun v s1 => tryWrite (param3Reg c) (mergeRdiv s.params.rdivShift v e) Response.blank s1
              fun s2 => respond Response.blank (recordRDivider c e s2)) with ⟨h0, e0⟩ | ⟨h0, e0⟩
        · rcases attempt_cases .transportError
              (.writeByte (param3Reg c) (mergeRdiv s.params.rdivShift (s.upcoming 0).byte e))
              Response.blank (s.transact (.readByte (param3Reg c)))
              (fun _ s2 => respond Response.blank (recordRDivider c e s2)) with ⟨h1, e1⟩ | ⟨h1, e1⟩
          · have h1' : (s.upcoming 1).ok = true := by simpa using h1
            refine ⟨setupRdivRequests c e s, Response.blank, (recordRDivider c e s).st,
              congrArg _ ((e0.trans e1).trans ?_), .ok rfl (fun j hj => ?_) (fun _ _ => hi) hv
                ⟨c, rfl, rfl⟩, requestsListed_setupRdiv c e s⟩
            · rw [respond_recordRDivider, State.transact_ends, State.transact_ends]
              simp [recordRDivider, setupRdivRequests]
            · simp only [setupRdivRequests, List.length_cons, List.length_nil] at hj
              obtain rfl | rfl : j = 0 ∨ j = 1 := by omega
              · exact h0
              · exact h1'
          · have h1' : (s.upcoming 1).ok = false := by simpa using h1
            refine ⟨setupRdivRequests c e s, { Response.blank with status := .transportError }, s.st,
              congrArg _ ((e0.trans e1).trans ?_), .transportError 1 rfl rfl (fun j hj => ?_) h1' rfl (fun _ => Nat.one_ne_zero)
                (fun _ _ => hi) hv rfl, requestsListed_setupRdiv c e s⟩
            · rw [State.transact_ends, State.transact_st]
              rfl
            · obtain rfl : j = 0 := by omega
              exact h0
        · exact ⟨(setupRdivRequests c e s).take 1, _, _, congrArg _ e0,
            .transportError 0 rfl rfl (fun j hj => absurd hj (Nat.not_lt_zero j)) h0 rfl
              (fun h => by simp [Instr.isInit] at h) (fun _ _ => hi) hv rfl,
            (requestsListed_setupRdiv c e s).take 1⟩
  | pack k a b c =>
    have g : GateOpen (.pack k a b c) s := fun h => by simp [Instr.isDevice] at h
    by_cases hr : FracInRange b c
    · refine ⟨_, _, _, congrArg _ ((if_pos ((fracInRange_iff b c).mpr hr)).trans
        (respond_eq_ends _ s)), .ok rfl (fun j hj => absurd hj (Nat.not_lt_zero j)) g (fun h => h hr) rfl,
        requestsListed_nil _⟩
    · exact ⟨_, _, _, congrArg _ ((if_neg (mt (fracInRange_iff b c).mp hr)).trans (raise_eq_ends _ _ s)),
        .invalid rfl rfl g hr rfl rfl, requestsListed_nil _⟩
  | serPll p a b c =>
    exact ⟨_, _, _, congrArg _ (respond_eq_ends _ s), .ok rfl (fun j hj => absurd hj (Nat.not_lt_zero j))
      (fun h => by simp [Instr.isDevice] at h) (fun h => h) rfl, requestsListed_nil _⟩
  | serMs ch e a b c =>
    have g : GateOpen (.serMs ch e a b c) s := fun h => by simp [Instr.isDevice] at h
    simp only [exec, execSerMs]
    cases hc : channelOf ch with
    | none =>
      exact ⟨_, _, _, congrArg _ (raise_eq_ends _ _ s),
        .invalid rfl rfl g ((channelOf_eq_none_iff ch).mp hc) rfl rfl, requestsListed_nil _⟩
    | some x =>
      have hv : ¬ InvalidCause (.serMs ch e a b c) s := fun h => by
        simp [(channelOf_eq_none_iff ch).mpr h] at hc
      exact ⟨_, _, _, congrArg _ (respond_eq_ends _ s),
        .ok rfl (fun j hj => absurd hj (Nat.not_lt_zero j)) g hv rfl, requestsListed_nil _⟩
  | unpack d =>
    exact ⟨_, _, _, congrArg _ (respond_eq_ends _ s), .ok rfl (fun j hj => absurd hj (Nat.not_lt_zero j))
      (fun h => by simp [Instr.isDevice] at h) (fun h => h) rfl, requestsListed_nil _⟩

end Sys2Proof.Machine
end

