-- ==== Sys2Proof/Laws/PerInstr.lean ====
section
/-! SUPPORT. Statements made for every command one by one, as syntax. -/

namespace Sys2Proof.Laws

/-- The encoding of the command is a DRE command in the sense of R43, and its opcode is the one of R42. -/
def EncodesWellFormed.Statement (i : Instr) : Prop :=
  (Command.ofWord (encode i)).wellFormed = true ∧ (Command.ofWord (encode i)).op = i.opcode

namespace EncodesWellFormed

theorem init (f : Operand) (load : Byte) : Statement (.init f load) := by
  rw [Statement, encode, Command.ofWord_toWord]; exact ⟨rfl, rfl⟩

theorem setupPll (p : PllId) (a b c : Operand) : Statement (.setupPll p a b c) := by
  rw [Statement, encode, Command.ofWord_toWord]; exact ⟨rfl, rfl⟩

theorem setupPllInt (p : PllId) (a : Operand) : Statement (.setupPllInt p a) := by
  rw [Statement, encode, Command.ofWord_toWord]; exact ⟨rfl, rfl⟩

theorem setupMs (ch : Byte) (p : PllId) (a b c : Operand) : Statement (.setupMs ch p a b c) := by
  rw [Statement, encode, Command.ofWord_toWord]; exact ⟨rfl, rfl⟩

theorem setupMsInt (ch : Byte) (p : PllId) (a : Operand) : Statement (.setupMsInt ch p a) := by
  rw [Statement, encode, Command.ofWord_toWord]; exact ⟨rfl, rfl⟩

theorem setupRdiv (ch : Byte) (e : RdivExp) : Statement (.setupRdiv ch e) := by
  rw [Statement, encode, Command.ofWord_toWord]; exact ⟨rfl, rfl⟩

theorem pack (k : BlockKind) (a b c : Operand) : Statement (.pack k a b c) := by
  rw [Statement, encode, Command.ofWord_toWord]; exact ⟨rfl, rfl⟩

theorem serPll (p : PllId) (x y z : Operand) : Statement (.serPll p x y z) := by
  rw [Statement, encode, Command.ofWord_toWord]; exact ⟨rfl, rfl⟩

theorem serMs (ch : Byte) (e : RdivExp) (x y z : Operand) : Statement (.serMs ch e x y z) := by
  rw [Statement, encode, Command.ofWord_toWord]; exact ⟨rfl, rfl⟩

theorem unpack (d : Block) : Statement (.unpack d) := by
  rw [Statement, encode, Command.ofWord_toWord]; exact ⟨rfl, rfl⟩

end EncodesWellFormed

end Sys2Proof.Laws
end

