-- ==== Sys2Proof/Tests/Slice0.lean ====
section
/-! SUPPORT. Tests, and for every obligation with hypotheses states and operands that meet them. Expected
results are those of 95_test_vectors.md (section and row in each comment), never the model's own answer. -/

open Sys2Proof Sys2Proof.Machine

namespace Sys2Proof.Tests

/-! ### Helpers -/

/-- A state with device `st` and the transport's next answers; all else as after power-on. -/
def start (st : Device) (answers : List Answer) : State := { State.reset with st := st, answers := answers }

/-- `n` answers `ok`, each with byte `v` for a read. -/
def oks (n : Nat) (v : Byte) : List Answer := List.replicate n ⟨true, v⟩

/-- The answer `err`. -/
def err : Answer := ⟨false, 0⟩

/-- S0 of 95_test_vectors.md. -/
def devZero : Device := ⟨false, 0, ⟨false, false⟩, ⟨0, 0⟩, ⟨0, 0, 0⟩⟩

/-- S_I of 95_test_vectors.md. -/
def devInit : Device := ⟨true, 25000000, ⟨false, false⟩, ⟨0, 0⟩, ⟨0, 0, 0⟩⟩

/-- S_A of 95_test_vectors.md. -/
def devA : Device := ⟨true, 25000000, ⟨true, false⟩, ⟨900000000, 0⟩, ⟨0, 0, 0⟩⟩

/-- S_A with the output-frequency check enabled. -/
def checked : State :=
  { start devA (oks 2 0) with params := { defaultParams with enforceFoutRange := true } }

/-- The state after a step that ends in a next state. -/
def next? : Host.Outcome State Fault Refusal → Option State
  | .next t => some t
  | .fault _ => none
  | .refused _ => none

/-- What is observed after one command: trace, responses, final `st`. -/
def observe (i : Instr) (s : State) : Option Observation := (next? (exec i s)).map State.observation

/-- The command completes with status `e`. -/
def EndsWith (i : Instr) (s : State) (e : Status) : Prop :=
  ∃ t, exec i s = .next t ∧ t.lastStatus = some e

/-! ### Well-formedness: an ill-formed word for each check, and that it is refused -/

theorem test_wellFormed_opcode :
    (Command.bare 0x7).opAssigned = false ∧ (Command.bare 0x0).opAssigned = false ∧
    (Command.bare 0xC).opAssigned = false ∧ (Command.bare 0xF).wellFormed = false := by decide

theorem test_wellFormed_low_reserved :
    ({ Command.bare 0x8 with rsvLow := 1 } : Command).lowReservedZero = false ∧
    ({ Command.bare 0x8 with rsvLow := 1 } : Command).wellFormed = false := by decide

theorem test_wellFormed_high_reserved :
    ({ Command.bare 0x2 with rsvHigh := 1 } : Command).highReservedZero = false ∧
    ({ Command.bare 0x2 with rsvHigh := 1 } : Command).wellFormed = false := by decide

theorem test_wellFormed_accepts :
    (∀ op ∈ [0x1#4, 0x2#4, 0x3#4, 0x4#4, 0x5#4, 0x6#4, 0x8#4, 0x9#4, 0xA#4, 0xB#4],
      (Command.bare op).wellFormed = true) := by decide

/-- Section 2.11. -/
theorem test_reserved_words :
    decode 0#128 = .error (.reservedOpcode 0x0) ∧
    decode 0x7#128 = .error (.reservedOpcode 0x7) ∧
    decode 0xC#128 = .error (.reservedOpcode 0xC) ∧
    decode 0xF#128 = .error (.reservedOpcode 0xF) ∧
    decode 0x00000001000000000000002400000048#128 = .error (.reservedBits 1 0) ∧
    decode 0x00000001000000000000002400080002#128 = .error (.reservedBits 0 1) :=
  ⟨rfl, rfl, rfl, rfl, rfl, rfl⟩

/-! ### Decoding: words written out from R40 and R41, and the words of 95_test_vectors.md -/

/-- A SETUP_MS word field by field, most significant first: c, b, a, reserved, e, ch, reserved, kind, pll,
op (R40). The bits of `e` and `kind` are ignored (R41). -/
theorem test_decode_setupMs_fields :
    decode (0x00000002#32 ++ 0x00000001#32 ++ 0x0000002D#32 ++ 0#13 ++ 0b101#3 ++ 0b00000010#8 ++ 0b00#2 ++
      0b1#1 ++ 0b1#1 ++ 0b0100#4) = .ok (.setupMs 2 .b 45 1 2) := rfl

/-- An UNPACK word bit by bit: op 1011, and d0..d7 = 54 32 09 AB 4A BC DE 00 (2.4 row 5). -/
theorem test_decode_unpack_bits :
    decode (0#32 ++ 0b01001010101111001101111000000000#32 ++ 0b01010100001100100000100110101011#32 ++
      0b00000000000000000000000000001011#32) =
      .ok (.unpack ⟨0x54, 0x32, 0x09, 0xAB, 0x4A, 0xBC, 0xDE, 0x00⟩) := rfl

theorem test_decode_init :
    decode 0x00000000000001C0017D784000000001#128 = .ok (.init 25000000 0xC0) := rfl

theorem test_decode_setupPll :
    decode 0x000FFFFF000FFFFE0000005A00000002#128 = .ok (.setupPll .a 90 0xFFFFE 0xFFFFF) := rfl

theorem test_decode_setupPllInt :
    decode 0x00000000FFFFFFFF0000002400000013#128 = .ok (.setupPllInt .b 36) := rfl

theorem test_decode_setupMs :
    decode 0x00000003000000010000006400000104#128 = .ok (.setupMs 1 .a 100 1 3) := rfl

theorem test_decode_setupMsInt :
    decode 0x00000000000000000000000A00000105#128 = .ok (.setupMsInt 1 .a 10) := rfl

theorem test_decode_setupRdiv : decode 0x50206#128 = .ok (.setupRdiv 2 5) := rfl

theorem test_decode_pack :
    decode 0x00000003000000020000001800000008#128 = .ok (.pack .pll 24 2 3) ∧
    decode 0x00000001000000030000000A00000028#128 = .ok (.pack .ms 10 3 1) := ⟨rfl, rfl⟩

theorem test_decode_serPll :
    decode 0x00054321000ABCDE0001234500000009#128 = .ok (.serPll .a 0x12345 0xABCDE 0x54321) := rfl

theorem test_decode_serMs :
    decode 0x00000001000000000003FFFF0007000A#128 = .ok (.serMs 0 7 0x3FFFF 0 1) ∧
    decode 0x0000000100000000000000000000FF0A#128 = .ok (.serMs 255 0 0 0 1) := ⟨rfl, rfl⟩

theorem test_decode_unpack :
    decode 0x00000000800001000001A0040000000B#128 =
      .ok (.unpack ⟨0x00, 0x01, 0xA0, 0x04, 0x80, 0x00, 0x01, 0x00⟩) := rfl

/-- The encoder writes the words of the test vectors. -/
theorem test_encode :
    encode (.setupMs 2 .a 45 1 2) = 0x00000002000000010000002D00000204#128 ∧
    encode (.serMs 2 5 0x480 0x100 1) = 0x0000000100000100000004800005020A#128 ∧
    encode (.unpack ⟨0, 3, 0, 0x0A, 0x55, 0, 0, 1⟩) = 0x00000000550000010003000A0000000B#128 := by
  decide

/-- The rows of the opcode table (their `match`, operand words 0). -/
theorem test_decodeTableWord :
    (decodeTableWord 32 0x1 = some (.init 0 0) ∧ decodeTableWord 32 0x2 = some (.setupPll .a 0 0 0)) ∧
    (decodeTableWord 32 0x3 = some (.setupPllInt .a 0) ∧
      decodeTableWord 32 0x4 = some (.setupMs 0 .a 0 0 0)) ∧
    (decodeTableWord 32 0x5 = some (.setupMsInt 0 .a 0) ∧ decodeTableWord 32 0x6 = some (.setupRdiv 0 0)) ∧
    (decodeTableWord 32 0x8 = some (.pack .pll 0 0 0) ∧ decodeTableWord 32 0x9 = some (.serPll .a 0 0 0)) ∧
    decodeTableWord 32 0xA = some (.serMs 0 0 0 0 0) ∧ decodeTableWord 32 0xB = some (.unpack Block.zero) ∧
    decodeTableWord 32 0xC = none := by decide

/-- The delivered word is the one the next step runs. -/
theorem test_withFetchWord :
    step (State.reset.withFetchWord 32 0x9) = exec (.serPll .a 0 0 0) State.reset ∧
    step (State.reset.withFetchWord 32 0x48) = .refused (.reservedBits 1 0) := ⟨rfl, rfl⟩

/-! ### The text syntax (R51): lines and words of section 3 -/

theorem test_assemble_ms : assemble "ms 1, B, 45, 1, 2" = some 0x00000002000000010000002D00000114#128 := by
  decide

/-- The line of a command as the programs of section 3 spell it, in decimal and in hexadecimal. -/
theorem test_line :
    (Instr.setupMs 1 .b 45 1 2).line decimal = "ms 1, B, 45, 1, 2" ∧
    (Instr.pack .ms 2048 0 0xFFFFF).line hexadecimal = "pack ms, 0x800, 0x0, 0xfffff" := by decide

theorem test_assemble_init : assemble "init     27000000, 0x92" = some 0x0000000000000092019BFCC000000001#128 := by
  decide

theorem test_assemble_refuses :
    assemble "rdiv 2, 8" = none ∧ assemble "pll C, 36, 0, 1" = none ∧ assemble "nop" = none := by decide

/-! ### One step of each command -/

/-- Section 2.10 row 1. -/
theorem test_init :
    observe (.init 25000000 0xC0) (start devZero (oks 13 0x80)) = some
      ⟨[⟨.probe, .ok⟩, ⟨.writeByte 3 0xFF, .ok⟩, ⟨.writeByte 16 0x80, .ok⟩, ⟨.writeByte 17 0x80, .ok⟩,
        ⟨.writeByte 18 0x80, .ok⟩, ⟨.writeByte 19 0x80, .ok⟩, ⟨.writeByte 20 0x80, .ok⟩,
        ⟨.writeByte 21 0x80, .ok⟩, ⟨.writeByte 22 0x80, .ok⟩, ⟨.writeByte 23 0x80, .ok⟩,
        ⟨.writeByte 183 0xC0, .ok⟩, ⟨.readByte 149, .byte 0x80⟩, ⟨.writeByte 149 0x00, .ok⟩],
       [Response.blank], devInit⟩ := by decide

/-- Section 2.10 row 8: a failed probe loses the earlier configuration. -/
theorem test_init_probe_fails :
    observe (.init 25000000 0xC0) (start devA [err]) = some
      ⟨[⟨.probe, .err⟩], [{ Response.blank with status := .deviceNotFound }], devZero⟩ := by decide

/-- Section 2.5 row 9: the ratio overflows P1, the recorded frequency does not. -/
theorem test_setupPll :
    observe (.setupPll .a 20 0xFFFFF 2) (start devInit (oks 2 0)) = some
      ⟨[⟨.writeBurst 26 [0x00, 0x02, 0x00, 0x07, 0xC0, 0x00, 0x00, 0x00], .ok⟩, ⟨.writeByte 177 0xA0, .ok⟩],
       [⟨.ok, 0x007C0, 0, 2, 26, ⟨0x00, 0x02, 0x00, 0x07, 0xC0, 0x00, 0x00, 0x00⟩, 13107687500000⟩],
       ⟨true, 25000000, ⟨true, false⟩, ⟨13107687500000, 0⟩, ⟨0, 0, 0⟩⟩⟩ := by decide

/-- Section 2.5 row 16: the reset write fails, the PLL is not recorded. -/
theorem test_setupPll_reset_fails :
    observe (.setupPll .a 36 0 1) (start devInit [⟨true, 0⟩, err]) = some
      ⟨[⟨.writeBurst 26 [0x00, 0x01, 0x00, 0x10, 0x00, 0x00, 0x00, 0x00], .ok⟩, ⟨.writeByte 177 0xA0, .err⟩],
       [⟨.transportError, 0x01000, 0, 1, 26, ⟨0x00, 0x01, 0x00, 0x10, 0x00, 0x00, 0x00, 0x00⟩, 0⟩],
       devInit⟩ := by decide

/-- Section 2.6 row 3. -/
theorem test_setupPllInt :
    (observe (.setupPllInt .b 90) (start devInit (oks 2 0))).map (fun o => (o.trace, o.final)) = some
      ([⟨.writeBurst 34 [0x00, 0x01, 0x00, 0x2B, 0x00, 0x00, 0x00, 0x00], .ok⟩, ⟨.writeByte 177 0xA0, .ok⟩],
       ⟨true, 25000000, ⟨false, true⟩, ⟨0, 2250000000⟩, ⟨0, 0, 0⟩⟩) := by decide

/-- Section 3 P2 step 3: the rational divider, PLL B, fractional (C5). -/
theorem test_setupMs :
    observe (.setupMs 1 .b 45 1 2)
        (start ⟨true, 25000000, ⟨false, true⟩, ⟨0, 616666666⟩, ⟨0, 0, 0⟩⟩ (oks 2 0)) = some
      ⟨[⟨.writeBurst 50 [0x00, 0x02, 0x00, 0x14, 0xC0, 0x00, 0x00, 0x00], .ok⟩, ⟨.writeByte 17 0x2F, .ok⟩],
       [⟨.ok, 0x014C0, 0, 2, 50, ⟨0x00, 0x02, 0x00, 0x14, 0xC0, 0x00, 0x00, 0x00⟩, 13553113⟩],
       ⟨true, 25000000, ⟨false, true⟩, ⟨0, 616666666⟩, ⟨0, 0, 0⟩⟩⟩ := by decide

/-- Section 3 P3 step 4: simplified mode, exponent 5 merged. -/
theorem test_setupMs_exponent :
    observe (.setupMs 2 .a 10 3 1)
        (start ⟨true, 27000000, ⟨true, false⟩, ⟨864000000, 0⟩, ⟨0, 0, 5⟩⟩ (oks 2 0)) = some
      ⟨[⟨.writeBurst 58 [0x00, 0x01, 0xA0, 0x04, 0x80, 0x00, 0x01, 0x00], .ok⟩, ⟨.writeByte 18 0x0F, .ok⟩],
       [⟨.ok, 0x00480, 0x00100, 1, 58, ⟨0x00, 0x01, 0xA0, 0x04, 0x80, 0x00, 0x01, 0x00⟩, 66461538⟩],
       ⟨true, 27000000, ⟨true, false⟩, ⟨864000000, 0⟩, ⟨0, 0, 5⟩⟩⟩ := by decide

/-- Section 2.8 row 3. -/
theorem test_setupMsInt :
    observe (.setupMsInt 1 .a 6) (start devA (oks 2 0)) = some
      ⟨[⟨.writeBurst 50 [0x00, 0x01, 0x00, 0x01, 0x00, 0x00, 0x00, 0x00], .ok⟩, ⟨.writeByte 17 0x4F, .ok⟩],
       [⟨.ok, 0x00100, 0, 1, 50, ⟨0x00, 0x01, 0x00, 0x01, 0x00, 0x00, 0x00, 0x00⟩, 150000000⟩],
       devA⟩ := by decide

/-- Section 2.8 row 5: a divider SETUP_MS would take. -/
theorem test_setupMsInt_ten :
    observe (.setupMsInt 1 .a 10) (start devA (oks 2 0)) =
      some ⟨[], [{ Response.blank with status := .invalidParameter }], devA⟩ := by decide

/-- Section 2.9 row 3. -/
theorem test_setupRdiv :
    observe (.setupRdiv 2 5) (start devInit (oks 2 0x03)) = some
      ⟨[⟨.readByte 60, .byte 0x03⟩, ⟨.writeByte 60 0xA3, .ok⟩], [Response.blank],
       ⟨true, 25000000, ⟨false, false⟩, ⟨0, 0⟩, ⟨0, 0, 5⟩⟩⟩ := by decide

/-- Section 2.9 row 6: bits [4:2] are kept, and a failed write records nothing. -/
theorem test_setupRdiv_write_fails :
    observe (.setupRdiv 0 5) (start devInit [⟨true, 0x1C⟩, err]) = some
      ⟨[⟨.readByte 44, .byte 0x1C⟩, ⟨.writeByte 44 0xBC, .err⟩],
       [{ Response.blank with status := .transportError }], devInit⟩ := by decide

/-- Section 2.1 rows 12 and 15: truncation of a large and of a negative P1. -/
theorem test_pack_truncates :
    (observe (.pack .ms 4 0xFFFFF 1) State.reset).map (·.responses) =
      some [{ Response.blank with p1 := 0x3FF80, p2 := 0xFFF00, p3 := 1 }] ∧
    (observe (.pack .ms 3 0 1) State.reset).map (·.responses) =
      some [{ Response.blank with p1 := 0x3FF80, p3 := 1 }] := by decide

/-- Section 2.1 rows 5 and 6: c = 1 is simplified mode for a Multisynth alone (C6). -/
theorem test_pack_modes :
    (observe (.pack .ms 10 3 1) State.reset).map (·.responses) =
      some [{ Response.blank with p1 := 0x00480, p2 := 0x00100, p3 := 1 }] ∧
    (observe (.pack .pll 10 3 1) State.reset).map (·.responses) =
      some [{ Response.blank with p1 := 0x00480, p3 := 1 }] := by decide

/-- Section 2.2 row 5. -/
theorem test_serPll :
    (observe (.serPll .a 0x12345 0xABCDE 0x54321) State.reset).map (·.responses) =
      some [{ Response.blank with
        base := 26, data := ⟨0x43, 0x21, 0x01, 0x23, 0x45, 0x5A, 0xBC, 0xDE⟩ }] := by decide

/-- Section 2.3 row 2. -/
theorem test_serMs :
    ((observe (.serMs 0 7 0x3FFFF 0 1) State.reset).map fun o => o.responses.map Response.buffer) =
      some [[0x2A, 0x00, 0x01, 0xE3, 0xFF, 0xFF, 0x00, 0x00, 0x00]] := by decide

/-- The note under section 2.3: `RDIV_SHIFT` = 4 gives 0x73. -/
theorem test_serMs_shift_four :
    ((observe (.serMs 0 7 0x3FFFF 0 1)
        { State.reset with params := { defaultParams with rdivShift := 4 } }).map
      fun o => o.responses.map fun r => r.data.d2) = some [0x73] := by decide

/-- Section 2.4 row 5. -/
theorem test_unpack :
    (observe (.unpack ⟨0x54, 0x32, 0x09, 0xAB, 0x4A, 0xBC, 0xDE, 0x00⟩) State.reset).map (·.responses) =
      some [{ Response.blank with p1 := 0x1AB4A, p2 := 0xCDE00, p3 := 0xB5432 }] := by decide

/-- The image after SETUP_MS_INT (section 3 P1): its block and its clock-control byte; a failed burst
leaves its eight registers unknown and the one beside them as it was (R36). -/
theorem test_image :
    ((next? (exec (.setupMsInt 0 .a 8) (start devA (oks 2 0)))).map fun t =>
      (t.chip.read 43, t.chip.read 45, t.chip.read 16, t.chip.read 50)) =
      some (some 0x01, some 0x02, some 0x4F, none) ∧
    ((next? (exec (.setupMsInt 0 .a 8) { start devA [err] with chip := [(42, 7), (49, 8), (50, 9)] })).map
      fun t => (t.chip.read 42, t.chip.read 49, t.chip.read 50)) = some (none, none, some 9) := by decide

/-! ### Witnesses: states and operands that meet the hypotheses of each obligation -/

/-- Every field of a bare command that `Encodes` asks of one. -/
theorem witness_OperandAssembly : ∀ op : BitVec 4,
    (Command.bare op).op = op ∧ (Command.bare op).rsvLow = 0 ∧ (Command.bare op).rsvHigh = 0 := by decide

/-- One delivered word for each way of being refused, and one that is not. -/
theorem witness_ReservedWordsRefused :
    (∀ w : CommandWord, (State.reset.deliverNext w).commands = w :: []) ∧
    (0xC#128).extractLsb' 0 4 ∈ [0x0#4, 0x7#4, 0xC#4, 0xD#4, 0xE#4, 0xF#4] ∧
    (0x81#128).extractLsb' 6 2 ≠ 0 ∧ (0x80000001#128).extractLsb' 19 13 ≠ 0 ∧
    next? (step (State.reset.deliverNext 0x9#128)) ≠ none :=
  ⟨fun _ => rfl, by decide, by decide, by decide, by decide⟩

/-- Two words that differ in ignored bits alone (2.6 row 5). -/
theorem witness_EncodeOfDecodeKeepsReadBits :
    decode 0x00000000FFFFFFFF0000002400000013#128 = .ok (.setupPllInt .b 36) ∧
    0x0000000000000000000000240000FF13#128 &&& (Instr.setupPllInt .b 36).readBits =
      0x00000000FFFFFFFF0000002400000013#128 &&& (Instr.setupPllInt .b 36).readBits := ⟨rfl, by decide⟩

theorem witness_AssembledLinesAreCommands :
    WritesNumbers decimal ∧ WritesNumbers hexadecimal ∧
    WritesNumbers (fun v => if v < 10 then decimal v else hexadecimal v) ∧
    assemble "init 25000000, 0x1C0" = some 0x00000000000001C0017D784000000001#128 ∧
    assemble "unpack 0x00,0x03,0x00,0x0A,0x55,0,0,1" = some 0x00000000550000010003000A0000000B#128 :=
  ⟨fun _ => .inl rfl, fun _ => .inr rfl, fun v => by by_cases h : v < 10 <;> simp [h], by decide, by decide⟩

theorem witness_StepRunsDeliveredCommand :
    (State.reset.deliverNext 0x9#128).commands = 0x9#128 :: [] ∧
    decode 0x9#128 = .ok (.serPll .a 0 0 0) ∧ State.reset.commands = [] := ⟨rfl, rfl, rfl⟩

theorem witness_StepGivesOneResponse :
    (State.reset.deliverNext 0x9#128).commands = 0x9#128 :: [] ∧
    ∃ t, step (State.reset.deliverNext 0x9#128) = .next t := ⟨rfl, _, rfl⟩

/-- Every kind of status with which a response is told apart. -/
theorem witness_ResponseRecord :
    EndsWith (.init 0 0) (start devA [err]) .deviceNotFound ∧
    EndsWith (.setupPll .b 24 2 3) (start devInit [err]) .transportError ∧
    EndsWith (.setupMs 0 .a 8 0 1) (start devA [⟨true, 0⟩, err]) .transportError ∧
    (Instr.setupRdiv 0 0).opcode ∉ [0x8#4, 0xB#4, 0x2#4, 0x3#4, 0x4#4, 0x5#4] ∧
    (Instr.unpack Block.zero).opcode ∉ [0x9#4, 0xA#4, 0x2#4, 0x3#4, 0x4#4, 0x5#4] :=
  ⟨⟨_, rfl, by decide⟩, ⟨_, rfl, by decide⟩, ⟨_, rfl, by decide⟩, by decide, by decide⟩

theorem witness_PowerOnState :
    (Instr.setupRdiv 0 0).isDevice = true ∧ (Instr.setupRdiv 0 0).isInit = false ∧
    State.reset.st = State.reset.st ∧
    (start devZero (oks 13 0)).st = State.reset.st ∧
    (∀ k, k < 13 → ((start devZero (oks 13 0)).upcoming k).ok = true) ∧
    (Instr.unpack Block.zero).isDevice = false := by decide

theorem witness_ResetValues :
    EndsWith (.init 25000000 0) (start devA (oks 13 0)) .ok ∧
    EndsWith (.init 25000000 0) (start devA [err]) .deviceNotFound :=
  ⟨⟨_, rfl, by decide⟩, ⟨_, rfl, by decide⟩⟩

/-- All thirteen ok; the first (the probe) and the last are the one that fails. -/
theorem witness_InitOutcomes :
    (∀ k, k < 13 → ((start devA (oks 13 0x80)).upcoming k).ok = true) ∧
    ((start devA [err]).upcoming 0).ok = false ∧
    (∀ j, j < 12 → ((start devA (oks 12 0x80 ++ [err])).upcoming j).ok = true) ∧
    ((start devA (oks 12 0x80 ++ [err])).upcoming 12).ok = false := by decide

/-- The ends of every operand range of SETUP_PLL, one operand beyond each, and each answer. -/
theorem witness_SetupPllOutcomes :
    (start devZero []).st.initialised = false ∧ (start devInit []).st.initialised = true ∧
    PllInRange 15 0 1 ∧ PllInRange 90 0xFFFFF 0xFFFFF ∧ ¬ PllInRange 14 0 1 ∧ ¬ PllInRange 91 0 1 ∧
    ¬ PllInRange 36 0x100000 1 ∧ ¬ PllInRange 36 0 0 ∧ ¬ PllInRange 36 1 0x100000 ∧
    ((start devInit [err]).upcoming 0).ok = false ∧
    ((start devInit [⟨true, 0⟩, err]).upcoming 0).ok = true ∧
    ((start devInit [⟨true, 0⟩, err]).upcoming 1).ok = false ∧
    ((start devInit (oks 2 0)).upcoming 1).ok = true := by decide

theorem witness_SetupPllIntOutcomes :
    (start devInit (oks 2 0)).st.initialised = true ∧ ¬ (15 ≤ (14#32).toNat ∧ (14#32).toNat ≤ 90) ∧
    15 ≤ (15#32).toNat ∧ (90#32).toNat ≤ 90 ∧ ((start devInit (oks 2 0)).upcoming 0).ok = true ∧
    ((start devInit (oks 2 0)).upcoming 1).ok = true := by decide

/-- The ends of every operand range of SETUP_MS, one operand beyond each, an unconfigured PLL, the
frequency check on either side of its limits (2.7 rows 19 to 21), and each answer. -/
theorem witness_SetupMsOutcomes :
    (start devZero []).st.initialised = false ∧ checked.st.initialised = true ∧
    MsInRange 4 0 1 ∧ MsInRange 2048 0xFFFFF 0xFFFFF ∧ ¬ MsInRange 3 0 1 ∧ ¬ MsInRange 2049 0 1 ∧
    ¬ MsInRange 8 0x100000 1 ∧ ¬ MsInRange 8 1 0 ∧ 2 < (3#8).toNat ∧
    checked.st.pllCfg.get .b = false ∧ checked.st.pllCfg.get .a = true ∧
    FoutRejected checked (900000000 * 1 / (4 * 1 + 0)) ∧
    FoutRejected checked (900000000 * 1 / (2048 * 1 + 0)) ∧
    ¬ FoutRejected checked (900000000 * 1 / (8 * 1 + 0)) ∧
    ((start devA [err]).upcoming 0).ok = false ∧
    ((start devA [⟨true, 0⟩, err]).upcoming 0).ok = true ∧
    ((start devA [⟨true, 0⟩, err]).upcoming 1).ok = false ∧
    (checked.upcoming 0).ok = true ∧ (checked.upcoming 1).ok = true := by decide

/-- A divider of 6 puts 900 MHz exactly at `F_OUT_MAX`, which is accepted (2.8). -/
theorem witness_SetupMsIntOutcomes :
    (start devZero []).st.initialised = false ∧ checked.st.initialised = true ∧
    (5#32).toNat ∉ [4, 6, 8] ∧ (6#32).toNat ∈ [4, 6, 8] ∧ checked.st.pllCfg.get .a = true ∧
    ¬ FoutRejected checked ((checked.st.pllHz.get .a).toNat / 6) ∧
    (checked.upcoming 0).ok = true ∧ (checked.upcoming 1).ok = true := by decide

theorem witness_SetupRdivOutcomes :
    (start devZero []).st.initialised = false ∧ (start devInit []).st.initialised = true ∧
    2 < (3#8).toNat ∧ Channel.ch2.number.toNat = 2 ∧ ((start devInit [err]).upcoming 0).ok = false ∧
    ((start devInit [⟨true, 0x1C⟩, err]).upcoming 0).ok = true ∧
    ((start devInit [⟨true, 0x1C⟩, err]).upcoming 1).ok = false ∧
    ((start devInit (oks 2 3)).upcoming 0).ok = true ∧
    ((start devInit (oks 2 3)).upcoming 1).ok = true := by decide

/-- Each mode where it meets the next one, and each broken precondition. -/
theorem witness_PackOutcomes :
    ¬ FracInRange 0 0 ∧ ¬ FracInRange 0x100000 1 ∧ ¬ FracInRange 1 0x100000 ∧
    (FracInRange 0 1 ∧ (0#32).toNat = 0) ∧
    (FracInRange 1 1 ∧ (1#32).toNat ≠ 0 ∧ (1#32).toNat = 1) ∧
    (FracInRange 0xFFFFF 0xFFFFF ∧ (0xFFFFF#32).toNat ≠ 0 ∧
      ¬ ((0xFFFFF#32).toNat = 1 ∧ BlockKind.ms = .ms)) ∧
    (FracInRange 1 1 ∧ ¬ ((1#32).toNat = 1 ∧ BlockKind.pll = .ms)) := by decide

theorem witness_SerMsOutcomes : 2 < (3#8).toNat ∧ 2 < (255#8).toNat := by decide

/-- Both positions of the exponent the spec speaks of, and a block on each side of each equivalence. -/
theorem witness_RoundTrip :
    2 ≤ 5 ∧ 2 ≤ 4 ∧ (0xE3#8).extractLsb' 2 3 = 0 ∧ (0x04#8).extractLsb' 2 3 ≠ 0 ∧
    (0x03#8).extractLsb' 2 6 = 0 ∧ (0x20#8).extractLsb' 2 6 ≠ 0 := by decide

theorem witness_CodecCommandsArePure :
    (Instr.serMs 0 7 0 0 1).isDevice = false ∧
    (start devA []).params = (start devZero (oks 3 7)).params := by decide

theorem witness_FieldsAreTruncatedExactValues :
    4 ≤ 4 ∧ 2048 ≤ 2048 ∧ 0xFFFFE < 0xFFFFF ∧ 0xFFFFF ≤ 0xFFFFF := by decide

/-- Both sides of b ≥ 2. -/
theorem witness_SimplifiedFractionalMode :
    (1 ≠ 0 ∧ 1 ≤ 0xFFFFF ∧ ¬ 2 ≤ 1) ∧ (2 ≠ 0 ∧ 2 ≤ 0xFFFFF) ∧ (0xFFFFF ≠ 0 ∧ 0xFFFFF ≤ 0xFFFFF) := by
  decide

theorem witness_GeneralFractionalMode :
    0xFFFFE ≠ 0 ∧ 1 ≤ 0xFFFFF ∧ ¬ (0xFFFFF = 1 ∧ BlockKind.ms = .ms) ∧ 0xFFFFE < 0xFFFFF ∧
    ¬ (1 = 1 ∧ BlockKind.pll = .ms) := by decide

theorem witness_FieldsRepresentDivider : 4 ≤ 45 ∧ 45 ≤ 2048 ∧ 0 < 1 ∧ 1 < 2 ∧ 2 ≤ 0xFFFFF := by decide

theorem witness_RecordedFrequencyIsExact :
    EndsWith (.setupPll .a 20 0xFFFFF 2) (start devInit (oks 2 0)) .ok ∧
    EndsWith (.setupPllInt .a 15) (start devInit (oks 2 0)) .ok ∧
    ∃ t, exec (.setupPllInt .b 90) (start devA (oks 2 0)) = .next t ∧
      t.st.pllHz.get .b ≠ devA.pllHz.get .b :=
  ⟨⟨_, rfl, by decide⟩, ⟨_, rfl, by decide⟩, ⟨_, rfl, by decide⟩⟩

theorem witness_UnconfiguredPllIsRefused :
    devA.initialised = true ∧ devA.pllCfg.get .b = false ∧
    (∀ ch p a b c, Instr.setupRdiv 0 0 ≠ .setupMs ch p a b c) ∧
    (∀ ch p a, Instr.setupRdiv 0 0 ≠ .setupMsInt ch p a) ∧
    ∃ t, exec (.setupRdiv 0 0) (start devA []) = .next t :=
  ⟨by decide, by decide, by intros; simp, by intros; simp, _, rfl⟩

theorem witness_OutputFrequencyDiagnostic :
    EndsWith (.setupMs 0 .a 4 0 1) (start devA (oks 2 0)) .ok ∧
    EndsWith (.setupMs 0 .a 8 0 1) (start devA [err]) .transportError ∧
    EndsWith (.setupMsInt 0 .a 8) (start devA (oks 2 0)) .ok ∧
    EndsWith (.setupMsInt 0 .a 4) (start devA [err]) .transportError :=
  ⟨⟨_, rfl, by decide⟩, ⟨_, rfl, by decide⟩, ⟨_, rfl, by decide⟩, ⟨_, rfl, by decide⟩⟩

/-- 225,000,000 is above `F_OUT_MAX`, 439,453 below `F_OUT_MIN`, 150,000,000 exactly at the limit. -/
theorem witness_OutputRangeCheck :
    checked.st.initialised = true ∧ MsInRange 4 0 1 ∧ MsInRange 2048 0 1 ∧ MsInRange 6 0 1 ∧
    (6#32).toNat ∈ [4, 6, 8] ∧
    checked.st.pllCfg.get .a = true ∧ checked.params.enforceFoutRange = true ∧
    checked.params.fOutMax < 900000000 * 1 / (4 * 1 + 0) ∧
    900000000 * 1 / (2048 * 1 + 0) < checked.params.fOutMin ∧
    (checked.params.fOutMin ≤ 900000000 * 1 / (6 * 1 + 0) ∧
      900000000 * 1 / (6 * 1 + 0) ≤ checked.params.fOutMax) ∧
    (start devA []).params.enforceFoutRange = false := by decide

theorem witness_ClockControlByte :
    EndsWith (.setupMs Channel.ch2.number .a 45 1 2) (start devA (oks 2 0)) .ok ∧
    EndsWith (.setupMsInt Channel.ch0.number .a 8) (start devA (oks 2 0)) .ok ∧
    (start devA (oks 2 0)).params.clkctlLow = 0x0F := ⟨⟨_, rfl, by decide⟩, ⟨_, rfl, by decide⟩, rfl⟩

theorem witness_SoftResetOfBothPlls :
    (Instr.setupPll .a 36 0 1).configures = some .a ∧
    EndsWith (.setupPll .a 36 0 1) (start devInit (oks 2 0)) .ok ∧
    (Instr.init 0 0).configures = none ∧ EndsWith (.init 0 0) (start devInit (oks 13 0)) .ok :=
  ⟨rfl, ⟨_, rfl, by decide⟩, rfl, ⟨_, rfl, by decide⟩⟩

/-- Section 1.5: `rdiv 0, 3`, then a PLL, then `ms 0, A, 8, 0, 1`; and the same after an INIT. -/
theorem witness_ExponentSurvivesToMultisynth :
    paramsSound (start devA []).params ∧
    (∀ j ∈ [Instr.setupPllInt .a 36], j.isInit = false ∧ ∀ e', j ≠ .setupRdiv Channel.ch0.number e') ∧
    (∃ t u v, exec (.setupRdiv Channel.ch0.number 3) (start devA (oks 6 0)) = .next t ∧
      t.lastStatus = some .ok ∧ execAll [.setupPllInt .a 36] t = .next u ∧
      exec (.setupMs Channel.ch0.number .a 8 0 1) u = .next v ∧ v.lastStatus = some .ok) ∧
    (∃ t u v, exec (.init 25000000 0) (start devZero (oks 17 0)) = .next t ∧
      t.lastStatus = some .ok ∧ execAll [.setupPllInt .a 36] t = .next u ∧
      exec (.setupMs Channel.ch0.number .a 8 0 1) u = .next v ∧ v.lastStatus = some .ok) :=
  ⟨by decide, by simp [Instr.isInit], ⟨_, _, _, rfl, by decide, rfl, rfl, by decide⟩,
    ⟨_, _, _, rfl, by decide, rfl, rfl, by decide⟩⟩

theorem witness_SharedParameter3Byte :
    (start devA (oks 2 0)).params.rdivShift = 5 ∧
    EndsWith (.setupMs Channel.ch1.number .a 8 0 1) (start devA (oks 2 0)) .ok ∧
    EndsWith (.setupRdiv Channel.ch2.number 5) (start devA (oks 2 0x1C)) .ok :=
  ⟨rfl, ⟨_, rfl, by decide⟩, ⟨_, rfl, by decide⟩⟩

/-- Each status, by a command that raises it; and two runs that differ in their answers alone, whose burst
and whose reset write fails, both with TransportError. -/
theorem witness_StatusKinds :
    EndsWith (.unpack Block.zero) State.reset .ok ∧
    EndsWith (.init 0 0) (start devA [err]) .deviceNotFound ∧
    EndsWith (.setupRdiv 3 0) State.reset .deviceNotInitialised ∧
    EndsWith (.serMs 3 0 0 0 1) State.reset .invalidParameter ∧
    EndsWith (.setupPll .a 36 0 1) (start devA [err]) .transportError ∧
    EndsWith (.setupPll .a 36 0 1) (start devA [⟨true, 0⟩, err]) .transportError ∧
    (start devA [err]).st = (start devA [⟨true, 0⟩, err]).st ∧
    (start devA [err]).params = (start devA [⟨true, 0⟩, err]).params :=
  ⟨⟨_, rfl, by decide⟩, ⟨_, rfl, by decide⟩, ⟨_, rfl, by decide⟩, ⟨_, rfl, by decide⟩,
    ⟨_, rfl, by decide⟩, ⟨_, rfl, by decide⟩, rfl, rfl⟩

theorem witness_NotInitialisedGate : EndsWith (.setupPll .a 0 0 0) State.reset .deviceNotInitialised :=
  ⟨_, rfl, by decide⟩

theorem witness_InvalidParameterCauses :
    (∃ t, exec (.setupMs 3 .a 8 0 1) (start devA []) = .next t) ∧
    (start devA []).st.initialised = true ∧ InvalidCause (.setupMs 3 .a 8 0 1) (start devA []) ∧
    ¬ InvalidCause (.setupRdiv 2 0) (start devA []) :=
  ⟨⟨_, rfl⟩, rfl, .inl (by decide), by simp [InvalidCause]⟩

/-- Every premise of the order of priority. -/
theorem witness_StatusPriority :
    ((start devA [err]).upcoming 0).ok = false ∧
    ((start devA [⟨true, 0⟩, err]).upcoming 0).ok = true ∧
    EndsWith (.init 0 0) (start devA [⟨true, 0⟩, err]) .transportError ∧
    EndsWith (.init 0 0) (start devA (oks 13 0)) .ok ∧
    EndsWith (.setupMs 3 .a 0 0 0) State.reset .deviceNotInitialised ∧
    InvalidCause (.setupMs 3 .a 8 0 1) (start devA [err]) ∧
    ¬ InvalidCause (.setupRdiv 0 5) (start devA [err]) ∧
    EndsWith (.setupRdiv 0 5) (start devA [err]) .transportError ∧
    EndsWith (.setupRdiv 0 5) (start devA (oks 2 0)) .ok :=
  ⟨by decide, by decide, ⟨_, rfl, by decide⟩, ⟨_, rfl, by decide⟩, ⟨_, rfl, by decide⟩,
    .inl (by decide), by simp [InvalidCause], ⟨_, rfl, by decide⟩, ⟨_, rfl, by decide⟩⟩

theorem witness_ErrorsArePrecise :
    EndsWith (.setupRdiv 3 0) (start devInit []) .invalidParameter ∧
    EndsWith (.setupPll .a 36 0 1) (start devInit [⟨true, 0⟩, err]) .transportError ∧
    EndsWith (.init 0 0) (start devInit (oks 12 0 ++ [err])) .transportError :=
  ⟨⟨_, rfl, by decide⟩, ⟨_, rfl, by decide⟩, ⟨_, rfl, by decide⟩⟩

/-- A failed burst and a failed single write. -/
theorem witness_FailedTransactionLeavesTargetsUnknown :
    (start devA [err]).chip.wf ∧
    (∃ t, exec (.setupMs 0 .a 8 0 1) (start devA [err]) = .next t ∧
      ((newTrace (start devA [err]) t).getLast?.map (·.reply)) = some .err) ∧
    (∃ t, exec (.setupMs 0 .a 8 0 1) (start devA [⟨true, 0⟩, err]) = .next t ∧
      ((newTrace (start devA [⟨true, 0⟩, err]) t).getLast?.map (·.reply)) = some .err) :=
  ⟨by decide, ⟨_, rfl, by decide⟩, ⟨_, rfl, by decide⟩⟩

theorem witness_StateWrittenOnlyOnSuccess :
    EndsWith (.setupRdiv 0 5) (start devA [err]) .transportError ∧
    EndsWith (.init 0 0) (start devA [err]) .deviceNotFound := ⟨⟨_, rfl, by decide⟩, ⟨_, rfl, by decide⟩⟩

theorem witness_WritersOfDeviceState :
    devA.pllCfg.get .a = true ∧
    (∃ t, exec (.setupPllInt .b 90) (start devA (oks 2 0)) = .next t ∧
      t.st.pllCfg.get .b ≠ devA.pllCfg.get .b) ∧
    (∃ t, exec (.setupRdiv 2 5) (start devA (oks 2 0)) = .next t ∧
      t.st.rdiv.get .ch2 ≠ devA.rdiv.get .ch2) := ⟨rfl, ⟨_, rfl, by decide⟩, ⟨_, rfl, by decide⟩⟩

theorem witness_LifecycleTransitions :
    EndsWith (.init 0 0) (start devA (oks 13 0)) .ok ∧
    EndsWith (.init 0 0) (start devA [err]) .deviceNotFound ∧
    (Instr.setupPllInt .b 90).configures = some .b ∧
    EndsWith (.setupPllInt .b 90) (start devA (oks 2 0)) .ok ∧
    (Instr.setupRdiv 0 0).configures = none :=
  ⟨⟨_, rfl, by decide⟩, ⟨_, rfl, by decide⟩, rfl, ⟨_, rfl, by decide⟩, rfl⟩

theorem witness_OnlyListedRegistersAccessed :
    (∃ t, exec (.setupMs 2 .a 8 0 1) (start devA (oks 2 0)) = .next t ∧
      ⟨.writeByte 18 0x4F, .ok⟩ ∈ newTrace (start devA (oks 2 0)) t ∧
      ((newTrace (start devA (oks 2 0)) t).head?.map (·.request.targets)) =
        some [58, 59, 60, 61, 62, 63, 64, 65]) ∧
    (∃ t, exec (.setupRdiv 2 5) (start devA (oks 2 3)) = .next t ∧
      ⟨.readByte 60, .byte 3⟩ ∈ newTrace (start devA (oks 2 3)) t) ∧
    (∃ t, exec (.init 0 0) (start devA (oks 13 3)) = .next t ∧
      ⟨.probe, .ok⟩ ∈ newTrace (start devA (oks 13 3)) t ∧
      ⟨.readByte 149, .byte 3⟩ ∈ newTrace (start devA (oks 13 3)) t) :=
  ⟨⟨_, rfl, by decide, by decide⟩, ⟨_, rfl, by decide⟩, ⟨_, rfl, by decide, by decide⟩⟩

theorem witness_OtherRegistersUnchanged :
    (∃ t, exec (.setupMs 2 .a 8 0 1) (start devA (oks 2 0)) = .next t) ∧
    57 ∉ (Instr.setupMs 2 .a 8 0 1).mayWrite ∧ 66 ∉ (Instr.setupMs 2 .a 8 0 1).mayWrite ∧
    17 ∉ (Instr.setupMs 2 .a 8 0 1).mayWrite := ⟨⟨_, rfl⟩, by decide, by decide, by decide⟩

theorem witness_WrittenRegistersReadBack :
    EndsWith (.init 0 0) (start devA (oks 13 0)) .ok ∧
    EndsWith (.setupPllInt .b 90) (start devA (oks 2 0)) .ok ∧
    EndsWith (.setupMs Channel.ch2.number .a 8 0 1) (start devA (oks 2 0)) .ok ∧
    EndsWith (.setupMsInt Channel.ch0.number .a 4) (start devA (oks 2 0)) .ok ∧
    EndsWith (.setupRdiv Channel.ch1.number 7) (start devA (oks 2 0x1F)) .ok :=
  ⟨⟨_, rfl, by decide⟩, ⟨_, rfl, by decide⟩, ⟨_, rfl, by decide⟩, ⟨_, rfl, by decide⟩, ⟨_, rfl, by decide⟩⟩

/-- Two states that differ in every output. -/
theorem witness_OutputsAreNeverReadBack :
    let s := start devA (oks 2 0)
    let s' := { s with chip := [(44, 0xFF)], trace := [⟨.probe, .ok⟩], responses := [Response.blank], commands := [0] }
    s.st = s'.st ∧ s.params = s'.params ∧ s.answers = s'.answers ∧ s.draws = s'.draws ∧
    ∃ t, exec (.setupRdiv 0 5) s = .next t := ⟨rfl, rfl, rfl, rfl, _, rfl⟩

theorem witness_NothingTouchesChipBeforeInit :
    State.reset.st.initialised = false ∧
    (∀ i ∈ [Instr.setupMs 0 .a 8 0 1, .pack .ms 8 0 1], i.isInit = false) := by decide

theorem witness_OutputsStayDisabled :
    (∃ t u, exec (.init 0 0) (start devA (oks 15 0)) = .next t ∧ t.lastStatus = some .ok ∧
      execAll [.setupPllInt .a 36] t = .next u) ∧
    (∀ i ∈ [Instr.setupPllInt .a 36], i.isInit = false) ∧
    (∀ i ∈ [Instr.setupPllInt .a 36], 16 + 7 ∉ i.mayWrite) ∧
    (start devA (oks 15 0)).params.initPdnByte.getLsbD 7 = true :=
  ⟨⟨_, _, rfl, by decide, rfl⟩, by decide, by decide, by decide⟩

theorem witness_BootSequence :
    PllInRange 90 0xFFFFF 1 ∧ MsInRange 4 0 1 ∧
    (start devZero (oks 17 0)).params.enforceFoutRange = false ∧
    (∀ k, k < 17 → ((start devZero (oks 17 0)).upcoming k).ok = true) := by decide

/-- A state in which every invariant holds and a command waits. -/
def running : State := (start devZero (oks 13 0)).deliverNext 0x1#128

theorem witness_StepKeepsInvariants :
    deviceConsistent running.st ∧ running.chip.wf ∧ chipFollowsTrace running ∧ traceAllowed running ∧
    ∃ t, step running = .next t :=
  ⟨⟨fun _ => rfl, fun p _ => by cases p <;> rfl, fun p => by cases p <;> decide⟩, by decide, by decide,
    fun x h => absurd h (List.not_mem_nil), _, rfl⟩

theorem witness_ChipImageIsTrue :
    (start devA (oks 2 3)).chip.wf ∧ (start devA (oks 2 3)).chip.trueOf (fun _ => 0) ∧
    ∃ t c', exec (.setupRdiv 0 5) (start devA (oks 2 3)) = .next t ∧
      chipSteps (fun _ => 0) c' (newTrace (start devA (oks 2 3)) t) := by
  refine ⟨by decide, fun a v h => by simp [start, State.reset] at h, _,
    fun n => if n = 44 then 0xA3 else 0, rfl, ?_⟩
  refine ⟨_, rfl, _, ⟨fun n hn => ?_, fun _ => rfl⟩, rfl⟩
  exact if_neg hn

end Sys2Proof.Tests
end

section
/-! What a command leaves in `st`, by the status it ends with (R23, R24), read off `exec_inversion`. -/

namespace Sys2Proof.Machine

theorem exec_next_inversion {i : Instr} {s t : State} (h : exec i s = .next t) :
    ∃ reqs resp d, t = s.ends reqs resp d ∧ CommandOutcome i s reqs resp d ∧ RequestsListed i reqs := by
  obtain ⟨reqs, resp, d, e, outcome, listed⟩ := exec_inversion i s
  exact ⟨reqs, resp, d, Host.Outcome.next.inj (h.symm.trans e), outcome, listed⟩

section Outcome
variable {i : Instr} {s : State} {reqs : List Request} {resp : Response} {d : Device}

theorem CommandOutcome.deviceAfterOk (o : CommandOutcome i s reqs resp d) (h : resp.status = .ok) :
    DeviceAfterOk i s d := by
  cases o with
  | ok _ _ _ _ device => exact device
  | notInitialised _ response => simp [response] at h
  | invalid _ response => simp [response] at h
  | transportError _ _ status => simp [status] at h
  | notFound _ response => simp [response] at h

theorem CommandOutcome.device_of_status_ne_ok (o : CommandOutcome i s reqs resp d)
    (h : resp.status ≠ .ok) : d = if i.isInit then Device.powerOn else s.st := by
  cases o with
  | ok status => exact absurd status h
  | notInitialised _ _ _ notInit _ device => simp [notInit, device]
  | invalid _ _ _ _ notInit device => simp [notInit, device]
  | transportError _ _ _ _ _ _ _ _ _ device => exact device
  | notFound _ _ _ isInit device => simp [isInit, device]

theorem DeviceAfterOk.init_clears (h : DeviceAfterOk i s d) (hi : i.isInit = true) :
    d.pllCfg = ⟨false, false⟩ ∧ d.pllHz = ⟨0, 0⟩ ∧ d.rdiv = ⟨0, 0, 0⟩ := by
  cases i with
  | init f load =>
    obtain rfl : d = ⟨true, f, ⟨false, false⟩, ⟨0, 0⟩, ⟨0, 0, 0⟩⟩ := h
    exact ⟨rfl, rfl, rfl⟩
  | _ => exact absurd hi Bool.false_ne_true

end Outcome

section Exec
variable {i : Instr} {s t : State}

theorem exec_st_of_ok (h : exec i s = .next t) (hok : t.lastStatus = some .ok) :
    DeviceAfterOk i s t.st := by
  obtain ⟨_, _, _, rfl, outcome, -⟩ := exec_next_inversion h
  exact outcome.deviceAfterOk (by simpa using hok)

theorem exec_st_of_error (h : exec i s = .next t) (herr : t.lastStatus ≠ some .ok) :
    t.st = if i.isInit then Device.powerOn else s.st := by
  obtain ⟨_, _, _, rfl, outcome, -⟩ := exec_next_inversion h
  exact outcome.device_of_status_ne_ok (by simpa using herr)

theorem exec_responds (h : exec i s = .next t) : ∃ r, t.responses = s.responses ++ [r] := by
  obtain ⟨_, resp, _, rfl, -⟩ := exec_next_inversion h
  exact ⟨resp, State.ends_responses ..⟩

theorem exec_init_clears (h : exec i s = .next t) (hi : i.isInit = true) :
    t.st.pllCfg = ⟨false, false⟩ ∧ t.st.pllHz = ⟨0, 0⟩ ∧ t.st.rdiv = ⟨0, 0, 0⟩ := by
  by_cases hok : t.lastStatus = some .ok
  · exact (exec_st_of_ok h hok).init_clears hi
  · rw [exec_st_of_error h hok, if_pos hi]
    exact ⟨rfl, rfl, rfl⟩

end Exec

/-- Settles O12: the two cases of INIT's status, each the outcome of `exec_inversion` for INIT. -/
theorem resetValues : Obligations.ResetValues :=
  ⟨rfl, fun _ _ _ _ h => ⟨exec_st_of_ok h, exec_st_of_error h⟩⟩

/-- Settles O44: `st` after an error by `exec_st_of_error`, INIT's records whatever its status by
`exec_init_clears`. -/
theorem stateWrittenOnlyOnSuccess : Obligations.StateWrittenOnlyOnSuccess := by
  intro i s t h
  refine ⟨fun hi herr => ?_, fun hi herr => ?_, exec_init_clears h, exec_responds h⟩
  · simpa [hi] using exec_st_of_error h herr
  · simpa [hi] using exec_st_of_error h herr

end Sys2Proof.Machine
end

section
/-! The fields of a command word as numbers, and which words are commands (R40 to R43). -/

namespace Sys2Proof

/-- A concatenation as the number its two parts write. -/
theorem toNat_append_eq {v w : Nat} (x : BitVec v) (y : BitVec w) :
    (x ++ y).toNat = x.toNat * 2 ^ w + y.toNat := by
  rw [BitVec.toNat_append, ← Nat.shiftLeft_add_eq_or_of_lt y.isLt, Nat.shiftLeft_eq]

/-- A range of bits as exact division and remainder of the word. -/
theorem toNat_slice {w : Nat} (x : BitVec w) (k n : Nat) :
    (x.extractLsb' k n).toNat = x.toNat / 2 ^ k % 2 ^ n := by
  rw [BitVec.extractLsb'_toNat, Nat.shiftRight_eq_div_pow]

/-- Two adjacent ranges of bits make the range that covers both. -/
theorem slice_append_slice {w : Nat} (x : BitVec w) (k n m : Nat) :
    x.extractLsb' (k + n) m ++ x.extractLsb' k n = x.extractLsb' k (m + n) :=
  BitVec.extractLsb'_append_extractLsb'_eq_extractLsb' rfl

/-- The seven low fields, put back together from the top, are `cmd[31:0]` (R40). -/
theorem Command.control_ofWord (w : CommandWord) : (Command.ofWord w).control = w.extractLsb' 0 32 := by
  unfold Command.control Command.ofWord
  dsimp only
  rw [slice_append_slice w 16 3 13, slice_append_slice w 8 8 16, slice_append_slice w 6 2 24,
    slice_append_slice w 5 1 26, slice_append_slice w 4 1 27, slice_append_slice w 0 4 28]

theorem Command.toWord_ofWord (w : CommandWord) : (Command.ofWord w).toWord = w := by
  rw [Command.toWord, Command.control_ofWord]
  unfold Command.ofWord
  dsimp only
  rw [slice_append_slice w 64 32 32, slice_append_slice w 32 32 64, slice_append_slice w 0 32 96]
  exact slice_whole

theorem Command.toNat_toWord (c : Command) : c.toWord.toNat =
    c.c.toNat * 2 ^ 96 + c.b.toNat * 2 ^ 64 + c.a.toNat * 2 ^ 32 + c.control.toNat := by
  simp only [Command.toWord, toNat_append_eq]
  ring

/-- The mask of the opcode table keeps the opcode and the two reserved fields (R40). -/
theorem Command.control_and_mask (c : Command) : c.control &&& 0xFFF800CF#32 =
    c.rsvHigh ++ 0#3 ++ 0#8 ++ c.rsvLow ++ 0#1 ++ 0#1 ++ c.op := by
  have mask : 0xFFF800CF#32 =
      BitVec.allOnes 13 ++ 0#3 ++ 0#8 ++ BitVec.allOnes 2 ++ 0#1 ++ 0#1 ++ BitVec.allOnes 4 := rfl
  rw [mask, Command.control]
  iterate 6 rw [BitVec.and_append]
  simp only [BitVec.and_allOnes, BitVec.and_zero]

/-- The opcodes that R43 reserves. -/
abbrev reservedOpcodes : List (BitVec 4) := [0x0#4, 0x7#4, 0xC#4, 0xD#4, 0xE#4, 0xF#4]

/-- The opcodes that R42 assigns are all but those that R43 reserves. -/
theorem Command.opAssigned_iff (c : Command) :
    c.opAssigned = true ↔ c.op ∉ reservedOpcodes := by
  have all : ∀ op : BitVec 4, (Command.bare op).opAssigned = true ↔ op ∉ reservedOpcodes := by
    decide
  exact all c.op

theorem Command.wellFormed_iff (c : Command) : c.wellFormed = true ↔
    c.op ∉ reservedOpcodes ∧ c.rsvLow = 0 ∧ c.rsvHigh = 0 := by
  simp only [Command.wellFormed, Bool.and_eq_true, Command.opAssigned_iff, Command.lowReservedZero,
    Command.highReservedZero, beq_iff_eq, and_assoc]

theorem mem_assigned_of_not_reserved {op : BitVec 4} (h : op ∉ reservedOpcodes) :
    op ∈ [0x1#4, 0x2#4, 0x3#4, 0x4#4, 0x5#4, 0x6#4, 0x8#4, 0x9#4, 0xA#4, 0xB#4] := by
  revert op; decide

/-- Well-formed fields are a command of their opcode: one arm of R41 per assigned opcode. -/
theorem Command.toInstr_of_wellFormed {c : Command} (h : c.wellFormed = true) :
    ∃ i, c.toInstr = .ok i ∧ i.opcode = c.op := by
  obtain ⟨hop, hlow, hhigh⟩ := c.wellFormed_iff.mp h
  replace hop := mem_assigned_of_not_reserved hop
  obtain ⟨op, pll, kind, rsvLow, ch, e, rsvHigh, a, b, d⟩ := c
  subst hlow hhigh
  simp only [List.mem_cons, List.not_mem_nil, or_false] at hop
  rcases hop with rfl | rfl | rfl | rfl | rfl | rfl | rfl | rfl | rfl | rfl <;> exact ⟨_, rfl, rfl⟩

/-- Fields that are not well formed are rejected before any operand is read (R43). -/
theorem Command.toInstr_of_not_wellFormed {c : Command} (h : ¬ c.wellFormed = true) :
    ∃ e, c.toInstr = .error e := by
  cases hop : c.opAssigned with
  | false => exact ⟨_, by rw [Command.toInstr, hop]; rfl⟩
  | true =>
    cases hrsv : c.lowReservedZero && c.highReservedZero with
    | false => exact ⟨_, by rw [Command.toInstr, hop, hrsv]; rfl⟩
    | true => exact absurd (by rw [Command.wellFormed, Bool.and_assoc, hop, hrsv]; rfl) h

/-- A word that decodes is well formed and carries its command's opcode. -/
theorem wellFormed_of_decode {w : CommandWord} {i : Instr} (h : decode w = .ok i) :
    (Command.ofWord w).wellFormed = true ∧ (Command.ofWord w).op = i.opcode := by
  by_cases hw : (Command.ofWord w).wellFormed = true
  · obtain ⟨j, hj, hop⟩ := Command.toInstr_of_wellFormed hw
    obtain rfl : j = i := Except.ok.inj (hj.symm.trans h)
    exact ⟨hw, hop.symm⟩
  · obtain ⟨e, he⟩ := Command.toInstr_of_not_wellFormed hw
    exact absurd (he.symm.trans h) nofun

/-- `Encodes` read on the fields: what they decode to with the opcode and the reserved fields given. -/
theorem encodes_of_toInstr {op : BitVec 4} {f : Command → Instr}
    (h : ∀ pll kind ch e a b c, (Command.mk op pll kind 0 ch e 0 a b c).toInstr =
      .ok (f ⟨op, pll, kind, 0, ch, e, 0, a, b, c⟩)) : Encodes op f := by
  rintro ⟨_, pll, kind, _, ch, e, _, a, b, c⟩ rfl rfl rfl
  rw [decode, Command.ofWord_toWord]
  exact h pll kind ch e a b c

/-- A word that decodes shows, under the mask of the opcode table, its command's opcode and nothing else. -/
theorem and_mask_of_decode {w : CommandWord} {i : Instr} (h : decode w = .ok i) :
    w.setWidth 32 &&& 0xFFF800CF#32 = i.opcode.setWidth 32 := by
  obtain ⟨hw, hop⟩ := wellFormed_of_decode h
  obtain ⟨-, hlow, hhigh⟩ := (Command.wellFormed_iff _).mp hw
  have only_op : ∀ op : BitVec 4,
      0#13 ++ 0#3 ++ 0#8 ++ 0#2 ++ 0#1 ++ 0#1 ++ op = op.setWidth 32 := by decide
  calc w.setWidth 32 &&& 0xFFF800CF#32
      = (Command.ofWord w).control &&& 0xFFF800CF#32 := by
        rw [Command.control_ofWord, BitVec.setWidth_eq_extractLsb' (by decide)]
    _ = 0#13 ++ 0#3 ++ 0#8 ++ 0#2 ++ 0#1 ++ 0#1 ++ i.opcode := by
        rw [Command.control_and_mask, hlow, hhigh, hop]
        rfl
    _ = i.opcode.setWidth 32 := only_op i.opcode

/-- Settles O1: each field by `toNat_slice`, the word from its fields by `toWord_ofWord` and
`toNat_toWord`, the mask by `and_mask_of_decode`. -/
theorem commandWordLayout : Obligations.CommandWordLayout := by
  refine ⟨fun w => ⟨?_, toNat_slice w 4 1, toNat_slice w 5 1, toNat_slice w 6 2, toNat_slice w 8 8,
    toNat_slice w 16 3, toNat_slice w 19 13, toNat_slice w 32 32, toNat_slice w 64 32, ?_,
    Command.toWord_ofWord w⟩, Command.toNat_toWord, fun _ _ => and_mask_of_decode⟩
  · exact (toNat_slice w 0 4).trans (by rw [Nat.pow_zero, Nat.div_one])
  · exact (toNat_slice w 96 32).trans (Nat.mod_eq_of_lt (by omega))

/-- Settles O2: each row of R41 is the arm of `toInstr` for its opcode, whatever the other fields hold. -/
theorem operandAssembly : Obligations.OperandAssembly := by
  refine ⟨?_, ?_, ?_, ?_, ?_, ?_, ?_, ?_, ?_, ?_⟩ <;> exact encodes_of_toInstr fun _ _ _ _ _ _ _ => rfl

end Sys2Proof

namespace Sys2Proof.Machine

theorem step_of_decode_ok {s : State} {w : CommandWord} {rest : List CommandWord} {i : Instr}
    (hs : s.commands = w :: rest) (h : decode w = .ok i) :
    step s = exec i { s with commands := rest } := by
  simp only [step, State.fetch, hs, h]

theorem step_of_decode_error {s : State} {w : CommandWord} {rest : List CommandWord} {e : DecodeError}
    (hs : s.commands = w :: rest) (h : decode w = .error e) : step s = .refused (refusalOf e) := by
  simp only [step, State.fetch, hs, h]

/-- A delivered word is refused exactly when its fields are not well formed: a command never is. -/
theorem step_refused_iff {s : State} {w : CommandWord} {rest : List CommandWord}
    (hs : s.commands = w :: rest) :
    (∃ r, step s = .refused r) ↔ ¬ (Command.ofWord w).wellFormed = true := by
  constructor
  · rintro ⟨r, hr⟩ hw
    obtain ⟨i, hi, -⟩ := Command.toInstr_of_wellFormed hw
    obtain ⟨_, _, _, hnext, -⟩ := exec_inversion i { s with commands := rest }
    exact absurd ((step_of_decode_ok hs hi).symm.trans hr) (by rw [hnext]; nofun)
  · intro hw
    obtain ⟨e, he⟩ := Command.toInstr_of_not_wellFormed hw
    exact ⟨_, step_of_decode_error hs he⟩

/-- Settles O3: by `step_refused_iff`, and R43's checks on the fields as conditions on the bits. -/
theorem reservedWordsRefused : Obligations.ReservedWordsRefused := by
  intro s w rest hs
  rw [step_refused_iff hs, Command.wellFormed_iff]
  rw [not_and_or, not_and_or, not_not]
  rfl

end Sys2Proof.Machine
end

section
/-! What each command requests and reports (R44, R69 to R74): `exec_inversion` with the requests and the
response of every outcome named. -/

namespace Sys2Proof.Machine

/-- The requests of the command when every transaction answers `ok` (R69 to R74). -/
def plannedRequests (i : Instr) (s : State) : List Request :=
  match i with
  | .init _ load => initRequests s.params.initPdnByte load (s.upcoming 11).byte
  | .setupPll p a b c => setupPllRequests p a b c
  | .setupPllInt p a => setupPllRequests p a 0 1
  | .setupMs ch p a b d => (channelOf ch).elim [] fun c => setupMsRequests c p a b d s
  | .setupMsInt ch p a => (channelOf ch).elim [] fun c => setupMsRequests c p a 0 1 s
  | .setupRdiv ch e => (channelOf ch).elim [] fun c => setupRdivRequests c e s
  | .pack _ _ _ _ => []
  | .serPll _ _ _ _ => []
  | .serMs _ _ _ _ _ => []
  | .unpack _ => []

/-- The response of the command when it completes with status OK (R44). -/
def completeResponse (i : Instr) (s : State) : Response :=
  match i with
  | .init _ _ => Response.blank
  | .setupPll p a b c => { setupPllResponse p a b c with
      freq := BitVec.ofNat 64 (pllHzOf s.st.xtalHz.toNat a.toNat b.toNat c.toNat) }
  | .setupPllInt p a => { setupPllResponse p a 0 1 with
      freq := BitVec.ofNat 64 (pllHzOf s.st.xtalHz.toNat a.toNat (0 : Operand).toNat (1 : Operand).toNat) }
  | .setupMs ch p a b d => (channelOf ch).elim Response.blank fun c => setupMsResponse c p a b d s
  | .setupMsInt ch p a => (channelOf ch).elim Response.blank fun c => setupMsResponse c p a 0 1 s
  | .setupRdiv _ _ => Response.blank
  | .pack k a b c => Response.blank.withFields (computeFields k a.toNat b.toNat c.toNat)
  | .serPll p x y z => Response.blank.withBlock (pllBase p) (serPll (fieldsOfOperands x y z))
  | .serMs ch e x y z => (channelOf ch).elim Response.blank fun c =>
      Response.blank.withBlock (msBase c) (serMs s.params.rdivShift (fieldsOfOperands x y z) e)
  | .unpack d => Response.blank.withFields (unpackFields d)

/-- The response of the command when it ends with status `e` (R44). -/
def responseWith (i : Instr) (s : State) (e : Status) : Response :=
  match e with
  | .ok => completeResponse i s
  | .transportError => { completeResponse i s with
      status := .transportError
      freq := if i.configures = none then (completeResponse i s).freq else 0 }
  | .deviceNotFound => { Response.blank with status := .deviceNotFound }
  | .deviceNotInitialised => { Response.blank with status := .deviceNotInitialised }
  | .invalidParameter => { Response.blank with status := .invalidParameter }

/-- The command ends with status `e` and its response, after requests that begin its plan, and with OK
after the whole plan. -/
def EndsByPlan (i : Instr) (s : State) (t : State) : Prop :=
  ∃ reqs e d, t = s.ends reqs (responseWith i s e) d ∧ reqs <+: plannedRequests i s ∧
    (e = .ok → reqs = plannedRequests i s)

section EndsByPlan
variable {i : Instr} {s t : State} {d : Device}

theorem EndsByPlan.ok (h : t = s.ends (plannedRequests i s) (completeResponse i s) d) :
    EndsByPlan i s t := ⟨_, .ok, d, h, List.prefix_rfl, fun _ => rfl⟩

theorem EndsByPlan.error {reqs : List Request} {e : Status} (he : e ≠ .ok)
    (hr : reqs <+: plannedRequests i s) (h : t = s.ends reqs (responseWith i s e) d) :
    EndsByPlan i s t := ⟨reqs, e, d, h, hr, fun h => absurd h he⟩

end EndsByPlan

theorem setupPll_endsByPlan (p : PllId) (a b c : Operand) (s : State) :
    EndsByPlan (.setupPll p a b c) s (setupPll p a b c s) := by
  rcases setupPll_cases p a b c s with ⟨-, e⟩ | ⟨-, -, e⟩ | ⟨-, -, -, e⟩ | ⟨-, -, -, -, e⟩ |
    ⟨-, -, -, -, e⟩
  · exact .error (e := .deviceNotInitialised) (by decide) List.nil_prefix e
  · exact .error (e := .invalidParameter) (by decide) List.nil_prefix e
  · exact .error (e := .transportError) (by decide) (List.take_prefix 1 _) e
  · exact .error (e := .transportError) (by decide) List.prefix_rfl e
  · exact .ok e

theorem setupMs_endsByPlan (ch : Byte) (p : PllId) (a b d : Operand) (s : State) :
    EndsByPlan (.setupMs ch p a b d) s (setupMs ch p a b d s) := by
  rcases setupMs_cases ch p a b d s with ⟨-, e⟩ | ⟨-, -, e⟩ | ⟨-, -, -, -, c, rfl, outcome⟩
  · exact .error (e := .deviceNotInitialised) (by decide) List.nil_prefix e
  · exact .error (e := .invalidParameter) (by decide) List.nil_prefix e
  · have planned : plannedRequests (.setupMs c.number p a b d) s = setupMsRequests c p a b d s := by
      simp [plannedRequests]
    have complete : completeResponse (.setupMs c.number p a b d) s = setupMsResponse c p a b d s := by
      simp [completeResponse]
    rw [← planned, ← complete] at outcome
    rcases outcome with ⟨-, e⟩ | ⟨-, -, e⟩ | ⟨-, -, e⟩
    · exact .error (e := .transportError) (by decide) (List.take_prefix 1 _) e
    · exact .error (e := .transportError) (by decide) List.prefix_rfl e
    · exact .ok e

theorem setupRdiv_endsByPlan {ch : Byte} {e : RdivExp} {s t : State}
    (h : execSetupRdiv ch e s = .next t) : EndsByPlan (.setupRdiv ch e) s t := by
  obtain rfl := Host.Outcome.next.inj h
  cases hi : s.st.initialised with
  | false =>
    exact .error (e := .deviceNotInitialised) (by decide) List.nil_prefix (requireInitialised_of_not hi)
  | true =>
    rw [requireInitialised_of_initialised hi]
    cases hc : channelOf ch with
    | none => exact .error (e := .invalidParameter) (by decide) List.nil_prefix (raise_eq_ends _ _ s)
    | some c =>
      have planned : plannedRequests (.setupRdiv ch e) s = setupRdivRequests c e s := by
        simp [plannedRequests, hc]
      dsimp only
      rcases attempt_cases .transportError (.readByte (param3Reg c)) Response.blank s
          (fun v s1 => tryWrite (param3Reg c) (mergeRdiv s.params.rdivShift v e) Response.blank s1
            fun s2 => respond Response.blank (recordRDivider c e s2)) with ⟨-, e0⟩ | ⟨-, e0⟩
      · rcases attempt_cases .transportError
            (.writeByte (param3Reg c) (mergeRdiv s.params.rdivShift (s.upcoming 0).byte e))
            Response.blank (s.transact (.readByte (param3Reg c)))
            (fun _ s2 => respond Response.blank (recordRDivider c e s2)) with ⟨-, e1⟩ | ⟨-, e1⟩
        · rw [respond_recordRDivider, State.transact_ends, State.transact_ends] at e1
          exact .ok (by rw [planned]; exact e0.trans e1)
        · rw [State.transact_ends] at e1
          exact .error (e := .transportError) (by decide) (planned ▸ List.prefix_rfl) (e0.trans e1)
      · exact .error (e := .transportError) (by decide)
          (planned ▸ List.take_prefix 1 (setupRdivRequests c e s)) e0

/-- Every command ends by its plan. -/
theorem exec_endsByPlan {i : Instr} {s t : State} (h : exec i s = .next t) : EndsByPlan i s t := by
  cases i with
  | init f load =>
    rcases execInit_cases f load s with ⟨-, e⟩ | ⟨k, -, -, -, e⟩
    · exact .ok (Host.Outcome.next.inj (h.symm.trans e))
    · have e' := Host.Outcome.next.inj (h.symm.trans e)
      cases k with
      | zero => exact .error (e := .deviceNotFound) (by decide) (List.take_prefix _ _) e'
      | succ k => exact .error (e := .transportError) (by decide) (List.take_prefix _ _) e'
  | setupPll p a b c => exact Host.Outcome.next.inj h ▸ setupPll_endsByPlan p a b c s
  | setupPllInt p a => exact Host.Outcome.next.inj h ▸ setupPll_endsByPlan p a 0 1 s
  | setupMs ch p a b d => exact Host.Outcome.next.inj h ▸ setupMs_endsByPlan ch p a b d s
  | setupMsInt ch p a =>
    by_cases ha : a.toNat = 4 ∨ a.toNat = 6 ∨ a.toNat = 8
    · have e := (execSetupMsInt_of_div ha).symm.trans h
      exact Host.Outcome.next.inj e ▸ setupMs_endsByPlan ch p a 0 1 s
    · obtain rfl := Host.Outcome.next.inj h
      cases hi : s.st.initialised with
      | false =>
        exact .error (e := .deviceNotInitialised) (by decide) List.nil_prefix
          (requireInitialised_of_not hi)
      | true =>
        refine .error (e := .invalidParameter) (by decide) List.nil_prefix
          ((requireInitialised_of_initialised hi).trans
            ((if_neg (mt (msIntDivInRange_iff a).mp ha)).trans (raise_eq_ends _ _ s)))
  | setupRdiv ch e => exact setupRdiv_endsByPlan h
  | pack k a b c =>
    obtain rfl := Host.Outcome.next.inj h
    by_cases hr : fracInRange b c = true
    · exact .ok ((if_pos hr).trans (respond_eq_ends _ s))
    · exact .error (e := .invalidParameter) (by decide) List.nil_prefix
        ((if_neg hr).trans (raise_eq_ends _ _ s))
  | serPll p x y z => exact .ok ((Host.Outcome.next.inj h).symm.trans (respond_eq_ends _ s))
  | serMs ch e x y z =>
    obtain rfl := Host.Outcome.next.inj h
    cases hc : channelOf ch with
    | none => exact .error (e := .invalidParameter) (by decide) List.nil_prefix (raise_eq_ends _ _ s)
    | some c =>
      have complete : completeResponse (.serMs ch e x y z) s = Response.blank.withBlock (msBase c)
          (serMs s.params.rdivShift (fieldsOfOperands x y z) e) := by simp [completeResponse, hc]
      exact .ok (by rw [complete]; exact respond_eq_ends _ s)
  | unpack d => exact .ok ((Host.Outcome.next.inj h).symm.trans (respond_eq_ends _ s))

/-- The requests of a command can be read off the transactions they become. -/
theorem State.map_request_answered (s : State) (reqs : List Request) :
    (s.answered reqs).map Transaction.request = reqs := by
  induction reqs generalizing s with
  | nil => rfl
  | cons r reqs ih => simp [State.answered, State.transaction, ih]

/-- The end of a command determines its requests, its response and its device state. -/
theorem State.ends_inj {s : State} {reqs reqs' : List Request} {resp resp' : Response} {d d' : Device}
    (h : s.ends reqs resp d = s.ends reqs' resp' d') : reqs = reqs' ∧ resp = resp' ∧ d = d' := by
  have hreqs : s.answered reqs = s.answered reqs' := by simpa using congrArg (newTrace s) h
  refine ⟨?_, by simpa using congrArg State.responses h, congrArg State.st h⟩
  rw [← s.map_request_answered reqs, hreqs, State.map_request_answered]

/-- `exec_inversion` with the requests and the response named. -/
theorem exec_plan_inversion {i : Instr} {s t : State} (h : exec i s = .next t) :
    ∃ reqs e d, t = s.ends reqs (responseWith i s e) d ∧ reqs <+: plannedRequests i s ∧
      (e = .ok → reqs = plannedRequests i s) ∧ CommandOutcome i s reqs (responseWith i s e) d := by
  obtain ⟨reqs, e, d, rfl, hprefix, hall⟩ := exec_endsByPlan h
  obtain ⟨reqs', resp', d', h', outcome, -⟩ := exec_next_inversion h
  obtain ⟨rfl, rfl, rfl⟩ := State.ends_inj h'
  exact ⟨_, e, _, rfl, hprefix, hall, outcome⟩

@[simp] theorem completeResponse_status (i : Instr) (s : State) :
    (completeResponse i s).status = .ok := by
  cases i with
  | setupMs ch | setupMsInt ch | serMs ch =>
    simp only [completeResponse]
    cases channelOf ch <;> rfl
  | _ => rfl

@[simp] theorem responseWith_status (i : Instr) (s : State) (e : Status) :
    (responseWith i s e).status = e := by
  cases e with
  | ok => exact completeResponse_status i s
  | _ => rfl

theorem CommandOutcome.answers_of_ok {i : Instr} {s : State} {reqs : List Request} {resp : Response}
    {d : Device} (o : CommandOutcome i s reqs resp d) (h : resp.status = .ok) :
    ∀ j, j < reqs.length → (s.upcoming j).ok = true := by
  cases o with
  | ok _ answers => exact answers
  | notInitialised _ response => simp [response] at h
  | invalid _ response => simp [response] at h
  | transportError _ _ status => simp [status] at h
  | notFound _ response => simp [response] at h

theorem CommandOutcome.valid_of_transportError {i : Instr} {s : State} {reqs : List Request}
    {resp : Response} {d : Device} (o : CommandOutcome i s reqs resp d)
    (h : resp.status = .transportError) : GateOpen i s ∧ ¬ InvalidCause i s := by
  cases o with
  | ok status => simp [status] at h
  | notInitialised _ response => simp [response] at h
  | invalid _ response => simp [response] at h
  | transportError _ _ _ _ _ _ _ gate valid => exact ⟨gate, valid⟩
  | notFound _ response => simp [response] at h

/-- A command with status OK made all its requests, each of which answered `ok`, and reports all its
fields. -/
theorem exec_plan_of_ok {i : Instr} {s t : State} (h : exec i s = .next t)
    (hok : t.lastStatus = some .ok) :
    (∃ d, t = s.ends (plannedRequests i s) (completeResponse i s) d) ∧
      ∀ j, j < (plannedRequests i s).length → (s.upcoming j).ok = true := by
  obtain ⟨reqs, e, d, rfl, -, hall, outcome⟩ := exec_plan_inversion h
  obtain rfl : e = .ok := by simpa using hok
  obtain rfl := hall rfl
  exact ⟨⟨d, rfl⟩, outcome.answers_of_ok (responseWith_status i s .ok)⟩

/-! ### The same command with every transaction about to answer `ok` (R44) -/

/-- No command makes more requests than INIT (R69). -/
theorem length_plannedRequests_le (i : Instr) (s : State) : (plannedRequests i s).length ≤ 13 := by
  cases i with
  | setupMs ch | setupMsInt ch | setupRdiv ch =>
    simp only [plannedRequests]
    cases channelOf ch <;> simp [setupMsRequests, setupRdivRequests]
  | _ => simp [plannedRequests, setupPllRequests, initRequests]

@[simp] theorem State.dropAnswer_answers (s : State) : s.dropAnswer.answers = s.answers.tail := by
  cases hs : s.answers <;> simp [State.dropAnswer, hs]

/-- While the listed answers last, they are the answers to come. -/
theorem State.upcoming_of_lt {s : State} {k : Nat} (h : k < s.answers.length) :
    s.upcoming k = s.answers[k] := by
  induction k generalizing s with
  | zero =>
    obtain ⟨x, rest, hs⟩ := List.exists_cons_of_length_pos h
    simp only [State.upcoming, State.dropAnswers_zero, State.nextAnswer, hs, List.getElem_cons_zero]
  | succ k ih =>
    rw [← State.upcoming_dropAnswer, ih (by simp; omega)]
    simp

theorem State.upcoming_withAllOk {k : Nat} (s : State) (h : k < 13) :
    (s.withAllOk.upcoming k).ok = true := by
  rw [State.upcoming_of_lt (show k < s.withAllOk.answers.length from h)]
  simp only [State.withAllOk, List.getElem_replicate]

theorem completeResponse_withAllOk (i : Instr) (s : State) :
    completeResponse i s.withAllOk = completeResponse i s := rfl

theorem invalidCause_withAllOk (i : Instr) (s : State) :
    InvalidCause i s.withAllOk = InvalidCause i s := rfl

/-- A command that is neither gated nor invalid completes when every transaction answers `ok`. -/
theorem exec_withAllOk_completes {i : Instr} {s : State} (gate : GateOpen i s)
    (valid : ¬ InvalidCause i s) : ∃ t, exec i s.withAllOk = .next t ∧
      t.responses = s.responses ++ [completeResponse i s] := by
  obtain ⟨_, _, _, h, -⟩ := exec_inversion i s.withAllOk
  refine ⟨_, h, ?_⟩
  obtain ⟨reqs, e, d, ht, hprefix, -, outcome⟩ := exec_plan_inversion h
  rw [ht]
  have short := hprefix.length_le.trans (length_plannedRequests_le i s.withAllOk)
  cases outcome with
  | ok status =>
    obtain rfl : e = .ok := by simpa using status
    rw [State.ends_responses, responseWith, completeResponse_withAllOk]
    rfl
  | notInitialised _ _ isDevice notInit closed =>
    exact absurd (gate isDevice notInit) (Bool.eq_false_iff.mp closed)
  | invalid _ _ _ cause => exact absurd (invalidCause_withAllOk i s ▸ cause) valid
  | transportError k length _ _ failed =>
    exact absurd failed (by simp [s.upcoming_withAllOk (show k < 13 by omega)])
  | notFound _ _ failed => exact absurd failed (by simp [s.upcoming_withAllOk (k := 0)])

/-! ### The fields of a response that a command does not write are 0 (R44) -/

theorem completeResponse_fields_zero {i : Instr} (s : State)
    (h : i.opcode ∉ [0x8#4, 0xB#4, 0x2#4, 0x3#4, 0x4#4, 0x5#4]) :
    (completeResponse i s).p1 = 0 ∧ (completeResponse i s).p2 = 0 ∧ (completeResponse i s).p3 = 0 := by
  cases i with
  | init | setupRdiv | serPll => exact ⟨rfl, rfl, rfl⟩
  | serMs ch =>
    simp only [completeResponse]
    cases channelOf ch <;> exact ⟨rfl, rfl, rfl⟩
  | _ => simp [Instr.opcode] at h

theorem completeResponse_block_zero {i : Instr} (s : State)
    (h : i.opcode ∉ [0x9#4, 0xA#4, 0x2#4, 0x3#4, 0x4#4, 0x5#4]) :
    (completeResponse i s).base = 0 ∧ (completeResponse i s).data = Block.zero := by
  cases i with
  | init | setupRdiv | pack | unpack => exact ⟨rfl, rfl⟩
  | _ => simp [Instr.opcode] at h

theorem completeResponse_freq_zero {i : Instr} (s : State)
    (h : i.opcode ∉ [0x2#4, 0x3#4, 0x4#4, 0x5#4]) : (completeResponse i s).freq = 0 := by
  cases i with
  | init | setupRdiv | pack | serPll | unpack => rfl
  | serMs ch =>
    simp only [completeResponse]
    cases channelOf ch <;> rfl
  | _ => simp [Instr.opcode] at h

section ResponseWith
variable {i : Instr} (s : State) (e : Status)

theorem responseWith_fields_zero (h : i.opcode ∉ [0x8#4, 0xB#4, 0x2#4, 0x3#4, 0x4#4, 0x5#4]) :
    (responseWith i s e).p1 = 0 ∧ (responseWith i s e).p2 = 0 ∧ (responseWith i s e).p3 = 0 := by
  cases e with
  | ok | transportError => exact completeResponse_fields_zero s h
  | _ => exact ⟨rfl, rfl, rfl⟩

theorem responseWith_block_zero (h : i.opcode ∉ [0x9#4, 0xA#4, 0x2#4, 0x3#4, 0x4#4, 0x5#4]) :
    (responseWith i s e).base = 0 ∧ (responseWith i s e).data = Block.zero := by
  cases e with
  | ok | transportError => exact completeResponse_block_zero s h
  | _ => exact ⟨rfl, rfl⟩

theorem responseWith_freq_zero (h : i.opcode ∉ [0x2#4, 0x3#4, 0x4#4, 0x5#4]) :
    (responseWith i s e).freq = 0 := by
  cases e with
  | ok => exact completeResponse_freq_zero s h
  | transportError => simp [responseWith, completeResponse_freq_zero s h]
  | _ => rfl

/-- Every status but OK and TransportError comes with no field (R44). -/
theorem responseWith_eq_blank (hok : e ≠ .ok) (hte : e ≠ .transportError) :
    responseWith i s e = { Response.blank with status := e } := by
  cases e with
  | ok => exact absurd rfl hok
  | transportError => exact absurd rfl hte
  | _ => rfl

end ResponseWith

/-- Settles O10: the response is `responseWith` of the command's status, and the TransportError clause
compares it with the response of `exec_withAllOk_completes`. -/
theorem responseRecord : Obligations.ResponseRecord := by
  intro i s t h
  obtain ⟨reqs, e, d, rfl, -, -, outcome⟩ := exec_plan_inversion h
  refine ⟨responseWith i s e, State.ends_responses .., responseWith_fields_zero s e,
    responseWith_block_zero s e, responseWith_freq_zero s e, ?_, fun hte => ?_, rfl⟩
  · rw [responseWith_status]
    exact responseWith_eq_blank s e
  · obtain ⟨gate, valid⟩ := outcome.valid_of_transportError hte
    obtain ⟨t', h', hresp⟩ := exec_withAllOk_completes gate valid
    obtain rfl : e = .transportError := (responseWith_status i s e).symm.trans hte
    exact ⟨t', _, h', hresp, completeResponse_status i s, rfl⟩

end Sys2Proof.Machine
end

section
/-! The last write of a successful PLL or Multisynth setup (R49, R50), read off `exec_plan_of_ok`. -/

namespace Sys2Proof.Machine

/-! ### The clock-control byte, bit by bit (R49) -/

section ClkctlByte
variable (low : BitVec 5) (p : PllId) (b : Operand)

/-- The byte's four fields side by side: a zero, integer mode, the PLL, `CLKCTL_LOW` (R49). -/
theorem clkctlByte_eq_append : clkctlByte low p b =
    0#1 ++ BitVec.ofBool (decide (b = 0)) ++ BitVec.ofBool (decide (p = .b)) ++ low := by
  unfold clkctlByte
  by_cases h : b = 0
  · rw [if_pos h, decide_eq_true h]
    cases p <;> revert low <;> decide
  · rw [if_neg h, decide_eq_false h]
    cases p <;> revert low <;> decide

theorem clkctlByte_bits : (clkctlByte low p b).getLsbD 7 = false ∧
    (clkctlByte low p b).getLsbD 6 = decide (b = 0) ∧
    (clkctlByte low p b).getLsbD 5 = decide (p = .b) ∧
    (clkctlByte low p b).extractLsb' 0 5 = low := by
  rw [clkctlByte_eq_append]
  generalize decide (b = 0) = integerMode
  generalize decide (p = .b) = pllB
  revert low integerMode pllB
  decide

/-- With the decided `CLKCTL_LOW` only the two upper fields vary (R49). -/
theorem clkctlByte_of_decided (h : low = 0x0F) : clkctlByte low p b = 0x0F ∨ clkctlByte low p b = 0x2F ∨
    clkctlByte low p b = 0x4F ∨ clkctlByte low p b = 0x6F := by
  rw [clkctlByte_eq_append, h]
  generalize decide (b = 0) = integerMode
  generalize decide (p = .b) = pllB
  revert integerMode pllB
  decide

end ClkctlByte

/-! ### A burst and a byte write that both answer `ok` -/

theorem State.answered_burst_write {s : State} {base r : Reg} {bytes : List Byte} {v : Byte}
    (h : ∀ j, j < 2 → (s.upcoming j).ok = true) :
    s.answered [.writeBurst base bytes, .writeByte r v] =
      [⟨.writeBurst base bytes, .ok⟩, ⟨.writeByte r v, .ok⟩] := by
  simp [State.answered, State.transaction, Request.reply, h]

/-! ### Which commands write register 177 (R50) -/

theorem plannedRequests_of_configures {i : Instr} {p : PllId} (s : State)
    (h : i.configures = some p) :
    ∃ a b c, plannedRequests i s = setupPllRequests p a b c := by
  cases i with
  | setupPll q a b c =>
    obtain rfl : q = p := Option.some.inj h
    exact ⟨a, b, c, rfl⟩
  | setupPllInt q a =>
    obtain rfl : q = p := Option.some.inj h
    exact ⟨a, 0, 1, rfl⟩
  | _ => exact absurd h nofun

theorem resetReg_not_mem_mayWrite {i : Instr} (h : i.configures = none) : 177 ∉ i.mayWrite := by
  cases i with
  | init | pack | serPll | serMs | unpack => simp [Instr.mayWrite]
  | setupPll | setupPllInt => exact absurd h nofun
  | setupMs ch | setupMsInt ch | setupRdiv ch =>
    simp only [Instr.mayWrite]
    split
    · simp [List.range_succ]; omega
    · simp

/-- Only a transaction that writes register 177 can reset a PLL. -/
theorem Transaction.targets_of_resetsPll {x : Transaction} {q : PllId} (h : x.resetsPll q = true) :
    177 ∈ x.request.targets := by
  obtain ⟨r, y⟩ := x
  cases r with
  | writeByte r v =>
    cases y with
    | ok =>
      obtain ⟨hr, -⟩ := Bool.and_eq_true_iff.mp h
      obtain rfl := eq_of_beq hr
      exact List.mem_singleton.mpr rfl
    | _ => exact absurd h nofun
  | _ => exact absurd h nofun

theorem softResets_of_configures_none {i : Instr} {s t : State} (hi : i.configures = none)
    (h : exec i s = .next t) (q : PllId) : softResets q (newTrace s t) = 0 := by
  obtain ⟨reqs, resp, d, rfl, -, listed⟩ := exec_next_inversion h
  rw [newTrace_ends, softResets, List.countP_eq_zero]
  intro x hx hreset
  obtain ⟨j, hj, rfl⟩ := State.mem_answered hx
  obtain ⟨-, writes, -⟩ := listed _ (List.getElem_mem hj)
  exact resetReg_not_mem_mayWrite hi (writes 177 (Transaction.targets_of_resetsPll hreset))

/-- Settles O35: the last request of a successful PLL setup is the reset, by `exec_plan_of_ok`; a command
that configures no PLL makes no request that writes register 177. -/
theorem softResetOfBothPlls : Obligations.SoftResetOfBothPlls := by
  refine ⟨by decide, fun i p s t hi h hok => ?_, fun i s t hi h => softResets_of_configures_none hi h⟩
  obtain ⟨⟨d, rfl⟩, answers⟩ := exec_plan_of_ok h hok
  obtain ⟨a, b, c, plan⟩ := plannedRequests_of_configures s hi
  rw [plan] at answers ⊢
  rw [newTrace_ends, State.ends_chip, setupPllRequests, State.answered_burst_write answers]
  refine ⟨rfl, Memory.read_write_self _ 177 0xA0, fun q => ?_⟩
  cases q <;> rfl

/-! ### The plan of a Multisynth setup (R72, R73) -/

theorem plannedRequests_of_setupMs {i : Instr} {c : Channel} {p : PllId} {a b d : Operand} (s : State)
    (hi : i = .setupMs c.number p a b d ∨ (i = .setupMsInt c.number p a ∧ b = 0)) :
    ∃ e, plannedRequests i s = setupMsRequests c p a b e s := by
  rcases hi with rfl | ⟨rfl, rfl⟩
  · exact ⟨d, by simp [plannedRequests]⟩
  · exact ⟨1, by simp [plannedRequests]⟩

/-- Settles O34: the last request of a successful setup writes `clkctlByte`, whose bits are
`clkctlByte_bits`. -/
theorem clockControlByte : Obligations.ClockControlByte := by
  intro i c p a b d s t hi h hok
  obtain ⟨⟨dev, rfl⟩, answers⟩ := exec_plan_of_ok h hok
  obtain ⟨e, plan⟩ := plannedRequests_of_setupMs s hi
  rw [plan] at answers ⊢
  rw [newTrace_ends, setupMsRequests, State.answered_burst_write answers, clkctlReg_eq]
  obtain ⟨h7, h6, h5, hlow⟩ := clkctlByte_bits s.params.clkctlLow p b
  exact ⟨_, rfl, h7, h6, h5, hlow, clkctlByte_of_decided _ p b⟩

end Sys2Proof.Machine
end

section
/-! The codec commands (R52 to R60): what each of them answers, and the bytes and fields as numbers. -/

namespace Sys2Proof.Machine

/-! ### The end of a codec command, read off `exec_plan_inversion` -/

section Codec
variable {i : Instr} {s : State}

theorem plannedRequests_of_codec (s : State) (hi : i.isDevice = false) : plannedRequests i s = [] := by
  cases i with
  | pack | serPll | serMs | unpack => rfl
  | _ => exact absurd hi nofun

theorem DeviceAfterOk.eq_of_codec {d : Device} (h : DeviceAfterOk i s d) (hi : i.isDevice = false) :
    d = s.st := by
  cases i with
  | pack | serPll | serMs | unpack => exact h
  | _ => exact absurd hi nofun

/-- Everything a codec command can do: report its InvalidParameter cause, or complete. -/
theorem exec_codec_cases (s : State) (hi : i.isDevice = false) :
    (InvalidCause i s ∧
      exec i s = .next (s.ends [] { Response.blank with status := .invalidParameter } s.st)) ∨
    (¬ InvalidCause i s ∧ exec i s = .next (s.ends [] (completeResponse i s) s.st)) := by
  have notDevice : i.isDevice ≠ true := Bool.eq_false_iff.mp hi
  obtain ⟨_, _, _, h, -⟩ := exec_inversion i s
  obtain ⟨reqs, e, d, ht, -, hall, outcome⟩ := exec_plan_inversion h
  rw [h, ht]
  cases outcome with
  | ok status _ _ valid device =>
    obtain rfl : e = .ok := by simpa using status
    rw [hall rfl, plannedRequests_of_codec s hi, device.eq_of_codec hi]
    exact .inr ⟨valid, rfl⟩
  | invalid none response _ cause _ device =>
    rw [none, response, device]
    exact .inl ⟨cause, rfl⟩
  | notInitialised _ _ isDevice => exact absurd isDevice notDevice
  | transportError _ _ _ _ _ isDevice => exact absurd isDevice notDevice
  | notFound _ _ _ isInit =>
    cases i with
    | init => exact absurd hi nofun
    | _ => exact absurd isInit nofun

theorem exec_codec_of_valid (hi : i.isDevice = false) (hv : ¬ InvalidCause i s) :
    exec i s = .next (s.ends [] (completeResponse i s) s.st) :=
  (exec_codec_cases s hi).elim (fun h => absurd h.1 hv) And.right

theorem exec_codec_of_invalid (hi : i.isDevice = false) (hc : InvalidCause i s) :
    exec i s = .next (s.ends [] { Response.blank with status := .invalidParameter } s.st) :=
  (exec_codec_cases s hi).elim And.right fun h => absurd hc h.1

end Codec

/-! ### The three modes of `computeFields` (R53 to R55) -/

section Modes
variable {k : BlockKind} {a b c : Nat}

theorem exactFields_zero (k : BlockKind) (a c : Nat) :
    exactFields k a 0 c = (128 * (a : Int) - 512, 0, (c : Int)) := rfl

theorem exactFields_ms_one (hb : b ≠ 0) : exactFields .ms a b 1 =
    (128 * (a : Int) + 128 * (b : Int) - 512, 128 * (b : Int) - 128, 1) := by
  rw [exactFields, if_neg hb, if_pos ⟨rfl, rfl⟩]

theorem exactFields_general (hb : b ≠ 0) (h : ¬ (c = 1 ∧ k = .ms)) : exactFields k a b c =
    (128 * (a : Int) + ((128 * b / c : Nat) : Int) - 512,
     128 * (b : Int) - c * ((128 * b / c : Nat) : Int), (c : Int)) := by
  rw [exactFields, if_neg hb, if_neg h]

/-- The general formula with denominator 1 leaves no remainder (R54). -/
theorem exactFields_pll_one (hb : b ≠ 0) : exactFields .pll a b 1 =
    (128 * (a : Int) + 128 * (b : Int) - 512, 0, 1) := by
  rw [exactFields_general hb (by simp)]
  simp

theorem computeFields_of_exactFields {x y z : Int} (h : exactFields k a b c = (x, y, z)) :
    computeFields k a b c = ⟨trunc 18 x, trunc 20 y, trunc 20 z⟩ := by
  rw [computeFields, h]

end Modes

/-- PACK in range answers the exact values of its mode, reduced to the field widths (R52, R57). -/
theorem exec_pack_of_exactFields {k : BlockKind} {a b c : Operand} {x y z : Int} (s : State)
    (hr : FracInRange b c) (h : exactFields k a.toNat b.toNat c.toNat = (x, y, z)) :
    exec (.pack k a b c) s = .next (s.ends [] { Response.blank with
      p1 := BitVec.ofInt 18 x, p2 := BitVec.ofInt 20 y, p3 := BitVec.ofInt 20 z } s.st) := by
  have valid : ¬ InvalidCause (.pack k a b c) s := not_not.mpr hr
  rw [exec_codec_of_valid rfl valid, completeResponse, computeFields_of_exactFields h]
  rfl

/-- Settles O19: the precondition is PACK's InvalidParameter cause, and each mode's exact fields go through
`exec_pack_of_exactFields`. -/
theorem packOutcomes : Obligations.PackOutcomes := by
  refine ⟨encodes_of_toInstr fun _ _ _ _ _ _ _ => rfl, fun k a b c s => ⟨fun hr => ?_, ?_, ?_, ?_⟩⟩
  · exact exec_codec_of_invalid rfl hr
  · intro hr hb
    exact exec_pack_of_exactFields s hr (by rw [hb, exactFields_zero])
  · rintro hr hb hc rfl
    exact exec_pack_of_exactFields s hr (by rw [hc, exactFields_ms_one hb])
  · intro hr hb hmode
    exact exec_pack_of_exactFields s hr (exactFields_general hb hmode)

/-- Settles O26: the exact fields by `exactFields_zero`, where neither the kind nor, in P1 and P2, the
denominator occurs. -/
theorem integerMode : Obligations.IntegerMode := by
  intro k a c
  have fields (k' : BlockKind) (c' : Nat) := computeFields_of_exactFields (exactFields_zero k' a c')
  refine ⟨exactFields_zero k a c, fun c' => ?_, fun k' => ?_⟩
  · rw [fields k c', fields k c]
    exact ⟨rfl, rfl⟩
  · rw [fields k' c, fields k c]

/-- Settles O27: `exactFields_ms_one` beside `exactFields_pll_one`; the two P2 are 128b - 128 and 0. -/
theorem simplifiedFractionalMode : Obligations.SimplifiedFractionalMode := by
  intro a b hb _
  rw [exactFields_ms_one hb, exactFields_pll_one hb]
  refine ⟨rfl, rfl, rfl, ?_, by decide⟩
  change 128 * (b : Int) - 128 ≠ 0 ↔ 2 ≤ b
  omega

/-! ### The serialized bytes as numbers (R46, R47) -/

/-- A range of bits that reaches the top of the word needs no remainder. -/
theorem toNat_slice_top {w k n : Nat} (x : BitVec w) (h : w = k + n) :
    (x.extractLsb' k n).toNat = x.toNat / 2 ^ k := by
  rw [toNat_slice, Nat.mod_eq_of_lt]
  exact Nat.div_lt_of_lt_mul (by rw [← Nat.pow_add, ← h]; exact x.isLt)

theorem toNat_slice_bottom {w : Nat} (x : BitVec w) (n : Nat) :
    (x.extractLsb' 0 n).toNat = x.toNat % 2 ^ n := by
  rw [toNat_slice, Nat.pow_zero, Nat.div_one]

/-- Two nibbles shifted and or-ed into one byte lie side by side. -/
theorem nibbles_or_eq_append : ∀ x y : BitVec 4, x.setWidth 8 <<< 4 ||| y.setWidth 8 = x ++ y := by
  decide

/-- The parameter-3 byte without an exponent is P1[17:16]. -/
theorem serPll_d2_toNat (f : Fields) : (serPll f).d2.toNat = f.p1.toNat / 2 ^ 16 := by
  have two_bits : ∀ x : BitVec 2, (x.setWidth 8).toNat = x.toNat := by decide
  exact (two_bits _).trans (toNat_slice_top f.p1 rfl)

/-- The byte that P2 and P3 share: P3[19:16] above P2[19:16]. -/
theorem serPll_d5_toNat (f : Fields) :
    (serPll f).d5.toNat = f.p3.toNat / 2 ^ 16 * 2 ^ 4 + f.p2.toNat / 2 ^ 16 := by
  rw [serPll, nibbles_or_eq_append, toNat_append_eq, toNat_slice_top _ rfl, toNat_slice_top _ rfl]

theorem rdivBits_toNat (shift : Nat) (e : RdivExp) :
    (rdivBits shift e).toNat = e.toNat * 2 ^ shift % 2 ^ 8 := by
  have three_bits : ∀ e : RdivExp, (e.setWidth 8).toNat = e.toNat := by decide
  rw [rdivBits, BitVec.toNat_shiftLeft, three_bits, Nat.shiftLeft_eq]

/-- The parameter-3 byte with the exponent merged: P1[17:16] or-ed with it, cut to a byte. -/
theorem serMs_d2_toNat (shift : Nat) (f : Fields) (e : RdivExp) :
    (serMs shift f e).d2.toNat = (f.p1.toNat / 2 ^ 16 ||| e.toNat * 2 ^ shift) % 2 ^ 8 := by
  have low : (serPll f).d2.toNat % 2 ^ 8 = (serPll f).d2.toNat := Nat.mod_eq_of_lt (serPll f).d2.isLt
  rw [Nat.or_mod_two_pow, ← serPll_d2_toNat, low, ← rdivBits_toNat]
  exact BitVec.toNat_or ..

section Operands
variable (a b c : Operand)

theorem fieldsOfOperands_p1_toNat : (fieldsOfOperands a b c).p1.toNat = a.toNat % 2 ^ 18 :=
  toNat_slice_bottom a 18

theorem fieldsOfOperands_p2_toNat : (fieldsOfOperands a b c).p2.toNat = b.toNat % 2 ^ 20 :=
  toNat_slice_bottom b 20

theorem fieldsOfOperands_p3_toNat : (fieldsOfOperands a b c).p3.toNat = c.toNat % 2 ^ 20 :=
  toNat_slice_bottom c 20

/-- The seven bytes that SER_PLL and SER_MS have in common, from the operands (R58, R59). -/
theorem serPll_operands_toNat :
    let p1 := a.toNat % 2 ^ 18
    let p2 := b.toNat % 2 ^ 20
    let p3 := c.toNat % 2 ^ 20
    let d := serPll (fieldsOfOperands a b c)
    d.d0.toNat = p3 / 2 ^ 8 % 2 ^ 8 ∧ d.d1.toNat = p3 % 2 ^ 8 ∧ d.d3.toNat = p1 / 2 ^ 8 % 2 ^ 8 ∧
    d.d4.toNat = p1 % 2 ^ 8 ∧ d.d5.toNat = p3 / 2 ^ 16 * 2 ^ 4 + p2 / 2 ^ 16 ∧
    d.d6.toNat = p2 / 2 ^ 8 % 2 ^ 8 ∧ d.d7.toNat = p2 % 2 ^ 8 := by
  dsimp only
  rw [← fieldsOfOperands_p1_toNat a b c, ← fieldsOfOperands_p2_toNat a b c,
    ← fieldsOfOperands_p3_toNat a b c]
  exact ⟨toNat_slice _ 8 8, toNat_slice_bottom _ 8, toNat_slice _ 8 8, toNat_slice_bottom _ 8,
    serPll_d5_toNat _, toNat_slice _ 8 8, toNat_slice_bottom _ 8⟩

end Operands

/-- Settles O20: the common bytes by `serPll_operands_toNat`, byte 2 by `serPll_d2_toNat`. -/
theorem serPllOutcomes : Obligations.SerPllOutcomes := by
  refine ⟨encodes_of_toInstr fun _ _ _ _ _ _ _ => rfl, fun p a b c s => ?_⟩
  obtain ⟨h0, h1, h3, h4, h5, h6, h7⟩ := serPll_operands_toNat a b c
  refine ⟨serPll (fieldsOfOperands a b c), ?_, h0, h1, ?_, h3, h4, h5, h6, h7⟩
  · rw [exec_codec_of_valid rfl id, completeResponse, pllBase_eq]
    rfl
  · rw [serPll_d2_toNat, fieldsOfOperands_p1_toNat]

theorem channel_number_toNat_le (ch : Channel) : ch.number.toNat ≤ 2 := by
  cases ch <;> decide

/-- Settles O21: the bytes of SER_PLL by `serPll_operands_toNat`, but byte 2 by `serMs_d2_toNat`. -/
theorem serMsOutcomes : Obligations.SerMsOutcomes := by
  refine ⟨encodes_of_toInstr fun _ _ _ _ _ _ _ => rfl,
    fun _ _ _ _ _ _ hch => exec_codec_of_invalid rfl hch, fun ch e a b c s => ?_⟩
  obtain ⟨h0, h1, h3, h4, h5, h6, h7⟩ := serPll_operands_toNat a b c
  refine ⟨serMs s.params.rdivShift (fieldsOfOperands a b c) e, ?_, h0, h1, ?_, h3, h4, h5, h6, h7⟩
  · have valid : ¬ InvalidCause (.serMs ch.number e a b c) s :=
      Nat.not_lt.mpr (channel_number_toNat_le ch)
    rw [exec_codec_of_valid rfl valid, completeResponse, channelOf_number, ← msBase_eq]
    rfl
  · rw [serMs_d2_toNat, fieldsOfOperands_p1_toNat]

/-! ### The unpacked fields as numbers (R60) -/

/-- Three ranges of bits side by side, the lower two of them bytes. -/
theorem toNat_append_bytes {w : Nat} (x : BitVec w) (y z : Byte) :
    (x ++ y ++ z).toNat = x.toNat * 2 ^ 16 + y.toNat * 2 ^ 8 + z.toNat := by
  rw [toNat_append_eq, toNat_append_eq]
  ring

/-- Settles O22: each field is three ranges side by side, by `toNat_append_bytes`. -/
theorem unpackOutcomes : Obligations.UnpackOutcomes := by
  refine ⟨encodes_of_toInstr fun _ _ _ _ _ _ _ => rfl, fun d s =>
    ⟨Response.blank.withFields (unpackFields d), exec_codec_of_valid rfl id, rfl, ?_, ?_, ?_⟩⟩
  · exact (toNat_append_bytes _ d.d3 d.d4).trans (by rw [toNat_slice_bottom]; rfl)
  · exact (toNat_append_bytes _ d.d6 d.d7).trans (by rw [toNat_slice_bottom]; rfl)
  · exact (toNat_append_bytes _ d.d0 d.d1).trans (by rw [toNat_slice_top _ rfl]; rfl)

end Sys2Proof.Machine
end

section
/-! The planner's rules over the whole machine (R62, R63, R66, R67): recording a PLL, refusing an
unconfigured one, the output frequency and its range. -/

namespace Sys2Proof.Machine

/-! ### An InvalidParameter cause and the end of the command (R79, R81) -/

section Invalid
variable {i : Instr} {s : State}

/-- Behind its gate, a command with an InvalidParameter cause requests nothing and changes nothing. -/
theorem exec_of_invalid (gate : GateOpen i s) (cause : InvalidCause i s) :
    exec i s = .next (s.ends [] { Response.blank with status := .invalidParameter } s.st) := by
  obtain ⟨reqs, resp, d, h, outcome, -⟩ := exec_inversion i s
  cases outcome with
  | invalid none response _ _ _ device => rw [h, none, response, device]
  | ok _ _ _ valid => exact absurd cause valid
  | transportError _ _ _ _ _ _ _ _ valid => exact absurd cause valid
  | notInitialised _ _ isDevice notInit closed =>
    exact absurd (gate isDevice notInit) (Bool.eq_false_iff.mp closed)
  | notFound _ _ _ isInit =>
    cases i with
    | init => exact cause.elim
    | _ => exact absurd isInit nofun

/-- Without a cause no command ends with InvalidParameter. -/
theorem exec_of_not_invalid (valid : ¬ InvalidCause i s) :
    ∃ t, exec i s = .next t ∧ t.lastStatus ≠ some .invalidParameter := by
  obtain ⟨reqs, resp, d, h, outcome, -⟩ := exec_inversion i s
  refine ⟨_, h, ?_⟩
  rw [State.ends_lastStatus]
  cases outcome with
  | invalid _ _ _ cause => exact absurd cause valid
  | ok status => simp [status]
  | notInitialised _ response => simp [response]
  | transportError _ _ status => simp [status]
  | notFound _ response => simp [response]

/-- A command that got as far as its transactions had no cause. -/
theorem not_invalid_of_requests {t : State} (h : exec i s = .next t)
    (hs : t.lastStatus = some .ok ∨ t.lastStatus = some .transportError) : ¬ InvalidCause i s := by
  obtain ⟨_, _, _, rfl, outcome, -⟩ := exec_next_inversion h
  cases outcome with
  | ok _ _ _ valid => exact valid
  | transportError _ _ _ _ _ _ _ _ valid => exact valid
  | notInitialised _ response => simp [response] at hs
  | invalid _ response => simp [response] at hs
  | notFound _ response => simp [response] at hs

end Invalid

/-! ### Recording a PLL (R62) -/

/-- In the operand ranges of SETUP_PLL the recorded frequency fits its 64 bits (R18). -/
theorem pllHzOf_lt {a b c : Operand} (h : PllInRange a b c) (xtal : BitVec 32) :
    pllHzOf xtal.toNat a.toNat b.toNat c.toNat < 2 ^ 64 := by
  obtain ⟨-, ha, hb, -, hc⟩ := h
  have hac : a.toNat * c.toNat ≤ 90 * 0xFFFFF := Nat.mul_le_mul ha hc
  calc pllHzOf xtal.toNat a.toNat b.toNat c.toNat
      ≤ xtal.toNat * (a.toNat * c.toNat + b.toNat) := Nat.div_le_self ..
    _ ≤ 2 ^ 32 * (90 * 0xFFFFF + 0xFFFFF) := Nat.mul_le_mul xtal.isLt.le (Nat.add_le_add hac hb)
    _ < 2 ^ 64 := by decide

/-- A SETUP_PLL with status OK records its PLL after two transactions that answered `ok`. -/
theorem setupPll_records {p : PllId} {a b c : Operand} {s t : State}
    (h : exec (.setupPll p a b c) s = .next t) (hok : t.lastStatus = some .ok) :
    t.st.pllCfg.get p = true ∧
      (t.st.pllHz.get p).toNat = s.st.xtalHz.toNat * (a.toNat * c.toNat + b.toNat) / c.toNat ∧
      (newTrace s t).map (·.reply) = [.ok, .ok] := by
  have inRange : PllInRange a b c := of_not_not (not_invalid_of_requests h (.inl hok))
  have device : t.st = (recordPll p a.toNat b.toNat c.toNat s).st := exec_st_of_ok h hok
  have replies : (newTrace s t).map (·.reply) = [.ok, .ok] := by
    obtain ⟨⟨_, rfl⟩, answers⟩ := exec_plan_of_ok h hok
    rw [newTrace_ends, plannedRequests, setupPllRequests, State.answered_burst_write answers]
    rfl
  rw [device, recordPll_pllCfg, recordPll_pllHz, PerPll.get_set_self, PerPll.get_set_self,
    BitVec.toNat_ofNat, Nat.mod_eq_of_lt (pllHzOf_lt inRange _)]
  exact ⟨rfl, rfl, replies⟩

section Records
variable {i : Instr} {s : State} {d : Device} {p : PllId}

theorem DeviceAfterOk.configured (h : DeviceAfterOk i s d) (hi : i.configures = some p) :
    d.pllCfg.get p = true := by
  cases i with
  | setupPll q | setupPllInt q =>
    obtain rfl : q = p := Option.some.inj hi
    obtain rfl := h
    simp
  | _ => exact absurd hi nofun

/-- Of the commands but INIT, only the setups of PLL `p` touch its record. -/
theorem DeviceAfterOk.record_kept (h : DeviceAfterOk i s d) (notInit : i.isInit = false)
    (hi : i.configures ≠ some p) :
    d.pllCfg.get p = s.st.pllCfg.get p ∧ d.pllHz.get p = s.st.pllHz.get p := by
  cases i with
  | init => exact absurd notInit nofun
  | setupPll q | setupPllInt q =>
    have hq : p ≠ q := fun e => hi (congrArg some e.symm)
    obtain rfl := h
    simp [hq]
  | setupRdiv =>
    obtain ⟨c, -, rfl⟩ := h
    exact ⟨rfl, rfl⟩
  | _ =>
    obtain rfl := h
    exact ⟨rfl, rfl⟩

end Records

/-- Settles O30: SETUP_PLL by `setupPll_records`, SETUP_PLL_INT as SETUP_PLL with b = 0 and c = 1; a command
that fails keeps `st`, and one that completes changes only the record of the PLL it configures. -/
theorem recordedFrequencyIsExact : Obligations.RecordedFrequencyIsExact := by
  refine ⟨fun p a b c s t h hok => ?_, fun p a s t h hok => ?_, fun i p s t h notInit changed => ?_⟩
  · exact setupPll_records h hok
  · simpa using setupPll_records (b := 0) (c := 1) h hok
  · have hok : t.lastStatus = some .ok := by
      by_contra herr
      simp [exec_st_of_error h herr, notInit] at changed
    have device := exec_st_of_ok h hok
    have hi : i.configures = some p := by
      by_contra hi
      obtain ⟨cfgKept, hzKept⟩ := device.record_kept notInit hi
      exact changed.elim (absurd cfgKept) (absurd hzKept)
    exact ⟨hi, hok, device.configured hi⟩

/-! ### Two states that differ in `st.pll_cfg` alone (R63) -/

/-- The same state with other PLLs configured. -/
def State.withPllCfg (cfg : PerPll Bool) (s : State) : State :=
  { s with st := { s.st with pllCfg := cfg } }

/-- The two states have the same responses and the same trace. -/
def SameOutputs (s t : State) : Prop := t.responses = s.responses ∧ t.trace = s.trace

section PllCfg
variable (cfg : PerPll Bool) (s : State)

theorem State.transact_withPllCfg (r : Request) :
    (s.withPllCfg cfg).transact r = (s.transact r).withPllCfg cfg := by
  obtain ⟨_, _, _, _, answers, _, _, _⟩ := s
  cases answers <;> rfl

theorem respond_sameOutputs (resp : Response) :
    SameOutputs (respond resp s) (respond resp (s.withPllCfg cfg)) := ⟨rfl, rfl⟩

/-- An attempt looks at `st.pll_cfg` only where its continuation does. -/
theorem attempt_sameOutputs {e : Status} {r : Request} {resp : Response} {k k' : Byte → State → State}
    (hk : ∀ v s', SameOutputs (k v s') (k' v (s'.withPllCfg cfg))) :
    SameOutputs (attempt e r resp s k) (attempt e r resp (s.withPllCfg cfg) k') := by
  have hnext : (s.withPllCfg cfg).nextAnswer = s.nextAnswer := rfl
  unfold attempt
  rw [hnext, State.transact_withPllCfg]
  split
  · exact hk _ _
  · exact respond_sameOutputs cfg _ _

theorem requireInitialised_sameOutputs {k k' : State} (hk : SameOutputs k k') :
    SameOutputs (requireInitialised s k) (requireInitialised (s.withPllCfg cfg) k') := by
  have hinit : (s.withPllCfg cfg).st.initialised = s.st.initialised := rfl
  unfold requireInitialised
  rw [hinit]
  split
  · exact hk
  · exact respond_sameOutputs cfg s _

theorem setupPll_sameOutputs (p : PllId) (a b c : Operand) :
    SameOutputs (setupPll p a b c s) (setupPll p a b c (s.withPllCfg cfg)) := by
  refine requireInitialised_sameOutputs cfg s ?_
  split
  · exact attempt_sameOutputs cfg s fun _ s1 => attempt_sameOutputs cfg s1 fun _ _ => ⟨rfl, rfl⟩
  · exact respond_sameOutputs cfg s _

/-- No command but SETUP_MS and SETUP_MS_INT looks at `st.pll_cfg`. -/
theorem exec_sameOutputs {i : Instr} {t : State} (notMs : ∀ ch p a b c, i ≠ .setupMs ch p a b c)
    (notMsInt : ∀ ch p a, i ≠ .setupMsInt ch p a) (h : exec i s = .next t) :
    ∃ t', exec i (s.withPllCfg cfg) = .next t' ∧ SameOutputs t t' := by
  cases i with
  | setupMs ch p a b c => exact absurd rfl (notMs ch p a b c)
  | setupMsInt ch p a => exact absurd rfl (notMsInt ch p a)
  | init => exact ⟨t, h, rfl, rfl⟩
  | setupPll p a b c =>
    exact ⟨_, rfl, Host.Outcome.next.inj h ▸ setupPll_sameOutputs cfg s p a b c⟩
  | setupPllInt p a =>
    exact ⟨_, rfl, Host.Outcome.next.inj h ▸ setupPll_sameOutputs cfg s p a 0 1⟩
  | setupRdiv ch e =>
    refine ⟨_, rfl, Host.Outcome.next.inj h ▸ requireInitialised_sameOutputs cfg s ?_⟩
    cases channelOf ch with
    | none => exact respond_sameOutputs cfg s _
    | some c =>
      exact attempt_sameOutputs cfg s fun _ s1 => attempt_sameOutputs cfg s1 fun _ _ => ⟨rfl, rfl⟩
  | pack k a b c =>
    obtain rfl := Host.Outcome.next.inj h
    refine ⟨_, rfl, ?_⟩
    split <;> exact respond_sameOutputs cfg s _
  | serMs ch =>
    obtain rfl := Host.Outcome.next.inj h
    refine ⟨_, rfl, ?_⟩
    cases channelOf ch <;> exact respond_sameOutputs cfg s _
  | serPll | unpack =>
    obtain rfl := Host.Outcome.next.inj h
    exact ⟨_, rfl, respond_sameOutputs cfg s _⟩

end PllCfg

/-- Settles O31: an unconfigured PLL is an InvalidParameter cause of both Multisynth setups, and the other
commands answer alike whatever is configured. -/
theorem unconfiguredPllIsRefused : Obligations.UnconfiguredPllIsRefused := by
  refine ⟨fun i ch p a b c s hi initialised unconfigured => ?_,
    fun i cfg s t notMs notMsInt h => exec_sameOutputs cfg s notMs notMsInt h⟩
  rcases hi with rfl | rfl
  · exact exec_of_invalid (fun _ _ => initialised) (.inr (.inr (.inl unconfigured)))
  · exact exec_of_invalid (fun _ _ => initialised) (.inr (.inr (.inl unconfigured)))

/-! ### The output frequency (R66) -/

/-- In the operand ranges of SETUP_MS the divisor of the output frequency is at least 4 (R66). -/
theorem four_le_msDivisor {a b d : Operand} (h : MsInRange a b d) :
    4 ≤ a.toNat * d.toNat + b.toNat := by
  obtain ⟨ha, -, -, hd, -⟩ := h
  exact (Nat.mul_le_mul ha hd).trans (Nat.le_add_right ..)

/-- The divider is at least 1, so the output frequency is at most the PLL's and fits its 64 bits. -/
theorem msOutputHz_lt {a b d : Operand} (h : MsInRange a b d) (p : PllId) (s : State) :
    msOutputHz p a.toNat b.toNat d.toNat s < 2 ^ 64 := by
  have hd : d.toNat ≤ a.toNat * d.toNat + b.toNat := by
    obtain ⟨ha, -⟩ := h
    exact (Nat.le_mul_of_pos_left _ (by omega)).trans (Nat.le_add_right ..)
  exact (Nat.div_le_of_le_mul (by rw [mul_comm]; exact Nat.mul_le_mul_right _ hd)).trans_lt
    (s.st.pllHz.get p).isLt

theorem setupMsResponse_freq_toNat {a b d : Operand} (h : MsInRange a b d) (c : Channel) (p : PllId)
    (s : State) : (setupMsResponse c p a b d s).freq.toNat =
      (s.st.pllHz.get p).toNat * d.toNat / (a.toNat * d.toNat + b.toNat) :=
  (BitVec.toNat_ofNat ..).trans (Nat.mod_eq_of_lt (msOutputHz_lt h p s))

/-- A SETUP_MS that got as far as its transactions reports the output frequency and keeps `st`. -/
theorem setupMs_reports {ch : Byte} {p : PllId} {a b d : Operand} {s : State}
    (hs : (setupMs ch p a b d s).lastStatus = some .ok ∨
      (setupMs ch p a b d s).lastStatus = some .transportError) :
    4 ≤ a.toNat * d.toNat + b.toNat ∧ (setupMs ch p a b d s).st = s.st ∧
      ∃ r, (setupMs ch p a b d s).responses = s.responses ++ [r] ∧
        r.freq.toNat = (s.st.pllHz.get p).toNat * d.toNat / (a.toNat * d.toNat + b.toNat) := by
  rcases setupMs_cases ch p a b d s with ⟨-, e⟩ | ⟨-, -, e⟩ | ⟨-, -, inRange, -, c, -, outcome⟩
  · simp [e] at hs
  · simp [e] at hs
  · have hfreq := setupMsResponse_freq_toNat inRange c p s
    refine ⟨four_le_msDivisor inRange, ?_⟩
    rcases outcome with ⟨-, e⟩ | ⟨-, -, e⟩ | ⟨-, -, e⟩ <;> rw [e] <;>
      exact ⟨rfl, _, State.ends_responses .., hfreq⟩

/-- A SETUP_MS_INT that got as far as its transactions is SETUP_MS with b = 0 and c = 1 (R73). -/
theorem execSetupMsInt_of_requests {ch : Byte} {p : PllId} {a : Operand} {s t : State}
    (h : exec (.setupMsInt ch p a) s = .next t)
    (hs : t.lastStatus = some .ok ∨ t.lastStatus = some .transportError) :
    t = setupMs ch p a 0 1 s := by
  have hdiv : a.toNat = 4 ∨ a.toNat = 6 ∨ a.toNat = 8 :=
    of_not_not fun hdiv => not_invalid_of_requests h hs (.inl hdiv)
  exact Host.Outcome.next.inj (h.symm.trans (execSetupMsInt_of_div hdiv))

/-- Settles O32: `setupMs_reports`, which SETUP_MS_INT reaches with b = 0 and c = 1. -/
theorem outputFrequencyDiagnostic : Obligations.OutputFrequencyDiagnostic := by
  refine ⟨fun ch p a b c s t h hs => ?_, fun ch p a s t h hs => ?_⟩
  · obtain rfl := Host.Outcome.next.inj h
    exact setupMs_reports hs
  · obtain rfl := execSetupMsInt_of_requests h hs
    simpa using setupMs_reports hs

/-! ### The output-frequency range check (R67) -/

/-- For a SETUP_MS that passes every other check the frequency check alone is left as a cause. -/
theorem invalidCause_setupMs_iff {c : Channel} {p : PllId} {a b d : Operand} {s : State}
    (inRange : MsInRange a b d) (configured : s.st.pllCfg.get p = true) :
    InvalidCause (.setupMs c.number p a b d) s ↔
      FoutRejected s ((s.st.pllHz.get p).toNat * d.toNat / (a.toNat * d.toNat + b.toNat)) := by
  have hch : ¬ 2 < c.number.toNat := Nat.not_lt.mpr (channel_number_toNat_le c)
  have hcfg : ¬ s.st.pllCfg.get p = false := Bool.not_eq_false _ ▸ configured
  rw [InvalidCause, or_iff_right hch, or_iff_right (not_not_intro inRange), or_iff_right hcfg]

/-- Settles O33: by `invalidCause_setupMs_iff` the command has an InvalidParameter cause exactly when the
check rejects its frequency. -/
theorem outputRangeCheck : Obligations.OutputRangeCheck := by
  intro i c p a b d s hi initialised inRange configured f
  have cause : InvalidCause i s ↔ FoutRejected s f := by
    rcases hi with rfl | ⟨rfl, hdiv, rfl, rfl⟩
    · exact invalidCause_setupMs_iff inRange configured
    · exact (invalidCause_setupMs_int (by simpa using hdiv)).symm.trans
        (invalidCause_setupMs_iff inRange configured)
  refine ⟨fun enabled outside => ?_, fun _ hmin hmax => ?_, fun disabled => ?_⟩
  · exact exec_of_invalid (fun _ _ => initialised) (cause.mpr ⟨enabled, outside⟩)
  · exact exec_of_not_invalid fun h => (cause.mp h).2.elim hmin.not_gt hmax.not_gt
  · exact exec_of_not_invalid fun h => absurd (cause.mp h).1 (Bool.eq_false_iff.mp disabled)

end Sys2Proof.Machine
end

section
/-! The outcomes of the six device commands (R69 to R74) and the transitions of the lifecycle (R75): which
of the cases of `exec_plan_inversion` a command ends in is decided by its gate, its InvalidParameter causes
and the first transaction of its plan that answers `err`. -/

namespace Sys2Proof.Machine

/-! ### The end of a command, decided by its gate and its answers (R81) -/

section Decided
variable {i : Instr} {s : State}

/-- Before INIT a gated command requests nothing and changes nothing (R78). -/
theorem exec_of_not_initialised (isDevice : i.isDevice = true) (notInit : i.isInit = false)
    (closed : s.st.initialised = false) :
    exec i s = .next (s.ends [] { Response.blank with status := .deviceNotInitialised } s.st) := by
  have noGate : ¬ GateOpen i s := fun gate =>
    absurd (gate isDevice notInit) (Bool.eq_false_iff.mp closed)
  obtain ⟨reqs, resp, d, h, outcome, -⟩ := exec_inversion i s
  cases outcome with
  | notInitialised none response _ _ _ device => rw [h, none, response, device]
  | ok _ _ gate => exact absurd gate noGate
  | invalid _ _ gate => exact absurd gate noGate
  | transportError _ _ _ _ _ _ _ gate => exact absurd gate noGate
  | notFound _ _ _ isInit => exact absurd isInit (Bool.eq_false_iff.mp notInit)

/-- A command whose whole plan answers `ok` completes. -/
theorem exec_of_all_ok (gate : GateOpen i s) (valid : ¬ InvalidCause i s)
    (answers : ∀ j, j < (plannedRequests i s).length → (s.upcoming j).ok = true) :
    ∃ d, DeviceAfterOk i s d ∧
      exec i s = .next (s.ends (plannedRequests i s) (completeResponse i s) d) := by
  obtain ⟨_, _, _, h, -⟩ := exec_inversion i s
  obtain ⟨reqs, e, d, ht, hprefix, hall, outcome⟩ := exec_plan_inversion h
  rw [h, ht]
  have noFailure {k : Nat} (hk : k < reqs.length) (failed : (s.upcoming k).ok = false) : False :=
    Bool.eq_false_iff.mp failed (answers k (hk.trans_le hprefix.length_le))
  cases outcome with
  | ok status _ _ _ device =>
    obtain rfl : e = .ok := by simpa using status
    rw [hall rfl]
    exact ⟨d, device, rfl⟩
  | notInitialised _ _ isDevice notInit closed =>
    exact absurd (gate isDevice notInit) (Bool.eq_false_iff.mp closed)
  | invalid _ _ _ cause => exact absurd cause valid
  | transportError k length _ _ failed => exact (noFailure (by omega) failed).elim
  | notFound probe _ failed => exact (noFailure (by simp [probe]) failed).elim

/-- The status of a command whose transaction `k` is the first that answers `err` (R69, R76). -/
def failureStatus (i : Instr) (k : Nat) : Status :=
  if i.isInit = true ∧ k = 0 then .deviceNotFound else .transportError

/-- A command stops after the first transaction of its plan that answers `err` (R82). -/
theorem exec_of_first_failure {k : Nat} (gate : GateOpen i s) (valid : ¬ InvalidCause i s)
    (planned : k < (plannedRequests i s).length) (before : ∀ j, j < k → (s.upcoming j).ok = true)
    (failed : (s.upcoming k).ok = false) :
    exec i s = .next (s.ends ((plannedRequests i s).take (k + 1))
      (responseWith i s (failureStatus i k)) (if i.isInit then Device.powerOn else s.st)) := by
  obtain ⟨_, _, _, h, -⟩ := exec_inversion i s
  obtain ⟨reqs, e, d, ht, hprefix, hall, outcome⟩ := exec_plan_inversion h
  rw [h, ht]
  have noSuccess : ¬ (s.upcoming k).ok = true := Bool.eq_false_iff.mp failed
  have cut {n : Nat} (length : reqs.length = n) : reqs = (plannedRequests i s).take n :=
    length ▸ List.prefix_iff_eq_take.mp hprefix
  cases outcome with
  | ok status answers =>
    obtain rfl : e = .ok := by simpa using status
    obtain rfl := hall rfl
    exact absurd (answers k planned) noSuccess
  | notInitialised _ _ isDevice notInit closed =>
    exact absurd (gate isDevice notInit) (Bool.eq_false_iff.mp closed)
  | invalid _ _ _ cause => exact absurd cause valid
  | transportError k' length status before' failed' _ later _ _ device =>
    have first : k' = k := by
      rcases Nat.lt_trichotomy k' k with hlt | heq | hgt
      · exact absurd (before k' hlt) (Bool.eq_false_iff.mp failed')
      · exact heq
      · exact absurd (before' k hgt) noSuccess
    subst first
    obtain rfl : e = failureStatus i k' :=
      (responseWith_status i s e).symm.trans (status.trans (if_neg fun h => later h.1 h.2).symm)
    rw [cut length, device]
  | notFound probe response failed' isInit device =>
    have first : k = 0 := by
      by_contra hk
      exact Bool.eq_false_iff.mp failed' (before 0 (Nat.pos_of_ne_zero hk))
    subst first
    obtain rfl : e = failureStatus i 0 := by
      rw [← responseWith_status i s e, response, failureStatus, if_pos ⟨isInit, rfl⟩]
    rw [cut (n := 1) (by rw [probe]; rfl), device, if_pos isInit]

theorem answers_of_two (h0 : (s.upcoming 0).ok = true) (h1 : (s.upcoming 1).ok = true) :
    ∀ j, j < 2 → (s.upcoming j).ok = true := fun
  | 0, _ => h0
  | 1, _ => h1

/-- Everything a valid command of two transactions can do. -/
theorem exec_of_two_requests {r0 r1 : Request} (plan : plannedRequests i s = [r0, r1])
    (notInit : i.isInit = false) (gate : GateOpen i s) (valid : ¬ InvalidCause i s) :
    ((s.upcoming 0).ok = false →
      exec i s = .next (s.ends [r0] (responseWith i s .transportError) s.st)) ∧
    ((s.upcoming 0).ok = true → (s.upcoming 1).ok = false →
      exec i s = .next (s.ends [r0, r1] (responseWith i s .transportError) s.st)) ∧
    ((s.upcoming 0).ok = true → (s.upcoming 1).ok = true →
      ∃ d, DeviceAfterOk i s d ∧ exec i s = .next (s.ends [r0, r1] (completeResponse i s) d)) := by
  have failure (k : Nat) (hk : k < 2) (before : ∀ j, j < k → (s.upcoming j).ok = true)
      (failed : (s.upcoming k).ok = false) : exec i s =
        .next (s.ends ([r0, r1].take (k + 1)) (responseWith i s .transportError) s.st) := by
    have planned : k < (plannedRequests i s).length := by rw [plan]; exact hk
    simpa [plan, notInit, failureStatus] using exec_of_first_failure gate valid planned before failed
  refine ⟨failure 0 (by decide) nofun, fun h0 => failure 1 (by decide) fun j hj => ?_,
    fun h0 h1 => ?_⟩
  · rwa [Nat.lt_one_iff.mp hj]
  · have answers : ∀ j, j < (plannedRequests i s).length → (s.upcoming j).ok = true := by
      rw [plan]
      exact answers_of_two h0 h1
    simpa only [plan] using exec_of_all_ok gate valid answers

end Decided

/-! ### INIT (R69) -/

/-- Settles O13: INIT has no gate and no InvalidParameter cause, so its thirteen answers decide. -/
theorem initOutcomes : Obligations.InitOutcomes := by
  refine ⟨encodes_of_toInstr fun _ _ _ _ _ _ _ => rfl, fun f load s => ?_⟩
  have gate : GateOpen (.init f load) s := fun _ => nofun
  have valid : ¬ InvalidCause (.init f load) s := id
  refine ⟨fun answers => ?_, fun k planned before failed => ?_⟩
  · obtain ⟨_, rfl, h⟩ := exec_of_all_ok gate valid answers
    exact h
  · rw [exec_of_first_failure gate valid planned before failed]
    cases k <;> rfl

/-! ### SETUP_PLL and SETUP_PLL_INT (R70, R71) -/

/-- Settles O14: by `exec_of_two_requests`, the burst at `PLL_BASE[p]` and the soft reset. -/
theorem setupPllOutcomes : Obligations.SetupPllOutcomes := by
  refine ⟨encodes_of_toInstr fun _ _ _ _ _ _ _ => rfl, fun p a b c s => ?_⟩
  rw [← pllBase_eq p]
  refine ⟨exec_of_not_initialised rfl rfl, fun initialised hr => ?_, ?_⟩
  · exact exec_of_invalid (fun _ _ => initialised) hr
  have ends (initialised : s.st.initialised = true) (hr : PllInRange a b c) :=
    exec_of_two_requests (i := .setupPll p a b c) (s := s) rfl rfl (fun _ _ => initialised)
      (not_not_intro hr)
  refine ⟨fun hi hr => (ends hi hr).1, fun hi hr => (ends hi hr).2.1, fun hi hr h0 h1 => ?_⟩
  obtain ⟨_, rfl, h⟩ := (ends hi hr).2.2 h0 h1
  exact h

/-- The fields of integer mode with denominator 1, for every divider of R70, R72 and R73. -/
theorem computeFields_int (k : BlockKind) {a : Nat} (hmin : 4 ≤ a) (hmax : a ≤ 2048) :
    (computeFields k a 0 1).p1.toNat = 128 * a - 512 ∧ (computeFields k a 0 1).p2 = 0 ∧
      (computeFields k a 0 1).p3 = 1 := by
  rw [computeFields_of_exactFields (exactFields_zero k a 1)]
  refine ⟨?_, rfl, rfl⟩
  rw [trunc, BitVec.toNat_ofInt]
  omega

/-- Settles O15: SETUP_PLL_INT unfolds to SETUP_PLL with b = 0 and c = 1, whose fields are
`computeFields_int`. -/
theorem setupPllIntOutcomes : Obligations.SetupPllIntOutcomes := by
  refine ⟨encodes_of_toInstr fun _ _ _ _ _ _ _ => rfl, fun p a s => ⟨rfl, fun hi hr => ?_, ?_⟩⟩
  · exact exec_of_invalid (fun _ _ => hi) hr
  intro hi hmin hmax h0 h1
  have hr : PllInRange a 0 1 := (pllInRange_int a).mpr ⟨hmin, hmax⟩
  have valid : ¬ InvalidCause (.setupPllInt p a) s := not_not_intro ⟨hmin, hmax⟩
  obtain ⟨_, rfl, h⟩ := (exec_of_two_requests rfl rfl (fun _ _ => hi) valid).2.2 h0 h1
  obtain ⟨p1, p2, p3⟩ :=
    computeFields_int .pll (a := a.toNat) (le_trans (by decide) hmin) (hmax.trans (by decide))
  refine ⟨_, _, h, State.ends_responses .., rfl, p1, p2, p3, ?_, rfl, ?_⟩
  · refine (BitVec.toNat_ofNat ..).trans ((Nat.mod_eq_of_lt (pllHzOf_lt hr s.st.xtalHz)).trans ?_)
    simp [pllHzOf]
  · rw [newTrace_ends, State.answered_burst_write (answers_of_two h0 h1), ← pllBase_eq]
    rfl

/-! ### SETUP_MS and SETUP_MS_INT (R72, R73) -/

/-- Settles O16: the checks by `exec_of_invalid`, the frequency check alone by `invalidCause_setupMs_iff`, and
the burst and the clock-control write by `exec_of_two_requests`. -/
theorem setupMsOutcomes : Obligations.SetupMsOutcomes := by
  refine ⟨encodes_of_toInstr fun _ _ _ _ _ _ _ => rfl, fun ch p a b d s =>
    ⟨exec_of_not_initialised rfl rfl, fun initialised causes => ?_⟩, fun c p a b d s => ?_⟩
  · refine exec_of_invalid (fun _ _ => initialised) ?_
    rcases causes with channel | range | unconfigured
    · exact .inl channel
    · exact .inr (.inl range)
    · exact .inr (.inr (.inl unconfigured))
  rw [← msBase_eq, ← clkctlReg_eq]
  intro _ _ _ hz _ _ _ initialised inRange configured
  have gate : GateOpen (.setupMs c.number p a b d) s := fun _ _ => initialised
  have cause : InvalidCause (.setupMs c.number p a b d) s ↔ FoutRejected s hz :=
    invalidCause_setupMs_iff inRange configured
  have plan : plannedRequests (.setupMs c.number p a b d) s = setupMsRequests c p a b d s := by
    simp [plannedRequests]
  have complete : completeResponse (.setupMs c.number p a b d) s = setupMsResponse c p a b d s := by
    simp [completeResponse]
  have ends (accepted : ¬ FoutRejected s hz) :=
    exec_of_two_requests plan rfl gate (mt cause.mp accepted)
  rw [responseWith, complete] at ends
  refine ⟨fun rejected => exec_of_invalid gate (cause.mpr rejected), fun ha => (ends ha).1,
    fun ha => (ends ha).2.1, fun ha h0 h1 => ?_⟩
  obtain ⟨_, rfl, h⟩ := (ends ha).2.2 h0 h1
  exact h

/-- Settles O17: SETUP_MS_INT is SETUP_MS with b = 0 and c = 1 by `execSetupMsInt_of_div`, whose fields are
`computeFields_int`. -/
theorem setupMsIntOutcomes : Obligations.SetupMsIntOutcomes := by
  refine ⟨encodes_of_toInstr fun _ _ _ _ _ _ _ => rfl, fun ch p a s =>
    ⟨exec_of_not_initialised rfl rfl, fun hi hdiv => ?_, fun hdiv => ?_⟩, fun c p a s => ?_⟩
  · exact exec_of_invalid (fun _ _ => hi) (.inl (by simpa using hdiv))
  · exact execSetupMsInt_of_div (by simpa using hdiv)
  intro hi hmem configured accepted h0 h1
  have hdiv : a.toNat = 4 ∨ a.toNat = 6 ∨ a.toNat = 8 := by simpa using hmem
  have hmin : 4 ≤ a.toNat := by omega
  have hmax : a.toNat ≤ 2048 := by omega
  have inRange : MsInRange a 0 1 := ⟨hmin, hmax, by decide⟩
  have valid : ¬ InvalidCause (.setupMsInt c.number p a) s := by
    rw [← invalidCause_setupMs_int hdiv, invalidCause_setupMs_iff inRange configured]
    simpa using accepted
  have plan : plannedRequests (.setupMsInt c.number p a) s = setupMsRequests c p a 0 1 s := by
    simp [plannedRequests]
  have complete : completeResponse (.setupMsInt c.number p a) s = setupMsResponse c p a 0 1 s := by
    simp [completeResponse]
  obtain ⟨_, rfl, h⟩ := (exec_of_two_requests plan rfl (fun _ _ => hi) valid).2.2 h0 h1
  rw [complete] at h
  obtain ⟨p1, p2, p3⟩ := computeFields_int .ms hmin hmax
  refine ⟨setupMsResponse c p a 0 1 s, rfl, p1, p2, p3, ?_, msBase_eq c, ?_⟩
  · rw [setupMsResponse_freq_toNat inRange]
    simp
  · rw [← msBase_eq, ← clkctlReg_eq]
    exact h

/-! ### SETUP_RDIV (R74) -/

/-- The byte SETUP_RDIV writes back, as the number R74 gives. -/
theorem mergeRdiv_eq_ofNat (shift : Nat) (v : Byte) (e : RdivExp) : mergeRdiv shift v e =
    BitVec.ofNat 8 (v.toNat &&& (2 ^ shift - 1) ||| e.toNat * 2 ^ shift) := by
  have exponent : rdivBits shift e = BitVec.ofNat 8 (e.toNat * 2 ^ shift) :=
    BitVec.eq_of_toNat_eq (rdivBits_toNat shift e)
  rw [mergeRdiv, exponent, BitVec.ofNat_or, BitVec.ofNat_and, BitVec.ofNat_toNat, BitVec.setWidth_eq]

/-- Settles O18: by `exec_of_two_requests`, the read and the write of the parameter-3 byte. -/
theorem setupRdivOutcomes : Obligations.SetupRdivOutcomes := by
  refine ⟨encodes_of_toInstr fun _ _ _ _ _ _ _ => rfl, fun ch e s =>
    ⟨exec_of_not_initialised rfl rfl, fun initialised channel => ?_⟩, fun c e s => ?_⟩
  · exact exec_of_invalid (fun _ _ => initialised) channel
  rw [← param3Reg_eq]
  intro reg _ nv initialised
  have valid : ¬ InvalidCause (.setupRdiv c.number e) s := Nat.not_lt.mpr (channel_number_toNat_le c)
  have plan : plannedRequests (.setupRdiv c.number e) s = [.readByte reg, .writeByte reg nv] := by
    rw [plannedRequests, channelOf_number, Option.elim_some, setupRdivRequests, mergeRdiv_eq_ofNat]
  obtain ⟨readFails, writeFails, completes⟩ :=
    exec_of_two_requests plan rfl (fun _ _ => initialised) valid
  refine ⟨readFails, writeFails, fun h0 h1 => ?_⟩
  obtain ⟨_, ⟨c', hc, rfl⟩, h⟩ := completes h0 h1
  obtain rfl : c = c' := by simpa using congrArg channelOf hc
  exact h

/-! ### The lifecycle (R75) -/

theorem lifecycle_of_initialised {d : Device} (h : d.initialised = true) :
    d.lifecycle = .initialised d.pllCfg := if_pos h

theorem lifecycle_of_not_initialised {d : Device} (h : d.initialised = false) :
    d.lifecycle = .uninitialised := if_neg (Bool.eq_false_iff.mp h)

theorem lifecycle_congr {d d' : Device} (hinit : d.initialised = d'.initialised)
    (hcfg : d.pllCfg = d'.pllCfg) : d.lifecycle = d'.lifecycle := by
  rw [Device.lifecycle, hinit, hcfg, Device.lifecycle]

section Lifecycle
variable {i : Instr} {s t : State} {d : Device} {p : PllId}

theorem exec_gate_of_ok (h : exec i s = .next t) (hok : t.lastStatus = some .ok) : GateOpen i s := by
  obtain ⟨_, _, _, rfl, outcome, -⟩ := exec_next_inversion h
  cases outcome with
  | ok _ _ gate => exact gate
  | notInitialised _ response => simp [response] at hok
  | invalid _ response => simp [response] at hok
  | transportError _ _ status => simp [status] at hok
  | notFound _ response => simp [response] at hok

theorem Instr.isDevice_of_configures (hi : i.configures = some p) :
    i.isDevice = true ∧ i.isInit = false := by
  cases i with
  | setupPll | setupPllInt => exact ⟨rfl, rfl⟩
  | _ => exact absurd hi nofun

theorem DeviceAfterOk.init_initialises (h : DeviceAfterOk i s d) (hi : i.isInit = true) :
    d.initialised = true := by
  cases i with
  | init f load =>
    obtain rfl : d = ⟨true, f, ⟨false, false⟩, ⟨0, 0⟩, ⟨0, 0, 0⟩⟩ := h
    rfl
  | _ => exact absurd hi Bool.false_ne_true

theorem DeviceAfterOk.pllCfg_of_configures (h : DeviceAfterOk i s d) (hi : i.configures = some p) :
    d.initialised = s.st.initialised ∧ d.pllCfg = s.st.pllCfg.set p true := by
  cases i with
  | setupPll q | setupPllInt q =>
    obtain rfl : q = p := Option.some.inj hi
    obtain rfl := h
    exact ⟨rfl, rfl⟩
  | _ => exact absurd hi nofun

theorem DeviceAfterOk.lifecycle_kept (h : DeviceAfterOk i s d) (notInit : i.isInit = false)
    (hi : i.configures = none) : d.lifecycle = s.st.lifecycle := by
  cases i with
  | init => exact absurd notInit nofun
  | setupPll | setupPllInt => exact absurd hi nofun
  | setupRdiv =>
    obtain ⟨c, -, rfl⟩ := h
    exact lifecycle_congr rfl rfl
  | _ =>
    obtain rfl := h
    rfl

end Lifecycle

/-- Settles O46: `st` after status OK is `DeviceAfterOk`, after an error `exec_st_of_error`. -/
theorem lifecycleTransitions : Obligations.LifecycleTransitions := by
  refine ⟨fun d => ⟨lifecycle_of_not_initialised, lifecycle_of_initialised⟩, fun i s t h =>
    ⟨fun hi hok => ?_, fun hi herr => ?_, fun p hp hok => ?_, fun notInit quiet => ?_⟩⟩
  · obtain ⟨cleared, -⟩ := exec_init_clears h hi
    rw [lifecycle_of_initialised ((exec_st_of_ok h hok).init_initialises hi), cleared]
  · rw [exec_st_of_error h herr, if_pos hi]
    rfl
  · obtain ⟨isDevice, notInit⟩ := Instr.isDevice_of_configures hp
    have initialised := exec_gate_of_ok h hok isDevice notInit
    obtain ⟨initKept, cfg⟩ := (exec_st_of_ok h hok).pllCfg_of_configures hp
    refine ⟨lifecycle_of_initialised initialised, ?_⟩
    rw [lifecycle_of_initialised (initKept.trans initialised), cfg]
  · by_cases hok : t.lastStatus = some .ok
    · exact (exec_st_of_ok h hok).lifecycle_kept notInit (quiet.resolve_right (not_not_intro hok))
    · rw [exec_st_of_error h hok, notInit]
      rfl

end Sys2Proof.Machine
end

section
/-! The exceptions (R76 to R82): which status a command ends with, by its gate, its InvalidParameter causes
and its answers, and what an error leaves behind. -/

namespace Sys2Proof.Machine

/-! ### The last transaction is the only one that can fail (R82) -/

section Failure
variable {i : Instr} {s : State} {reqs : List Request} {resp : Response} {d : Device}

theorem CommandOutcome.answers_before_last (o : CommandOutcome i s reqs resp d) :
    ∀ j, j + 1 < reqs.length → (s.upcoming j).ok = true := by
  intro j hj
  cases o with
  | ok _ answers => exact answers j (by omega)
  | notInitialised none => simp [none] at hj
  | invalid none => simp [none] at hj
  | transportError k length _ before => exact before j (by omega)
  | notFound probe => simp [probe] at hj

/-- The last request of the list is about to answer `err`. -/
def LastFails (s : State) (reqs : List Request) : Prop :=
  ∃ k, reqs.length = k + 1 ∧ (s.upcoming k).ok = false

theorem CommandOutcome.lastFails_iff (o : CommandOutcome i s reqs resp d) :
    LastFails s reqs ↔ resp.status = .deviceNotFound ∨ resp.status = .transportError := by
  cases o with
  | ok status answers =>
    have succeeds : ¬ LastFails s reqs := fun ⟨k, length, failed⟩ =>
      Bool.eq_false_iff.mp failed (answers k (by omega))
    simp [status, succeeds]
  | notInitialised none response => simp [LastFails, none, response]
  | invalid none response => simp [LastFails, none, response]
  | transportError k length status _ failed => simp [LastFails, status, length, failed]
  | notFound probe response failed => simp [LastFails, response, probe, failed]

theorem State.answered_dropLast_ne_err (answers : ∀ j, j + 1 < reqs.length → (s.upcoming j).ok = true) :
    ∀ x ∈ (s.answered reqs).dropLast, x.reply ≠ .err := by
  intro x hx
  obtain ⟨j, hj, rfl⟩ := List.getElem_of_mem hx
  have hj' : j + 1 < reqs.length := by
    rw [List.length_dropLast, State.length_answered] at hj
    omega
  rw [List.getElem_dropLast, s.getElem_answered reqs j (by omega), ne_eq, Request.reply_eq_err_iff,
    answers j hj']
  exact Bool.noConfusion

theorem State.answered_getLast?_err_iff :
    (∃ x, (s.answered reqs).getLast? = some x ∧ x.reply = .err) ↔ LastFails s reqs := by
  rw [List.getLast?_eq_getElem?, State.length_answered]
  cases hlen : reqs.length with
  | zero => simp [LastFails, List.eq_nil_of_length_eq_zero hlen, State.answered]
  | succ k =>
    rw [Nat.add_sub_cancel, List.getElem?_eq_getElem (by simp [hlen]),
      s.getElem_answered reqs k (by omega)]
    simp [LastFails, hlen, Request.reply_eq_err_iff]

end Failure

/-! ### What a command reports and requests (R76, R82) -/

section Exec
variable {i : Instr} {s t : State} {e : Status}

theorem exec_reports (h : exec i s = .next t) :
    ∃ e, t.lastStatus = some e ∧ t.responses = s.responses ++ [responseWith i s e] := by
  obtain ⟨_, e, _, rfl, -⟩ := exec_plan_inversion h
  exact ⟨e, by simp, State.ends_responses ..⟩

theorem exec_responses_of_status (h : exec i s = .next t) (he : t.lastStatus = some e) :
    t.responses = s.responses ++ [responseWith i s e] := by
  obtain ⟨e', he', reported⟩ := exec_reports h
  obtain rfl : e' = e := Option.some.inj (he'.symm.trans he)
  exact reported

/-- The response of an error other than TransportError does not say which check failed (R76). -/
theorem exec_responses_of_check (h : exec i s = .next t) (he : t.lastStatus = some e) (notOk : e ≠ .ok)
    (notTransport : e ≠ .transportError) :
    t.responses = s.responses ++ [{ Response.blank with status := e }] := by
  rw [exec_responses_of_status h he, responseWith_eq_blank s e notOk notTransport]

/-- The trace only grows, and neither a parameter nor a waiting command changes (R82). -/
theorem exec_frame (h : exec i s = .next t) :
    t.trace = s.trace ++ newTrace s t ∧ t.params = s.params ∧ t.commands = s.commands := by
  obtain ⟨_, _, _, rfl, -⟩ := exec_next_inversion h
  simp

theorem exec_answers_before_last (h : exec i s = .next t) :
    ∀ x ∈ (newTrace s t).dropLast, x.reply ≠ .err := by
  obtain ⟨_, _, _, rfl, outcome, -⟩ := exec_next_inversion h
  rw [newTrace_ends]
  exact State.answered_dropLast_ne_err outcome.answers_before_last

theorem exec_last_failed_iff (h : exec i s = .next t) :
    (∃ x, (newTrace s t).getLast? = some x ∧ x.reply = .err) ↔
      t.lastStatus = some .deviceNotFound ∨ t.lastStatus = some .transportError := by
  obtain ⟨_, _, _, rfl, outcome, -⟩ := exec_next_inversion h
  rw [newTrace_ends, State.answered_getLast?_err_iff, outcome.lastFails_iff, State.ends_lastStatus,
    Option.some.injEq, Option.some.injEq]

/-- Some transaction failed exactly when the last one did. -/
theorem exec_failed_iff (h : exec i s = .next t) : (∃ x ∈ newTrace s t, x.reply = .err) ↔
    t.lastStatus = some .deviceNotFound ∨ t.lastStatus = some .transportError := by
  rw [← exec_last_failed_iff h]
  constructor
  · rintro ⟨x, hx, failed⟩
    have nonempty := List.ne_nil_of_mem hx
    refine ⟨(newTrace s t).getLast nonempty, List.getLast?_eq_some_getLast nonempty, ?_⟩
    rw [← List.dropLast_append_getLast nonempty, List.mem_append, List.mem_singleton] at hx
    rcases hx with hx | rfl
    · exact absurd failed (exec_answers_before_last h x hx)
    · exact failed
  · rintro ⟨x, hx, failed⟩
    exact ⟨x, List.mem_of_getLast? hx, failed⟩

end Exec

/-! ### Why a command ends with a status (R76 to R81) -/

/-- What is true of a command and its state when it ends with a status (R77 to R80). -/
def StatusReason (i : Instr) (s : State) : Status → Prop
  | .ok => GateOpen i s ∧ ¬ InvalidCause i s
  | .deviceNotFound => i.isInit = true ∧ (s.upcoming 0).ok = false
  | .deviceNotInitialised => i.isDevice = true ∧ i.isInit = false ∧ s.st.initialised = false
  | .invalidParameter => GateOpen i s ∧ InvalidCause i s
  | .transportError => i.isDevice = true ∧ GateOpen i s ∧ ¬ InvalidCause i s ∧
      (i.isInit = true → (s.upcoming 0).ok = true)

section Reason
variable {i : Instr} {s t : State} {e : Status}

theorem exec_statusReason (h : exec i s = .next t) (he : t.lastStatus = some e) :
    StatusReason i s e := by
  obtain ⟨_, resp, _, rfl, outcome, -⟩ := exec_next_inversion h
  obtain rfl : resp.status = e := by simpa using he
  cases outcome with
  | ok status _ gate valid => rw [status]; exact ⟨gate, valid⟩
  | notInitialised _ response isDevice notInit closed => rw [response]; exact ⟨isDevice, notInit, closed⟩
  | invalid _ response gate cause => rw [response]; exact ⟨gate, cause⟩
  | transportError k _ status before _ isDevice later gate valid =>
    rw [status]
    exact ⟨isDevice, gate, valid, fun isInit => before 0 (Nat.pos_of_ne_zero (later isInit))⟩
  | notFound _ response failed isInit => rw [response]; exact ⟨isInit, failed⟩

theorem gateOpen_of_isInit (s : State) (isInit : i.isInit = true) : GateOpen i s :=
  fun _ notInit => absurd isInit (Bool.eq_false_iff.mp notInit)

theorem not_invalidCause_of_isInit (s : State) (isInit : i.isInit = true) : ¬ InvalidCause i s := by
  cases i with
  | init => exact id
  | _ => exact absurd isInit nofun

theorem gateOpen_of_not_closed (notClosed : ¬ (i.isDevice = true ∧ s.st.initialised = false)) :
    GateOpen i s := fun isDevice _ =>
  (Bool.not_eq_false _).mp fun closed => notClosed ⟨isDevice, closed⟩

/-- An INIT whose probe fails requests nothing else (R69, R77). -/
theorem exec_of_probe_failed (isInit : i.isInit = true) (failed : (s.upcoming 0).ok = false) :
    exec i s = .next (s.ends [.probe] { Response.blank with status := .deviceNotFound }
      Device.powerOn) := by
  cases i with
  | init f load =>
    exact exec_of_first_failure (k := 0) (gateOpen_of_isInit s isInit)
      (not_invalidCause_of_isInit s isInit) (Nat.succ_pos 12) nofun failed
  | _ => exact absurd isInit nofun

/-- Behind its gate and without an InvalidParameter cause, a command whose transactions all answer `ok`
ends with OK. -/
theorem exec_ok_of_no_failure (h : exec i s = .next t) (gate : GateOpen i s) (valid : ¬ InvalidCause i s)
    (noFailure : ¬ ∃ x ∈ newTrace s t, x.reply = .err) : t.lastStatus = some .ok := by
  obtain ⟨e, he, -⟩ := exec_reports h
  have reason := exec_statusReason h he
  cases e with
  | ok => exact he
  | deviceNotFound => exact absurd ((exec_failed_iff h).mpr (.inl he)) noFailure
  | deviceNotInitialised =>
    obtain ⟨isDevice, notInit, closed⟩ := reason
    exact absurd (gate isDevice notInit) (Bool.eq_false_iff.mp closed)
  | invalidParameter => exact absurd reason.2 valid
  | transportError => exact absurd ((exec_failed_iff h).mpr (.inr he)) noFailure

end Reason

/-- Settles O39: the status has its reason by `exec_statusReason`, and a closed gate is the end of the command
by `exec_of_not_initialised`. -/
theorem notInitialisedGate : Obligations.NotInitialisedGate := by
  intro i s t h
  have closed_end : StatusReason i s .deviceNotInitialised →
      t = s.ends [] { Response.blank with status := .deviceNotInitialised } s.st :=
    fun ⟨isDevice, notInit, closed⟩ =>
      Host.Outcome.next.inj (h.symm.trans (exec_of_not_initialised isDevice notInit closed))
  refine ⟨⟨exec_statusReason h, fun closed => ?_⟩, fun he => closed_end (exec_statusReason h he)⟩
  rw [closed_end closed]
  exact State.ends_lastStatus ..

/-- Settles O40: the status has its reason by `exec_statusReason`, and a cause behind the gate is the end of
the command by `exec_of_invalid`. -/
theorem invalidParameterCauses : Obligations.InvalidParameterCauses := by
  intro i s t h gate
  have cause_end (cause : InvalidCause i s) :
      t = s.ends [] { Response.blank with status := .invalidParameter } s.st :=
    Host.Outcome.next.inj (h.symm.trans (exec_of_invalid gate cause))
  refine ⟨⟨fun he => (exec_statusReason h he).2, fun cause => ?_⟩, cause_end⟩
  rw [cause_end cause]
  exact State.ends_lastStatus ..

/-- Settles O41: the gate, the causes and INIT's probe each end the command at once; past them a failed
transaction is TransportError by `exec_failed_iff`, and without one the status is OK. -/
theorem statusPriority : Obligations.StatusPriority := by
  intro i s t h failed
  refine ⟨fun isInit => ⟨fun probeFailed => ?_, fun probed hf => ?_, ?_⟩,
    fun notInit => ⟨fun ⟨isDevice, closed⟩ => ?_, fun notClosed cause => ?_, fun notClosed valid =>
      ⟨fun hf => ?_, ?_⟩⟩⟩
  · obtain rfl := Host.Outcome.next.inj (h.symm.trans (exec_of_probe_failed isInit probeFailed))
    exact ⟨State.ends_lastStatus .., by
      simp [State.answered, State.transaction, Request.reply_of_err probeFailed]⟩
  · refine ((exec_failed_iff h).mp hf).resolve_left fun he => ?_
    exact Bool.eq_false_iff.mp (exec_statusReason h he).2 probed
  · exact exec_ok_of_no_failure h (gateOpen_of_isInit s isInit) (not_invalidCause_of_isInit s isInit)
  · obtain rfl := Host.Outcome.next.inj (h.symm.trans (exec_of_not_initialised isDevice notInit closed))
    exact ⟨State.ends_lastStatus .., newTrace_ends ..⟩
  · obtain rfl := Host.Outcome.next.inj
      (h.symm.trans (exec_of_invalid (gateOpen_of_not_closed notClosed) cause))
    exact ⟨State.ends_lastStatus .., newTrace_ends ..⟩
  · refine ((exec_failed_iff h).mp hf).resolve_left fun he => ?_
    exact Bool.eq_false_iff.mp notInit (exec_statusReason h he).1
  · exact exec_ok_of_no_failure h (gateOpen_of_not_closed notClosed) valid

/-- Settles O42: `st` by `exec_st_of_error`, the trace by `exec_answers_before_last` and
`exec_last_failed_iff`, and what TransportError reports by `exec_withAllOk_completes`. -/
theorem errorsArePrecise : Obligations.ErrorsArePrecise := by
  intro i s t e h he
  have device (notOk : e ≠ .ok) : t.st = if i.isInit then Device.powerOn else s.st :=
    exec_st_of_error h (by simpa [he] using notOk)
  refine ⟨fun notOk notInit => ?_, fun notOk isInit => ?_, exec_answers_before_last h, ?_,
    exec_responses_of_check h he, fun transport => ?_, exec_frame h⟩
  · simpa [notInit] using device notOk
  · rw [device notOk, if_pos isInit]
    rfl
  · rw [exec_last_failed_iff h, he, Option.some.injEq, Option.some.injEq]
  · subst transport
    obtain ⟨-, gate, valid, -⟩ := exec_statusReason h he
    obtain ⟨t', h', complete⟩ := exec_withAllOk_completes gate valid
    exact ⟨t', _, _, h', exec_responses_of_status h he, complete, rfl⟩

/-! ### Which commands raise each status (R76) -/

/-- The opcodes of R76's column "raised by". -/
def raisers : Status → List (BitVec 4)
  | .ok => [0x1, 0x2, 0x3, 0x4, 0x5, 0x6, 0x8, 0x9, 0xA, 0xB]
  | .deviceNotFound => [0x1]
  | .deviceNotInitialised => [0x2, 0x3, 0x4, 0x5, 0x6]
  | .invalidParameter => [0x2, 0x3, 0x4, 0x5, 0x6, 0x8, 0xA]
  | .transportError => [0x1, 0x2, 0x3, 0x4, 0x5, 0x6]

/-- A device that is ready for every command: initialised, with both PLLs configured. -/
def configuredState : State :=
  { State.reset with st := { Device.powerOn with initialised := true, pllCfg := ⟨true, true⟩ } }

/-- One command of each opcode, none of which has an InvalidParameter cause on a configured device. -/
def validCommands : List Instr :=
  [.init 0 0, .setupPll .a 15 0 1, .setupPllInt .a 15, .setupMs 0 .a 4 0 1, .setupMsInt 0 .a 4,
   .setupRdiv 0 0, .pack .pll 0 0 1, .serPll .a 0 0 0, .serMs 0 0 0 0 0, .unpack Block.zero]

/-- One command of each opcode that has InvalidParameter causes, with an operand out of its range. -/
def invalidCommands : List Instr :=
  [.setupPll .a 0 0 0, .setupPllInt .a 0, .setupMs 3 .a 0 0 0, .setupMsInt 3 .a 0, .setupRdiv 3 0,
   .pack .pll 0 0 0, .serMs 3 0 0 0 0]

/-- The same state with the next transaction about to answer `ok` and the one after it `err`. -/
def State.withSecondFailing (s : State) : State := { s with answers := [⟨true, 0⟩, ⟨false, 0⟩] }

theorem gateOpen_configuredState (i : Instr) : GateOpen i configuredState := fun _ _ => rfl

theorem not_invalidCause_of_mem_validCommands :
    ∀ i ∈ validCommands, ¬ InvalidCause i configuredState := by
  simp [validCommands, InvalidCause, configuredState, State.reset, defaultParams, PerPll.get]

theorem invalidCause_of_mem_invalidCommands :
    ∀ i ∈ invalidCommands, InvalidCause i configuredState := by
  simp [invalidCommands, InvalidCause]

section Raises
variable {i : Instr} {s : State} {e : Status} {op : BitVec 4}

theorem raises_ok (gate : GateOpen i s) (valid : ¬ InvalidCause i s) : Raises i.opcode .ok := by
  obtain ⟨t, h, complete⟩ := exec_withAllOk_completes gate valid
  exact ⟨i, _, t, rfl, h, by simp [State.lastStatus, complete]⟩

theorem raises_deviceNotFound (isInit : i.isInit = true) : Raises i.opcode .deviceNotFound :=
  ⟨i, { State.reset with answers := [⟨false, 0⟩] }, _, rfl, exec_of_probe_failed isInit rfl,
    State.ends_lastStatus ..⟩

theorem raises_deviceNotInitialised (isDevice : i.isDevice = true) (notInit : i.isInit = false) :
    Raises i.opcode .deviceNotInitialised :=
  ⟨i, State.reset, _, rfl, exec_of_not_initialised isDevice notInit rfl, State.ends_lastStatus ..⟩

theorem raises_invalidParameter (gate : GateOpen i s) (cause : InvalidCause i s) :
    Raises i.opcode .invalidParameter :=
  ⟨i, s, _, rfl, exec_of_invalid gate cause, State.ends_lastStatus ..⟩

/-- A device command that is not refused requests more than one transaction (R69 to R74). -/
theorem one_lt_length_plannedRequests (isDevice : i.isDevice = true) (valid : ¬ InvalidCause i s) :
    1 < (plannedRequests i s).length := by
  have named {ch : Byte} (hch : ¬ 2 < ch.toNat) : ∃ c, channelOf ch = some c :=
    Option.ne_none_iff_exists'.mp (mt (channelOf_eq_none_iff ch).mp hch)
  cases i with
  | init | setupPll | setupPllInt => exact of_decide_eq_true rfl
  | setupMs ch =>
    obtain ⟨c, hc⟩ := named fun hch => valid (.inl hch)
    simp [plannedRequests, hc, setupMsRequests]
  | setupMsInt ch =>
    obtain ⟨c, hc⟩ := named fun hch => valid (.inr (.inl hch))
    simp [plannedRequests, hc, setupMsRequests]
  | setupRdiv ch =>
    obtain ⟨c, hc⟩ := named valid
    simp [plannedRequests, hc, setupRdivRequests]
  | _ => exact absurd isDevice nofun

theorem raises_transportError (isDevice : i.isDevice = true) (gate : GateOpen i s)
    (valid : ¬ InvalidCause i s) : Raises i.opcode .transportError := by
  have valid' : ¬ InvalidCause i s.withSecondFailing := valid
  have before : ∀ j, j < 1 → (s.withSecondFailing.upcoming j).ok = true := fun
    | 0, _ => rfl
  refine ⟨i, s.withSecondFailing, _, rfl, exec_of_first_failure (k := 1) gate valid'
    (one_lt_length_plannedRequests isDevice valid') before rfl, ?_⟩
  simp [failureStatus]

/-- A command that has a reason for a status has its opcode in R76's row. -/
theorem opcode_mem_raisers (reason : StatusReason i s e) : i.opcode ∈ raisers e := by
  cases e with
  | ok => cases i <;> simp [raisers, Instr.opcode]
  | deviceNotFound =>
    obtain ⟨isInit, -⟩ := reason
    cases i with
    | init => exact List.mem_singleton_self _
    | _ => exact absurd isInit nofun
  | deviceNotInitialised =>
    obtain ⟨isDevice, notInit, -⟩ := reason
    cases i with
    | setupPll | setupPllInt | setupMs | setupMsInt | setupRdiv => simp [raisers, Instr.opcode]
    | init => exact absurd notInit nofun
    | _ => exact absurd isDevice nofun
  | invalidParameter =>
    obtain ⟨-, cause⟩ := reason
    cases i with
    | init | serPll | unpack => exact cause.elim
    | _ => simp [raisers, Instr.opcode]
  | transportError =>
    obtain ⟨isDevice, -⟩ := reason
    cases i with
    | pack | serPll | serMs | unpack => exact absurd isDevice nofun
    | _ => simp [raisers, Instr.opcode]

theorem raises_of_mem_raisers (h : op ∈ raisers e) : Raises op e := by
  cases e with
  | ok =>
    change op ∈ validCommands.map Instr.opcode at h
    obtain ⟨i, hi, rfl⟩ := List.mem_map.mp h
    exact raises_ok (gateOpen_configuredState i) (not_invalidCause_of_mem_validCommands i hi)
  | deviceNotFound =>
    obtain rfl := List.mem_singleton.mp h
    exact raises_deviceNotFound (i := .init 0 0) rfl
  | deviceNotInitialised =>
    change op ∈ (validCommands.filter fun i => i.isDevice && !i.isInit).map Instr.opcode at h
    obtain ⟨i, hi, rfl⟩ := List.mem_map.mp h
    obtain ⟨-, gated⟩ := List.mem_filter.mp hi
    obtain ⟨isDevice, notInit⟩ : i.isDevice = true ∧ i.isInit = false := by simpa using gated
    exact raises_deviceNotInitialised isDevice notInit
  | invalidParameter =>
    change op ∈ invalidCommands.map Instr.opcode at h
    obtain ⟨i, hi, rfl⟩ := List.mem_map.mp h
    exact raises_invalidParameter (gateOpen_configuredState i) (invalidCause_of_mem_invalidCommands i hi)
  | transportError =>
    change op ∈ (validCommands.filter Instr.isDevice).map Instr.opcode at h
    obtain ⟨i, hi, rfl⟩ := List.mem_map.mp h
    obtain ⟨valid, isDevice⟩ := List.mem_filter.mp hi
    exact raises_transportError isDevice (gateOpen_configuredState i)
      (not_invalidCause_of_mem_validCommands i valid)

/-- R76's column "raised by", for every status. -/
theorem raises_iff (op : BitVec 4) (e : Status) : Raises op e ↔ op ∈ raisers e := by
  refine ⟨?_, raises_of_mem_raisers⟩
  rintro ⟨i, s, t, rfl, h, he⟩
  exact opcode_mem_raisers (exec_statusReason h he)

theorem completeResponse_congr {s s' : State} (device : s.st = s'.st) (params : s.params = s'.params) :
    completeResponse i s = completeResponse i s' := by
  cases i with
  | setupMs | setupMsInt =>
    simp only [completeResponse, setupMsResponse, lastRDivider, msOutputHz, device, params]
  | _ => simp only [completeResponse, device, params]

/-- The response depends on `st`, the parameters and the status alone: it does not say which transaction
failed (R76). -/
theorem responseWith_congr {s s' : State} (device : s.st = s'.st) (params : s.params = s'.params) :
    responseWith i s e = responseWith i s' e := by
  cases e with
  | ok | transportError => simp only [responseWith, completeResponse_congr device params]
  | _ => rfl

end Raises

/-- Settles O38: which opcodes raise a status by `raises_iff`, and the response of a status by
`exec_responses_of_status`, which `responseWith_congr` shows to hide the transaction. -/
theorem statusKinds : Obligations.StatusKinds := by
  refine ⟨by decide, fun e => by cases e <;> decide, fun op => ⟨raises_iff op .ok,
    (raises_iff op .deviceNotFound).trans List.mem_singleton, raises_iff op .deviceNotInitialised,
    raises_iff op .invalidParameter, raises_iff op .transportError⟩, fun i s t e h he =>
    ⟨fun codec => ?_, exec_responses_of_check h he⟩, fun i s s' t t' e _ device params h he h' he' =>
    ⟨_, exec_responses_of_status h he, ?_⟩⟩
  · have raised := (raises_iff i.opcode e).mp ⟨i, s, t, rfl, h, he⟩
    have neverFails : ∀ op ∈ [0x9#4, 0xB#4], op ∈ raisers e → e = .ok := by cases e <;> decide
    exact neverFails i.opcode codec raised
  · rw [responseWith_congr device params]
    exact exec_responses_of_status h' he'

end Sys2Proof.Machine
end

section
/-! Encoding and decoding as inverses (R40 to R42): a word decodes to a command exactly when, cut to the
bits the command reads, it is the command's encoding. -/

namespace Sys2Proof

/-! ### There and back from a command -/

theorem blockOfOperands_block (d : Block) : blockOfOperands d.highOperand d.lowOperand = d := by
  have top (x y z u : Byte) : (x ++ y ++ z ++ u).extractLsb' 24 8 = x :=
    (slice_high (by decide)).trans <| (slice_high (by decide)).trans <|
      (slice_high (by decide)).trans slice_whole
  have second (x y z u : Byte) : (x ++ y ++ z ++ u).extractLsb' 16 8 = y :=
    (slice_high (by decide)).trans <| (slice_high (by decide)).trans <|
      (slice_low (by decide)).trans slice_whole
  have third (x y z u : Byte) : (x ++ y ++ z ++ u).extractLsb' 8 8 = z :=
    (slice_high (by decide)).trans <| (slice_low (by decide)).trans slice_whole
  have last (x y z u : Byte) : (x ++ y ++ z ++ u).extractLsb' 0 8 = u :=
    (slice_low (by decide)).trans slice_whole
  rw [blockOfOperands, Block.highOperand, Block.lowOperand]
  simp only [top, second, third, last]

/-- The four bytes of an UNPACK operand, side by side, are the operand (R41). -/
theorem bytes_of_operand (a : Operand) : a.extractLsb' 24 8 ++ a.extractLsb' 16 8 ++
    a.extractLsb' 8 8 ++ a.extractLsb' 0 8 = a := by
  rw [slice_append_slice a 16 8 8, slice_append_slice a 8 8 16, slice_append_slice a 0 8 24]
  exact slice_whole

/-- The fields a command is assembled to are read as that command (R41). -/
theorem Instr.toInstr_toCommand (i : Instr) : i.toCommand.toInstr = .ok i := by
  cases i with
  | init f l =>
    have load : (l.setWidth 32).extractLsb' 0 8 = l := by
      rw [← BitVec.setWidth_eq_extractLsb' (by decide), BitVec.setWidth_setWidth_of_le _ (by decide),
        BitVec.setWidth_eq]
    exact congrArg (fun l => Except.ok (Instr.init f l)) load
  | setupPll p | setupPllInt p | setupMs _ p | setupMsInt _ p | serPll p => cases p <;> rfl
  | pack k => cases k <;> rfl
  | setupRdiv | serMs => rfl
  | unpack d => exact congrArg (fun d => Except.ok (Instr.unpack d)) (blockOfOperands_block d)

/-- Settles O4: the fields come back from the word by `Command.ofWord_toWord`, the command from its fields
by `Instr.toInstr_toCommand`. -/
theorem decodeOfEncode : Obligations.DecodeOfEncode := by
  intro i
  rw [decode, encode, Command.ofWord_toWord, Instr.toInstr_toCommand]

/-! ### Masking a word field by field -/

/-- The fields of one word cut to the bits of another. -/
def Command.and (c m : Command) : Command where
  op := c.op &&& m.op
  pll := c.pll &&& m.pll
  kind := c.kind &&& m.kind
  rsvLow := c.rsvLow &&& m.rsvLow
  ch := c.ch &&& m.ch
  e := c.e &&& m.e
  rsvHigh := c.rsvHigh &&& m.rsvHigh
  a := c.a &&& m.a
  b := c.b &&& m.b
  c := c.c &&& m.c

theorem Command.toWord_and (c m : Command) : (c.and m).toWord = c.toWord &&& m.toWord := by
  simp only [Command.toWord, Command.control, Command.and]
  iterate 9 rw [BitVec.and_append]

theorem Command.toWord_injective {c c' : Command} (h : c.toWord = c'.toWord) : c = c' := by
  rw [← c.ofWord_toWord, h, Command.ofWord_toWord]

/-- The fields that a command with opcode `op` reads (R41), as a mask. -/
def readFields (op : BitVec 4) : Command :=
  let fixed := { Command.bare (.allOnes 4) with rsvLow := .allOnes 2, rsvHigh := .allOnes 13 }
  let abc := { fixed with a := .allOnes 32, b := .allOnes 32, c := .allOnes 32 }
  match op with
  | 0x1#4 => { fixed with a := .allOnes 32, b := 0xFF }
  | 0x2#4 => { abc with pll := .allOnes 1 }
  | 0x3#4 => { fixed with pll := .allOnes 1, a := .allOnes 32 }
  | 0x4#4 => { abc with ch := .allOnes 8, pll := .allOnes 1 }
  | 0x5#4 => { fixed with ch := .allOnes 8, pll := .allOnes 1, a := .allOnes 32 }
  | 0x6#4 => { fixed with ch := .allOnes 8, e := .allOnes 3 }
  | 0x8#4 => { abc with kind := .allOnes 1 }
  | 0x9#4 => { abc with pll := .allOnes 1 }
  | 0xA#4 => { abc with ch := .allOnes 8, e := .allOnes 3 }
  | 0xB#4 => { fixed with a := .allOnes 32, b := .allOnes 32 }
  | _ => fixed

theorem Instr.readBits_eq (i : Instr) : i.readBits = (readFields i.opcode).toWord := by
  cases i <;> rfl

theorem and_readBits (w : CommandWord) (i : Instr) :
    w &&& i.readBits = ((Command.ofWord w).and (readFields i.opcode)).toWord := by
  rw [Command.toWord_and, Command.toWord_ofWord, i.readBits_eq]

/-! ### A command keeps every field it reads -/

/-- The low byte of an operand, which is all that INIT reads of field b (R41). -/
theorem and_low_byte (b : Operand) : b &&& 0xFF#32 = (b.extractLsb' 0 8).setWidth 32 := by
  apply BitVec.eq_of_toNat_eq
  rw [BitVec.toNat_setWidth_of_le (by decide), toNat_slice, Nat.pow_zero, Nat.div_one]
  exact Nat.and_two_pow_sub_one_eq_mod b.toNat 8

/-- A command's encoding has the fields it reads, and 0 in every other field. -/
theorem Command.toCommand_of_toInstr {c : Command} {i : Instr} (h : c.toInstr = .ok i) :
    i.toCommand = c.and (readFields i.opcode) := by
  have hdecode : decode c.toWord = .ok i := by rw [decode, c.ofWord_toWord, h]
  obtain ⟨hw, -⟩ := wellFormed_of_decode hdecode
  rw [c.ofWord_toWord, c.wellFormed_iff] at hw
  obtain ⟨hop, hlow, hhigh⟩ := hw
  replace hop := mem_assigned_of_not_reserved hop
  obtain ⟨op, pll, kind, rsvLow, ch, e, rsvHigh, a, b, d⟩ := c
  subst hlow hhigh
  simp only [List.mem_cons, List.not_mem_nil, or_false] at hop
  rcases hop with rfl | rfl | rfl | rfl | rfl | rfl | rfl | rfl | rfl | rfl <;>
    obtain rfl := Except.ok.inj h <;>
    simp [Instr.toCommand, Command.and, readFields, Command.bare, Instr.opcode, and_low_byte,
      bitOfPll_pllOfBit, bitOfKind_kindOfBit, blockOfOperands, Block.highOperand, Block.lowOperand,
      bytes_of_operand, -BitVec.reduceAllOnes]

/-- Every command reads its opcode and the reserved fields whole (R43). -/
theorem readFields_fixed (op : BitVec 4) : (readFields op).op = .allOnes 4 ∧
    (readFields op).rsvLow = .allOnes 2 ∧ (readFields op).rsvHigh = .allOnes 13 := by
  unfold readFields
  split <;> exact ⟨rfl, rfl, rfl⟩

theorem Instr.toCommand_fixed (i : Instr) : i.toCommand.op = i.opcode ∧ i.toCommand.rsvLow = 0 ∧
    i.toCommand.rsvHigh = 0 ∧ i.opcode ∉ reservedOpcodes := by
  cases i <;> exact ⟨rfl, rfl, rfl, by simp [Instr.opcode]⟩

/-- Fields that agree with a command's on all that its opcode reads are that command. -/
theorem Command.toInstr_of_and_eq {c : Command} {i : Instr}
    (h : c.and (readFields i.opcode) = i.toCommand) : c.toInstr = .ok i := by
  obtain ⟨readOp, readLow, readHigh⟩ := readFields_fixed i.opcode
  obtain ⟨isOp, isLow, isHigh, assigned⟩ := i.toCommand_fixed
  have op : c.op = i.opcode := by
    simpa only [Command.and, readOp, isOp, BitVec.and_allOnes] using congrArg Command.op h
  have low : c.rsvLow = 0 := by
    simpa only [Command.and, readLow, isLow, BitVec.and_allOnes] using congrArg Command.rsvLow h
  have high : c.rsvHigh = 0 := by
    simpa only [Command.and, readHigh, isHigh, BitVec.and_allOnes] using congrArg Command.rsvHigh h
  obtain ⟨j, hj, hop⟩ := Command.toInstr_of_wellFormed (c.wellFormed_iff.mpr ⟨op ▸ assigned, low, high⟩)
  have same : j.toCommand = i.toCommand := by
    rw [Command.toCommand_of_toInstr hj, hop, op, h]
  calc c.toInstr = .ok j := hj
    _ = j.toCommand.toInstr := j.toInstr_toCommand.symm
    _ = i.toCommand.toInstr := by rw [same]
    _ = .ok i := i.toInstr_toCommand

theorem decode_iff (w : CommandWord) (i : Instr) : decode w = .ok i ↔ w &&& i.readBits = encode i := by
  rw [and_readBits, encode]
  constructor
  · intro h
    rw [Command.toCommand_of_toInstr h]
  · intro h
    exact Command.toInstr_of_and_eq (Command.toWord_injective h)

/-- Settles O5: by `decode_iff` a word decodes to a command exactly when its read bits are the encoding. -/
theorem encodeOfDecodeKeepsReadBits : Obligations.EncodeOfDecodeKeepsReadBits := by
  intro w i h
  have kept : w &&& i.readBits = encode i := (decode_iff w i).mp h
  exact ⟨kept.symm, fun w' agree => (decode_iff w' i).mpr (agree.trans kept)⟩

/-- Settles O6: each word is evaluated. -/
theorem vectorWordsDecode : Obligations.VectorWordsDecode :=
  ⟨rfl, rfl, rfl, rfl, rfl, rfl, rfl, rfl, rfl, rfl⟩

end Sys2Proof

namespace Sys2Proof.Machine

theorem step_of_no_command {s : State} (h : s.commands = []) : step s = .next s := by
  simp only [step, State.fetch, h]

/-- Settles O8: `step` read at a waiting word that decodes, and at an empty queue. -/
theorem stepRunsDeliveredCommand : Obligations.StepRunsDeliveredCommand :=
  ⟨fun _ _ _ _ => step_of_decode_ok, fun _ => step_of_no_command⟩

end Sys2Proof.Machine
end

section
/-! Serializing and unpacking a parameter block are inverse, but for the bits of the parameter-3 byte that no
field occupies (R45 to R47, R58 to R61). -/

namespace Sys2Proof.Machine

/-! ### The parameter-3 byte -/

theorem p1Top_eq_append : ∀ x : BitVec 2, x.setWidth 8 = 0#6 ++ x := by decide

/-- At its default position the exponent stands in bits [7:5], and bits [4:2] are 0 (R47). -/
theorem p1Top_or_rdivBits_five : ∀ (x : BitVec 2) (r : RdivExp),
    x.setWidth 8 ||| rdivBits 5 r = r ++ 0#3 ++ x := by decide

/-- An exponent at position 2 or above leaves bits [1:0] to P1[17:16]. -/
theorem p1Top_or_rdivBits_low {shift : Nat} (h : 2 ≤ shift) (x : BitVec 2) (r : RdivExp) :
    (x.setWidth 8 ||| rdivBits shift r).extractLsb' 0 2 = x := by
  apply BitVec.eq_of_getLsbD_eq
  intro k hk
  have below : k < shift := by omega
  have inByte : k < 8 := by omega
  have inPair : k ≤ 1 := by omega
  simp [rdivBits, below, inByte, inPair]

/-! ### Unpacking a serialized block -/

/-- Only bits [1:0] of the parameter-3 byte are unpacked. -/
theorem unpackFields_serPll_with {f : Fields} {v : Byte} (h : v.extractLsb' 0 2 = f.p1.extractLsb' 16 2) :
    unpackFields { serPll f with d2 := v } = f := by
  obtain ⟨p1, p2, p3⟩ := f
  simp only [unpackFields, serPll, nibbles_or_eq_append, Fields.mk.injEq]
  refine ⟨?_, ?_, ?_⟩
  · rw [h, slice_append_slice p1 8 8 2, slice_append_slice p1 0 8 10]
    exact slice_whole
  · rw [slice_low (by decide), slice_whole, slice_append_slice p2 8 8 4, slice_append_slice p2 0 8 12]
    exact slice_whole
  · rw [slice_high (by decide), slice_whole, slice_append_slice p3 8 8 4, slice_append_slice p3 0 8 12]
    exact slice_whole

theorem unpackFields_serMs {shift : Nat} (h : 2 ≤ shift) (f : Fields) (r : RdivExp) :
    unpackFields (serMs shift f r) = f :=
  unpackFields_serPll_with (p1Top_or_rdivBits_low h _ r)

theorem unpackFields_serPll (f : Fields) : unpackFields (serPll f) = f := by
  have low : ∀ x : BitVec 2, (x.setWidth 8).extractLsb' 0 2 = x := by decide
  exact unpackFields_serPll_with (low _)

/-! ### Serializing unpacked fields -/

/-- Every byte but the parameter-3 byte comes back, and of that one bits [1:0]. -/
theorem serPll_unpackFields (d : Block) :
    serPll (unpackFields d) = { d with d2 := (d.d2.extractLsb' 0 2).setWidth 8 } := by
  have top {n : Nat} (x : BitVec n) (y z : Byte) : (x ++ y ++ z).extractLsb' 16 n = x :=
    (slice_high (by decide)).trans <| (slice_high (by decide)).trans slice_whole
  have mid {n : Nat} (x : BitVec n) (y z : Byte) : (x ++ y ++ z).extractLsb' 8 8 = y :=
    (slice_high (by decide)).trans <| (slice_low (by decide)).trans slice_whole
  have low {n : Nat} (x : BitVec n) (y z : Byte) : (x ++ y ++ z).extractLsb' 0 8 = z :=
    (slice_low (by decide)).trans slice_whole
  have nibbles (v : Byte) : v.extractLsb' 4 4 ++ v.extractLsb' 0 4 = v :=
    (slice_append_slice v 0 4 4).trans slice_whole
  simp only [serPll, unpackFields, nibbles_or_eq_append, top, mid, low, nibbles]

theorem serMs_unpackFields (shift : Nat) (d : Block) (r : RdivExp) : serMs shift (unpackFields d) r =
    { d with d2 := (d.d2.extractLsb' 0 2).setWidth 8 ||| rdivBits shift r } := by
  have d2 : ((unpackFields d).p1.extractLsb' 16 2).setWidth 8 = (d.d2.extractLsb' 0 2).setWidth 8 :=
    congrArg Block.d2 (serPll_unpackFields d)
  rw [serMs, d2, serPll_unpackFields]

theorem block_with_d2_eq_iff (d : Block) (v : Byte) : { d with d2 := v } = d ↔ v = d.d2 := by
  cases d
  simp

theorem zeros_append_iff (v : Byte) :
    0#6 ++ v.extractLsb' 0 2 = v ↔ v.extractLsb' 2 6 = 0 := by
  have whole : v.extractLsb' 2 6 ++ v.extractLsb' 0 2 = v := (slice_append_slice v 0 2 6).trans slice_whole
  constructor
  · intro h
    rw [← h]
    exact (slice_high (by decide)).trans slice_whole
  · intro h
    rwa [h] at whole

theorem exponent_zeros_append_iff (v : Byte) :
    v.extractLsb' 5 3 ++ 0#3 ++ v.extractLsb' 0 2 = v ↔ v.extractLsb' 2 3 = 0 := by
  have whole : v.extractLsb' 5 3 ++ v.extractLsb' 2 3 ++ v.extractLsb' 0 2 = v := by
    rw [slice_append_slice v 2 3 3, slice_append_slice v 0 2 6]
    exact slice_whole
  constructor
  · intro h
    rw [← h]
    exact (slice_high (by decide)).trans <| (slice_low (by decide)).trans slice_whole
  · intro h
    rwa [h] at whole

/-- Settles O23: `unpackFields_serPll` and `unpackFields_serMs`, and for the converse the one byte in which
the block can differ. -/
theorem roundTrip : Obligations.RoundTrip := by
  refine ⟨fun f r shift h => ⟨unpackFields_serPll f, unpackFields_serMs h f r⟩, fun d => ⟨?_, ?_⟩⟩
  · rw [serPll_unpackFields, block_with_d2_eq_iff, p1Top_eq_append, zeros_append_iff]
  · rw [serMs_unpackFields, block_with_d2_eq_iff, p1Top_or_rdivBits_five, exponent_zeros_append_iff]

end Sys2Proof.Machine
end

section
/-! What the three fields are of the divider a + b/c (R45, R52 to R57), and that the codec commands are
functions of their operands and the parameters of R7. -/

namespace Sys2Proof.Machine

/-! ### The fields as exact values (R57) -/

theorem trunc_toNat (n : Nat) (v : Int) : ((trunc n v).toNat : Int) = v % 2 ^ n := by
  have modulus : (0 : Int) < 2 ^ n := by positivity
  rw [trunc, BitVec.toNat_ofInt, Nat.cast_pow, Nat.cast_ofNat,
    Int.toNat_of_nonneg (Int.emod_nonneg v modulus.ne')]

theorem trunc_toNat_of_lt {n : Nat} {v : Int} (nonneg : 0 ≤ v) (small : v < 2 ^ n) :
    ((trunc n v).toNat : Int) = v := by
  rw [trunc_toNat, Int.emod_eq_of_lt nonneg small]

/-- In general fractional mode P2 is the remainder of 128b by c (R55). -/
theorem general_p2 (b c : Nat) : 128 * (b : Int) - c * ((128 * b / c : Nat) : Int) = (128 * b % c : Nat) := by
  have division := Nat.div_add_mod (128 * b) c
  zify at division ⊢
  linarith

theorem general_q_le {b c : Nat} (h : b < c) : 128 * b / c ≤ 127 := by
  have : 128 * b / c < 128 := Nat.div_lt_of_lt_mul (by omega)
  omega

section Fields
variable {k : BlockKind} {a b c : Nat}

/-- The exact fields for b < c, which leaves no room for the simplified mode: q and the remainder of
general fractional mode, both 0 in integer mode. -/
theorem exactFields_of_lt (k : BlockKind) (a : Nat) (h : b < c) : exactFields k a b c =
    (128 * (a : Int) + ((128 * b / c : Nat) : Int) - 512, ((128 * b % c : Nat) : Int), (c : Int)) := by
  by_cases hb : b = 0
  · subst hb
    simp [exactFields_zero]
  · have notOne : ¬ (c = 1 ∧ k = .ms) := fun ⟨hc, _⟩ => by omega
    rw [exactFields_general hb notOne, general_p2]

/-- In the ranges of SETUP_PLL and SETUP_MS with b < c every exact value fits its field (R57). -/
theorem computeFields_of_lt (k : BlockKind) (amin : 4 ≤ a) (amax : a ≤ 2048) (h : b < c)
    (cmax : c ≤ 0xFFFFF) :
    ((computeFields k a b c).p1.toNat : Int) = 128 * (a : Int) + ((128 * b / c : Nat) : Int) - 512 ∧
    ((computeFields k a b c).p2.toNat : Int) = (128 * b % c : Nat) ∧
    ((computeFields k a b c).p3.toNat : Int) = c := by
  have q := general_q_le h
  have r : 128 * b % c < c := Nat.mod_lt _ (by omega)
  rw [computeFields_of_exactFields (exactFields_of_lt k a h)]
  generalize 128 * b / c = quotient at q ⊢
  exact ⟨trunc_toNat_of_lt (by omega) (by omega), trunc_toNat_of_lt (by omega) (by omega),
    trunc_toNat_of_lt (by omega) (by omega)⟩

end Fields

/-- Settles O25: the fields are truncations by definition, and with b < c `computeFields_of_lt` shows that
they lose nothing. -/
theorem fieldsAreTruncatedExactValues : Obligations.FieldsAreTruncatedExactValues := by
  refine ⟨fun k a b c => ⟨trunc_toNat 18 _, trunc_toNat 20 _, trunc_toNat 20 _⟩,
    fun k a b c amin amax h cmax => ?_⟩
  rw [exactFields_of_lt k a h]
  exact computeFields_of_lt k amin amax h cmax

/-- Settles O28: the P2 field is the remainder of `general_p2`, which is below c and so fits 20 bits. -/
theorem generalFractionalMode : Obligations.GeneralFractionalMode := by
  intro k a b c hb cmin cmax hmode
  have fields := exactFields_general (a := a) hb hmode
  have r : 128 * b % c < c := Nat.mod_lt _ cmin
  have p2 : (computeFields k a b c).p2.toNat = 128 * b % c := by
    rw [computeFields_of_exactFields fields, general_p2]
    have small : ((128 * b % c : Nat) : Int) < 2 ^ 20 := by omega
    exact Nat.cast_injective (trunc_toNat_of_lt (Nat.cast_nonneg _) small)
  exact ⟨fields, p2, p2 ▸ r, general_q_le⟩

/-- Settles O29: the fields of `computeFields_of_lt`, whose quotient and remainder recombine to 128b. -/
theorem fieldsRepresentDivider : Obligations.FieldsRepresentDivider := by
  intro k a b c amin amax _ h cmax f
  obtain ⟨p1, p2, p3⟩ := computeFields_of_lt k amin amax h cmax
  have hp1 : f.p1.toNat + 512 = 128 * a + 128 * b / c := by
    change (f.p1.toNat : Int) = _ at p1
    generalize 128 * b / c = quotient at p1 ⊢
    omega
  have hp2 : f.p2.toNat = 128 * b % c := Nat.cast_injective p2
  have hp3 : f.p3.toNat = c := Nat.cast_injective p3
  refine ⟨?_, hp3⟩
  calc (f.p1.toNat + 512) * f.p3.toNat + f.p2.toNat
      = 128 * (a * c) + (c * (128 * b / c) + 128 * b % c) := by rw [hp1, hp2, hp3]; ring
    _ = 128 * (a * c + b) := by rw [Nat.div_add_mod]; ring

/-! ### The codec commands read no state (R42) -/

section Codec
variable {i : Instr} {s s' : State}

theorem invalidCause_codec_congr (s s' : State) (hi : i.isDevice = false) :
    InvalidCause i s ↔ InvalidCause i s' := by
  cases i with
  | pack | serPll | serMs | unpack => exact Iff.rfl
  | _ => exact absurd hi nofun

theorem completeResponse_codec_congr (hi : i.isDevice = false) (params : s.params = s'.params) :
    completeResponse i s = completeResponse i s' := by
  cases i with
  | serMs => simp only [completeResponse, params]
  | pack | serPll | unpack => rfl
  | _ => exact absurd hi nofun

end Codec

/-- Settles O24: a codec command ends with its InvalidParameter cause or with its complete response, and
both depend on the operands and the parameters alone. -/
theorem codecCommandsArePure : Obligations.CodecCommandsArePure := by
  intro i s s' hi params
  by_cases hc : InvalidCause i s
  · have hc' := (invalidCause_codec_congr s s' hi).mp hc
    exact ⟨_, exec_codec_of_invalid hi hc, exec_codec_of_invalid hi hc'⟩
  · have hc' := mt (invalidCause_codec_congr s s' hi).mpr hc
    refine ⟨_, exec_codec_of_valid hi hc, ?_⟩
    rw [completeResponse_codec_congr hi params]
    exact exec_codec_of_valid hi hc'

end Sys2Proof.Machine
end

section
/-! The ideal chip image under a trace (R26, R29, R36): the frame of one transaction and of many, what a
failed write leaves, and that the image says nothing false of a chip that obeys the transactions. -/

namespace Sys2Proof.Machine

/-! ### One transaction: its frame, and its failure -/

section Apply
variable {m : Memory} {x : Transaction} {n : Nat}

/-- A transaction stays within the register space (R28, R30). -/
def Request.inSpace : Request → Prop
  | .probe => True
  | .readByte _ => True
  | .writeByte _ _ => True
  | .writeBurst r bytes => r.toNat + bytes.length ≤ 256

/-- The highest parameter block, at 58, ends at register 65 (R30). -/
theorem burst_end_le {r : Request} (h : r.allowed) {base : Reg} {bytes : List Byte}
    (hr : r = .writeBurst base bytes) : base.toNat + bytes.length ≤ 66 := by
  subst hr
  obtain ⟨length, listed⟩ := h
  simp only [List.mem_cons, List.not_mem_nil, or_false] at listed
  omega

theorem Request.allowed.inSpace {r : Request} (h : r.allowed) : r.inSpace := by
  cases r with
  | writeBurst r bytes => exact (burst_end_le h rfl).trans (by decide)
  | _ => trivial

theorem Request.mem_targets_writeBurst {r : Reg} {bytes : List Byte} :
    n ∈ (Request.writeBurst r bytes).targets ↔ ∃ k, k < bytes.length ∧ n = r.toNat + k := by
  simp [Request.targets, eq_comm]

theorem Request.not_mem_targets_writeBurst {r : Reg} {bytes : List Byte} :
    n ∉ (Request.writeBurst r bytes).targets ↔ n < r.toNat ∨ r.toNat + bytes.length ≤ n := by
  rw [Request.mem_targets_writeBurst]
  constructor
  · intro h
    by_contra inside
    exact h ⟨n - r.toNat, by omega, by omega⟩
  · rintro h ⟨k, hk, rfl⟩
    omega

/-- A transaction changes no register but its targets. -/
theorem Memory.read_apply_of_not_mem_targets (inSpace : x.request.inSpace) (h : n ∉ x.request.targets) :
    (m.apply x).read n = m.read n := by
  obtain ⟨r, y⟩ := x
  cases r with
  | probe | readByte => rfl
  | writeByte r v =>
    have other : n ≠ r.toNat := fun e => h (List.mem_singleton.mpr e)
    cases y with
    | err => exact Memory.read_forget_of_ne m other
    | ok | byte => exact Memory.read_write_of_ne m v other
  | writeBurst r bytes =>
    have outside := Request.not_mem_targets_writeBurst.mp h
    have fits : r.toNat + bytes.length ≤ 256 := inSpace
    cases y with
    | err => simpa [Memory.apply, fits] using Memory.read_forgetMany_of_outside m outside
    | ok | byte => simpa [Memory.apply, fits] using Memory.read_writeMany_of_outside m outside

/-- Of the targets of a failed transaction nothing is known (R36). -/
theorem Memory.read_apply_of_err (hm : m.wf) (failed : x.reply = .err) (h : n ∈ x.request.targets) :
    (m.apply x).read n = none := by
  obtain ⟨r, y⟩ := x
  obtain rfl : y = .err := failed
  cases r with
  | probe | readByte => exact absurd h List.not_mem_nil
  | writeByte r v =>
    obtain rfl : n = r.toNat := List.mem_singleton.mp h
    exact Memory.read_forget_self hm _
  | writeBurst r bytes =>
    obtain ⟨k, hk, rfl⟩ := Request.mem_targets_writeBurst.mp h
    by_cases fits : r.toNat + bytes.length ≤ 256
    · simpa [Memory.apply, fits] using Memory.read_forgetMany_of_inside hm r.toNat hk
    · simp [Memory.apply, fits]

/-- A register that a transaction does not target keeps its byte on the chip. -/
theorem chipStep_of_not_mem_targets {c c' : Nat → Byte} (hstep : chipStep c c' x)
    (h : n ∉ x.request.targets) : c' n = c n := by
  obtain ⟨r, y⟩ := x
  cases r with
  | probe | readByte => exact congrFun hstep n
  | writeByte r v => exact hstep.1 n fun e => h (List.mem_singleton.mpr e)
  | writeBurst r bytes => exact hstep.1 n (Request.not_mem_targets_writeBurst.mp h)

/-- What the image knows of a target after a successful write is what the chip then holds. -/
theorem chipStep_of_mem_targets {c c' : Nat → Byte} {v : Byte} (hstep : chipStep c c' x)
    (ok : x.reply ≠ .err) (inSpace : x.request.inSpace) (h : n ∈ x.request.targets)
    (known : (m.apply x).read n = some v) : c' n = v := by
  obtain ⟨r, y⟩ := x
  cases r with
  | probe | readByte => exact absurd h List.not_mem_nil
  | writeByte r w =>
    obtain rfl : n = r.toNat := List.mem_singleton.mp h
    have written : (m.apply ⟨.writeByte r w, y⟩).read r.toNat = some w := by
      cases y with
      | err => exact absurd rfl ok
      | ok | byte => exact Memory.read_write_self m _ w
    exact (hstep.2 ok).trans (Option.some.inj (written.symm.trans known))
  | writeBurst r bytes =>
    obtain ⟨k, hk, rfl⟩ := Request.mem_targets_writeBurst.mp h
    have fits : r.toNat + bytes.length ≤ 256 := inSpace
    have written : (m.apply ⟨.writeBurst r bytes, y⟩).read (r.toNat + k) = some bytes[k] := by
      cases y with
      | err => exact absurd rfl ok
      | ok | byte => simpa [Memory.apply, fits] using Memory.read_writeMany_of_inside m r.toNat hk
    exact (hstep.2 ok k hk).trans (Option.some.inj (written.symm.trans known))

/-- One transaction keeps the image true of the chip. -/
theorem Memory.trueOf_apply {c c' : Nat → Byte} (hm : m.wf) (sound : m.trueOf c)
    (inSpace : x.request.inSpace) (hstep : chipStep c c' x) : (m.apply x).trueOf c' := by
  intro n v known
  by_cases h : n ∈ x.request.targets
  · by_cases failed : x.reply = .err
    · rw [Memory.read_apply_of_err hm failed h] at known
      exact absurd known nofun
    · exact chipStep_of_mem_targets hstep failed inSpace h known
  · rw [Memory.read_apply_of_not_mem_targets inSpace h] at known
    exact (chipStep_of_not_mem_targets hstep h).trans (sound n v known)

end Apply

/-! ### A trace -/

theorem Memory.read_replay_of_not_mem_targets {m : Memory} {xs : List Transaction} {n : Nat}
    (h : ∀ x ∈ xs, x.request.inSpace ∧ n ∉ x.request.targets) : (m.replay xs).read n = m.read n := by
  induction xs generalizing m with
  | nil => rfl
  | cons x xs ih =>
    obtain ⟨inSpace, other⟩ := h x List.mem_cons_self
    rw [Memory.replay_cons, ih fun y hy => h y (List.mem_cons_of_mem _ hy),
      Memory.read_apply_of_not_mem_targets inSpace other]

theorem Memory.trueOf_replay {m : Memory} {xs : List Transaction} {c c' : Nat → Byte} (hm : m.wf)
    (sound : m.trueOf c) (inSpace : ∀ x ∈ xs, x.request.inSpace) (hsteps : chipSteps c c' xs) :
    (m.replay xs).trueOf c' := by
  induction xs generalizing m c with
  | nil =>
    obtain rfl : c' = c := hsteps
    exact sound
  | cons x xs ih =>
    obtain ⟨mid, hstep, rest⟩ := hsteps
    exact ih (Memory.wf_apply hm x) (Memory.trueOf_apply hm sound (inSpace x List.mem_cons_self) hstep)
      (fun y hy => inSpace y (List.mem_cons_of_mem _ hy)) rest

/-! ### The transactions of a command (R25 to R36) -/

section Exec
variable {i : Instr} {s t : State}

theorem exec_chip (h : exec i s = .next t) : t.chip = s.chip.replay (newTrace s t) := by
  obtain ⟨_, _, _, rfl, -⟩ := exec_next_inversion h
  rw [newTrace_ends, State.ends_chip]

theorem exec_transaction_listed (h : exec i s = .next t) {x : Transaction} (hx : x ∈ newTrace s t) :
    x.request.allowed ∧ (∀ n ∈ x.request.targets, n ∈ i.mayWrite) ∧
      (∀ n, x.request = .readByte n → n.toNat ∈ i.mayRead) ∧ (x.request = .probe → i.isInit = true) := by
  obtain ⟨reqs, _, _, rfl, -, listed⟩ := exec_next_inversion h
  rw [newTrace_ends] at hx
  obtain ⟨j, hj, rfl⟩ := State.mem_answered hx
  exact listed _ (List.getElem_mem hj)

theorem exec_transaction_inSpace (h : exec i s = .next t) {x : Transaction} (hx : x ∈ newTrace s t) :
    x.request.inSpace := (exec_transaction_listed h hx).1.inSpace

/-- A command leaves every register but its own as it was. -/
theorem exec_read_of_not_mem_mayWrite (h : exec i s = .next t) {n : Nat} (hn : n ∉ i.mayWrite) :
    t.chip.read n = s.chip.read n := by
  rw [exec_chip h]
  refine Memory.read_replay_of_not_mem_targets fun x hx => ?_
  obtain ⟨-, writes, -⟩ := exec_transaction_listed h hx
  exact ⟨exec_transaction_inSpace h hx, fun target => hn (writes n target)⟩

end Exec

/-- Settles O59: `Memory.trueOf_replay` over the command's transactions, all of them in the register
space. -/
theorem chipImageIsTrue : Obligations.ChipImageIsTrue := by
  intro i s t c c' hm sound h hsteps
  rw [exec_chip h]
  exact Memory.trueOf_replay hm sound (fun x hx => exec_transaction_inSpace h hx) hsteps

/-- Settles O43: the image is the replay of the transactions before the last, and then the last, whose
targets are unknown by `Memory.read_apply_of_err`. -/
theorem failedTransactionLeavesTargetsUnknown : Obligations.FailedTransactionLeavesTargetsUnknown := by
  intro i s t x hm h hlast failed
  obtain ⟨before, split⟩ := List.getLast?_eq_some_iff.mp hlast
  have chip : t.chip = ((s.chip.replay before).apply x) := by
    rw [exec_chip h, split, Memory.replay_append]
    rfl
  rw [chip, split, List.dropLast_concat]
  refine ⟨fun n hn => ?_, fun n hn => ?_⟩
  · exact Memory.read_apply_of_err (Memory.wf_replay hm before) failed hn
  · exact Memory.read_apply_of_not_mem_targets
      (exec_transaction_inSpace h (List.mem_of_getLast? hlast)) hn

/-- Settles O47: the requests of a command are listed by `exec_inversion`, and `burst_end_le` bounds its
bursts. -/
theorem onlyListedRegistersAccessed : Obligations.OnlyListedRegistersAccessed := by
  intro i s t h x hx
  obtain ⟨allowed, writes, reads, probes⟩ := exec_transaction_listed h hx
  exact ⟨allowed, writes, reads, probes, fun _ _ => burst_end_le allowed⟩

/-- Settles O48: no transaction of the command targets the register. -/
theorem otherRegistersUnchanged : Obligations.OtherRegistersUnchanged :=
  fun _ _ _ h _ => exec_read_of_not_mem_mayWrite h

end Sys2Proof.Machine
end

section
/-! What every step keeps (R14, R18, R23, R26 to R35): an invariant that no command breaks is kept by `step`
and by a list of commands; who writes each element of `st`. -/

namespace Sys2Proof.Machine

/-! ### One step, and a list of commands -/

/-- Everything a step that answers a next state can do: wait, or run the delivered command. -/
theorem step_next_cases {s t : State} (h : step s = .next t) :
    (s.commands = [] ∧ t = s) ∨
    ∃ w rest i, s.commands = w :: rest ∧ decode w = .ok i ∧ exec i { s with commands := rest } = .next t := by
  cases hs : s.commands with
  | nil =>
    rw [step_of_no_command hs] at h
    exact .inl ⟨rfl, (Host.Outcome.next.inj h).symm⟩
  | cons w rest =>
    cases hd : decode w with
    | error e =>
      rw [step_of_decode_error hs hd] at h
      exact absurd h nofun
    | ok i =>
      rw [step_of_decode_ok hs hd] at h
      exact .inr ⟨w, rest, i, rfl, hd, h⟩

/-- A property that does not look at the waiting commands and that no command breaks is kept by `step`. -/
theorem step_keeps {P : State → Prop} {s t : State}
    (queue : ∀ rest, P s → P { s with commands := rest })
    (command : ∀ i s t, P s → exec i s = .next t → P t) (hs : P s) (h : step s = .next t) : P t := by
  rcases step_next_cases h with ⟨-, rfl⟩ | ⟨w, rest, i, -, -, hexec⟩
  · exact hs
  · exact command i _ _ (queue rest hs) hexec

theorem execAll_cons {i : Instr} {is : List Instr} {s t : State} (h : exec i s = .next t) :
    execAll (i :: is) s = execAll is t := by
  rw [execAll, h]

/-- A property that none of the listed commands breaks is kept by executing them in order. -/
theorem execAll_keeps {P : State → Prop} {is : List Instr} {s t : State}
    (command : ∀ i ∈ is, ∀ s t, P s → exec i s = .next t → P t) (hs : P s)
    (h : execAll is s = .next t) : P t := by
  induction is generalizing s with
  | nil =>
    obtain rfl := Host.Outcome.next.inj h
    exact hs
  | cons i is ih =>
    obtain ⟨_, _, _, hexec, -⟩ := exec_inversion i s
    rw [execAll_cons hexec] at h
    exact ih (fun j hj => command j (List.mem_cons_of_mem _ hj))
      (command i List.mem_cons_self _ _ hs hexec) h

/-- Settles O9: the step is `exec` of the decoded word by `step_next_cases`, and `exec_frame` and
`exec_responds` say what that adds. -/
theorem stepGivesOneResponse : Obligations.StepGivesOneResponse := by
  intro s t w rest hs h
  rcases step_next_cases h with ⟨none, -⟩ | ⟨w', rest', i, hs', -, hexec⟩
  · exact absurd (none.symm.trans hs) nofun
  · obtain ⟨rfl, rfl⟩ := List.cons.inj (hs'.symm.trans hs)
    obtain ⟨trace, params, commands⟩ := exec_frame hexec
    obtain ⟨r, responses⟩ := exec_responds hexec
    exact ⟨commands, ⟨r, responses⟩, ⟨_, trace⟩, params⟩

/-! ### The image and the trace -/

/-- Settles O56: every transaction keeps the canonical form, by `Memory.wf_replay`. -/
theorem stepKeepsChipCanonical : Obligations.StepKeepsChipCanonical := by
  intro s t hs h
  refine step_keeps (P := fun s => s.chip.wf) (fun _ => id) (fun i s t hs h => ?_) hs h
  rw [exec_chip h]
  exact Memory.wf_replay hs _

/-- Settles O57: the image and the trace both grow by the command's transactions. -/
theorem stepKeepsChipFollowsTrace : Obligations.StepKeepsChipFollowsTrace := by
  intro s t hs h
  refine step_keeps (P := chipFollowsTrace) (fun _ => id) (fun i s t hs h => ?_) hs h
  obtain ⟨trace, -⟩ := exec_frame h
  rw [chipFollowsTrace, trace, Memory.replay_append, ← hs, exec_chip h]

/-- Settles O58: the transactions a command adds are listed by `exec_inversion`. -/
theorem stepKeepsTraceAllowed : Obligations.StepKeepsTraceAllowed := by
  intro s t hs h
  refine step_keeps (P := traceAllowed) (fun _ => id) (fun i s t hs h x hx => ?_) hs h
  obtain ⟨trace, -⟩ := exec_frame h
  rw [trace, List.mem_append] at hx
  exact hx.elim (hs x) fun new => (exec_transaction_listed h new).1

/-! ### Who writes each element of `st` (R14 to R19) -/

section Writers
variable {i : Instr} {s t : State} {d : Device}

theorem DeviceAfterOk.lifetime_kept (h : DeviceAfterOk i s d) (notInit : i.isInit = false) :
    d.initialised = s.st.initialised ∧ d.xtalHz = s.st.xtalHz := by
  cases i with
  | init => exact absurd notInit nofun
  | setupRdiv =>
    obtain ⟨c, -, rfl⟩ := h
    exact ⟨rfl, rfl⟩
  | _ =>
    obtain rfl := h
    exact ⟨rfl, rfl⟩

/-- Of the commands but INIT, only a SETUP_RDIV of the channel touches its exponent, which it sets to its
own. -/
theorem DeviceAfterOk.rdiv_kept_or_set (h : DeviceAfterOk i s d) (notInit : i.isInit = false)
    (c : Channel) : d.rdiv.get c = s.st.rdiv.get c ∨ i = .setupRdiv c.number (d.rdiv.get c) := by
  cases i with
  | init => exact absurd notInit nofun
  | setupRdiv ch e =>
    obtain ⟨c', rfl, rfl⟩ := h
    by_cases same : c = c'
    · subst same
      exact .inr (by simp)
    · exact .inl (by simp [same])
  | _ =>
    obtain rfl := h
    exact .inl rfl

theorem exec_st_eq_of_error (h : exec i s = .next t) (notInit : i.isInit = false)
    (herr : t.lastStatus ≠ some .ok) : t.st = s.st := by
  simpa [notInit] using exec_st_of_error h herr

theorem exec_lifetime_kept (h : exec i s = .next t) (notInit : i.isInit = false) :
    t.st.initialised = s.st.initialised ∧ t.st.xtalHz = s.st.xtalHz := by
  by_cases hok : t.lastStatus = some .ok
  · exact (exec_st_of_ok h hok).lifetime_kept notInit
  · rw [exec_st_eq_of_error h notInit hok]
    exact ⟨rfl, rfl⟩

theorem exec_record_changed {p : PllId} (h : exec i s = .next t) (notInit : i.isInit = false)
    (changed : t.st.pllCfg.get p ≠ s.st.pllCfg.get p ∨ t.st.pllHz.get p ≠ s.st.pllHz.get p) :
    i.configures = some p ∧ t.lastStatus = some .ok ∧ t.st.pllCfg.get p = true := by
  obtain ⟨-, -, recorded⟩ := recordedFrequencyIsExact
  exact recorded i p s t h notInit changed

theorem exec_rdiv_changed {c : Channel} (h : exec i s = .next t) (notInit : i.isInit = false)
    (changed : t.st.rdiv.get c ≠ s.st.rdiv.get c) :
    t.lastStatus = some .ok ∧ i = .setupRdiv c.number (t.st.rdiv.get c) := by
  have hok : t.lastStatus = some .ok := by
    by_contra herr
    exact changed (by rw [exec_st_eq_of_error h notInit herr])
  exact ⟨hok, ((exec_st_of_ok h hok).rdiv_kept_or_set notInit c).resolve_left changed⟩

end Writers

/-- Settles O45: each element by the lemma that says which command can change it. -/
theorem writersOfDeviceState : Obligations.WritersOfDeviceState := by
  intro i s t h notInit
  obtain ⟨initialised, xtalHz⟩ := exec_lifetime_kept h notInit
  refine ⟨initialised, xtalHz, fun p configured => ?_, fun p changed => ?_,
    fun c => exec_rdiv_changed h notInit⟩
  · by_contra cleared
    obtain ⟨-, -, set⟩ := exec_record_changed (p := p) h notInit
      (.inl fun same => cleared (same ▸ configured))
    exact cleared set
  · obtain ⟨configures, hok, -⟩ := exec_record_changed h notInit changed
    exact ⟨configures, hok⟩

/-! ### A consistent `st` (R18, R23) -/

theorem deviceConsistent_powerOn : deviceConsistent Device.powerOn := by
  refine ⟨fun _ => rfl, fun p _ => ?_, fun p => ?_⟩ <;> cases p
  · rfl
  · rfl
  · exact Nat.zero_le _
  · exact Nat.zero_le _

theorem deviceConsistent_init (xtal : BitVec 32) :
    deviceConsistent ⟨true, xtal, ⟨false, false⟩, ⟨0, 0⟩, ⟨0, 0, 0⟩⟩ := by
  refine ⟨nofun, fun p _ => ?_, fun p => ?_⟩ <;> cases p
  · rfl
  · rfl
  · exact Nat.zero_le _
  · exact Nat.zero_le _

/-- In the operand ranges of SETUP_PLL the divider is at most 90 + 0xFFFFF (R18). -/
theorem pllHzOf_le {a b c : Operand} (h : PllInRange a b c) (xtal : Nat) :
    pllHzOf xtal a.toNat b.toNat c.toNat ≤ xtal * (90 + 0xFFFFF) := by
  obtain ⟨-, ha, hb, hc, -⟩ := h
  have hac : a.toNat * c.toNat ≤ 90 * c.toNat := Nat.mul_le_mul_right _ ha
  have hbc : b.toNat ≤ 0xFFFFF * c.toNat := hb.trans (Nat.le_mul_of_pos_right _ hc)
  refine Nat.div_le_of_le_mul ?_
  calc xtal * (a.toNat * c.toNat + b.toNat)
      ≤ xtal * (90 * c.toNat + 0xFFFFF * c.toNat) := Nat.mul_le_mul_left _ (Nat.add_le_add hac hbc)
    _ = c.toNat * (xtal * (90 + 0xFFFFF)) := by ring

theorem deviceConsistent_recordPll {p : PllId} {a b c : Operand} {s : State}
    (hs : deviceConsistent s.st) (initialised : s.st.initialised = true) (inRange : PllInRange a b c) :
    deviceConsistent (recordPll p a.toNat b.toNat c.toNat s).st := by
  obtain ⟨-, unconfigured, bounded⟩ := hs
  refine ⟨fun off => absurd off (Bool.not_eq_false _ ▸ initialised), fun q => ?_, fun q => ?_⟩
  · by_cases hq : q = p
    · simp [hq]
    · simpa [hq] using unconfigured q
  · by_cases hq : q = p
    · subst hq
      rw [recordPll_pllHz, recordPll_xtalHz, PerPll.get_set_self, BitVec.toNat_ofNat]
      exact (Nat.mod_le ..).trans (pllHzOf_le inRange s.st.xtalHz.toNat)
    · simpa [hq] using bounded q

theorem deviceConsistent_recordRDivider {c : Channel} {e : RdivExp} {s : State}
    (hs : deviceConsistent s.st) (initialised : s.st.initialised = true) :
    deviceConsistent (recordRDivider c e s).st :=
  ⟨fun off => absurd off (Bool.not_eq_false _ ▸ initialised), hs.2⟩

/-- What a command with status OK leaves is consistent: the gate and the operand ranges were passed. -/
theorem deviceConsistent_after_ok {i : Instr} {s : State} {d : Device} (hs : deviceConsistent s.st)
    (gate : GateOpen i s) (valid : ¬ InvalidCause i s) (device : DeviceAfterOk i s d) :
    deviceConsistent d := by
  cases i with
  | init f load =>
    obtain rfl := device
    exact deviceConsistent_init f
  | setupPll p a b c =>
    obtain rfl := device
    exact deviceConsistent_recordPll hs (gate rfl rfl) (not_not.mp valid)
  | setupPllInt p a =>
    obtain rfl := device
    exact deviceConsistent_recordPll (b := 0) (c := 1) hs (gate rfl rfl)
      ((pllInRange_int a).mpr (not_not.mp valid))
  | setupRdiv ch e =>
    obtain ⟨c, -, rfl⟩ := device
    exact deviceConsistent_recordRDivider hs (gate rfl rfl)
  | _ =>
    obtain rfl := device
    exact hs

/-- Settles O55: `st` after an error is that of power-on or that before, after status OK it is consistent by
`deviceConsistent_after_ok`. -/
theorem stepKeepsDeviceConsistent : Obligations.StepKeepsDeviceConsistent := by
  intro s t hs h
  refine step_keeps (P := fun s => deviceConsistent s.st) (fun _ => id) (fun i s t hs h => ?_) hs h
  by_cases hok : t.lastStatus = some .ok
  · exact deviceConsistent_after_ok hs (exec_gate_of_ok h hok) (not_invalid_of_requests h (.inl hok))
      (exec_st_of_ok h hok)
  · rw [exec_st_of_error h hok]
    split
    · exact deviceConsistent_powerOn
    · exact hs

/-- Settles O54: at power-on `st` is `Device.powerOn`, the image and the trace are empty, and `RDIV_SHIFT` has
its default. -/
theorem resetMeetsInvariants : Obligations.ResetMeetsInvariants :=
  ⟨deviceConsistent_powerOn, ⟨List.Pairwise.nil, nofun⟩, rfl, nofun, by decide⟩

end Sys2Proof.Machine
end

section
/-! What a command reads (R26, R39, R77, R78, R88): `st`, the parameters and the transport's answers alone,
and before INIT the transport is not reached. -/

namespace Sys2Proof.Machine

/-! ### The end of a command is a function of what it reads -/

section Reads
variable {i : Instr} {s s' : State} {d d' : Device}

theorem DeviceAfterOk.congr (device : s.st = s'.st) (h : DeviceAfterOk i s d) : DeviceAfterOk i s' d := by
  cases i with
  | init => exact h
  | _ =>
    simp only [DeviceAfterOk, recordPll, recordRDivider, device] at h ⊢
    exact h

theorem DeviceAfterOk.unique (h : DeviceAfterOk i s d) (h' : DeviceAfterOk i s d') : d = d' := by
  cases i with
  | setupRdiv ch e =>
    obtain ⟨c, hc, rfl⟩ := h
    obtain ⟨c', hc', rfl⟩ := h'
    obtain rfl : c = c' := by simpa using congrArg channelOf (hc.symm.trans hc')
    rfl
  | _ => exact Eq.trans h (Eq.symm h')

theorem gateOpen_congr (device : s.st = s'.st) : GateOpen i s ↔ GateOpen i s' := by
  rw [GateOpen, device, GateOpen]

theorem invalidCause_congr (device : s.st = s'.st) (params : s.params = s'.params) :
    InvalidCause i s ↔ InvalidCause i s' := by
  cases i with
  | setupMs | setupMsInt => simp only [InvalidCause, FoutRejected, device, params]
  | _ => exact Iff.rfl

theorem plannedRequests_congr (device : s.st = s'.st) (params : s.params = s'.params)
    (answers : ∀ k, s.upcoming k = s'.upcoming k) : plannedRequests i s = plannedRequests i s' := by
  cases i with
  | init | setupRdiv => simp only [plannedRequests, setupRdivRequests, params, answers]
  | setupMs | setupMsInt =>
    simp only [plannedRequests, setupMsRequests, setupMsResponse, lastRDivider, msOutputHz, device, params]
  | _ => rfl

/-- Among answers that are not all `ok` there is a first that is `err`. -/
theorem exists_first_failure {n : Nat} (h : ¬ ∀ j, j < n → (s.upcoming j).ok = true) :
    ∃ k, k < n ∧ (∀ j, j < k → (s.upcoming j).ok = true) ∧ (s.upcoming k).ok = false := by
  induction n with
  | zero => exact absurd (fun j hj => absurd hj (Nat.not_lt_zero j)) h
  | succ n ih =>
    by_cases before : ∀ j, j < n → (s.upcoming j).ok = true
    · refine ⟨n, Nat.lt_succ_self n, before, ?_⟩
      by_contra hn
      refine h fun j hj => ?_
      rcases Nat.lt_succ_iff_lt_or_eq.mp hj with hlt | rfl
      · exact before j hlt
      · simpa using hn
    · obtain ⟨k, hk, first⟩ := ih before
      exact ⟨k, hk.trans (Nat.lt_succ_self n), first⟩

/-- Two states that agree on what a command reads execute it to the same requests, the same response and
the same `st`. -/
theorem exec_congr (device : s.st = s'.st) (params : s.params = s'.params)
    (answers : ∀ k, s.upcoming k = s'.upcoming k) : ∃ reqs resp d,
      exec i s = .next (s.ends reqs resp d) ∧ exec i s' = .next (s'.ends reqs resp d) := by
  by_cases gate : GateOpen i s
  · have gate' := (gateOpen_congr device).mp gate
    by_cases valid : InvalidCause i s
    · have cause' := (invalidCause_congr device params).mp valid
      have ends' := exec_of_invalid gate' cause'
      rw [← device] at ends'
      exact ⟨_, _, _, exec_of_invalid gate valid, ends'⟩
    · have valid' := mt (invalidCause_congr device params).mpr valid
      have plan := plannedRequests_congr (i := i) device params answers
      by_cases all : ∀ j, j < (plannedRequests i s).length → (s.upcoming j).ok = true
      · obtain ⟨d, hd, h⟩ := exec_of_all_ok gate valid all
        obtain ⟨d', hd', h'⟩ := exec_of_all_ok gate' valid' (by simpa only [← plan, ← answers] using all)
        obtain rfl := (hd.congr device).unique hd'
        rw [← plan, ← completeResponse_congr device params] at h'
        exact ⟨_, _, _, h, h'⟩
      · obtain ⟨k, planned, before, failed⟩ := exists_first_failure all
        have h' := exec_of_first_failure (k := k) gate' valid' (plan ▸ planned)
          (by simpa only [← answers] using before) (answers k ▸ failed)
        rw [← plan, ← responseWith_congr device params, ← device] at h'
        exact ⟨_, _, _, exec_of_first_failure gate valid planned before failed, h'⟩
  · obtain ⟨isDevice, notInit, closed⟩ :
        i.isDevice = true ∧ i.isInit = false ∧ s.st.initialised = false := by
      simpa [GateOpen] using gate
    have ends' := exec_of_not_initialised isDevice notInit (s := s') (device ▸ closed)
    rw [← device] at ends'
    exact ⟨_, _, _, exec_of_not_initialised isDevice notInit closed, ends'⟩

end Reads

/-- Settles O50: by `exec_congr` both commands make the same requests, and the same answers meet them. -/
theorem outputsAreNeverReadBack : Obligations.OutputsAreNeverReadBack := by
  intro i s s' t device params answers draws h
  obtain ⟨reqs, resp, d, hs, hs'⟩ := exec_congr (i := i) device params (State.upcoming_congr answers draws)
  obtain rfl := Host.Outcome.next.inj (h.symm.trans hs)
  refine ⟨_, resp, hs', rfl, ?_, rfl, rfl, ?_, ?_⟩
  · rw [newTrace_ends, newTrace_ends, State.answered_congr answers draws]
  · exact (State.dropAnswers_answers_congr answers reqs.length).symm
  · exact (State.dropAnswers_draws_congr answers draws reqs.length).symm

/-! ### Before INIT (R77, R78, R88) -/

/-- On an uninitialised device a command other than INIT only answers. -/
theorem exec_before_init {i : Instr} {s : State} (closed : s.st.initialised = false)
    (notInit : i.isInit = false) : ∃ r, exec i s = .next (s.ends [] r s.st) := by
  cases isDevice : i.isDevice with
  | true => exact ⟨_, exec_of_not_initialised isDevice notInit closed⟩
  | false => exact (exec_codec_cases s isDevice).elim (fun h => ⟨_, h.2⟩) fun h => ⟨_, h.2⟩

/-- Settles O51: by induction on the commands, each of which only answers by `exec_before_init`. -/
theorem nothingTouchesChipBeforeInit : Obligations.NothingTouchesChipBeforeInit := by
  intro is
  induction is with
  | nil => exact fun s _ _ => ⟨s, rfl, rfl, rfl, rfl, rfl, rfl, rfl⟩
  | cons i is ih =>
    intro s closed notInit
    obtain ⟨r, h⟩ := exec_before_init closed (notInit i List.mem_cons_self)
    obtain ⟨t, run, device, trace, chip, answers, draws, responses⟩ :=
      ih (s.ends [] r s.st) closed fun j hj => notInit j (List.mem_cons_of_mem _ hj)
    refine ⟨t, (execAll_cons h).trans run, device, ?_, chip, answers, draws, ?_⟩
    · simpa [State.answered] using trace
    · rw [responses, State.ends_responses, List.length_append, List.length_cons, List.length_cons,
        List.length_nil]
      omega

/-- Settles O11: the gated commands by `exec_of_not_initialised`, INIT by its thirteen answers, and the codec
commands by `exec_codec_cases`. -/
theorem powerOnState : Obligations.PowerOnState := by
  refine ⟨rfl, fun _ => rfl, rfl, fun i s device isDevice notInit => ?_, fun f load s _ answers => ?_,
    fun i s codec => ?_⟩
  · exact exec_of_not_initialised isDevice notInit (by rw [device]; rfl)
  · obtain ⟨-, outcomes⟩ := initOutcomes
    exact ⟨_, (outcomes f load s).1 answers, State.ends_lastStatus .., rfl⟩
  · rcases exec_codec_cases s codec with ⟨-, h⟩ | ⟨-, h⟩
    · exact ⟨_, h, nofun⟩
    · exact ⟨_, h, by simp⟩

end Sys2Proof.Machine
end

section
/-! What a successful command leaves in the registers it writes (R26, R29, R49, R69 to R74), and what later
commands leave of it (R65, R90). -/

namespace Sys2Proof.Machine

/-! ### The last successful write of a register -/

section LastWrite
variable {m : Memory} {s : State} {reqs : List Request} {n k : Nat} {v : Byte}

theorem State.request_mem_of_mem_answered {x : Transaction} (h : x ∈ s.answered reqs) : x.request ∈ reqs := by
  rw [← s.map_request_answered reqs]
  exact List.mem_map_of_mem h

/-- A register holds what the k-th transaction puts there if no later one targets it. -/
theorem Memory.read_of_last_request {q : Request} (planned : reqs[k]? = some q)
    (sets : ∀ m : Memory, (m.apply ⟨q, q.reply (s.upcoming k)⟩).read n = some v)
    (later : ∀ r ∈ reqs.drop (k + 1), r.inSpace ∧ n ∉ r.targets) :
    (m.replay (s.answered reqs)).read n = some v := by
  induction reqs generalizing m s k with
  | nil => exact absurd planned nofun
  | cons r reqs ih =>
    rw [State.answered, Memory.replay_cons]
    cases k with
    | zero =>
      obtain rfl : r = q := Option.some.inj planned
      have untouched : ∀ x ∈ s.dropAnswer.answered reqs, x.request.inSpace ∧ n ∉ x.request.targets :=
        fun x hx => later _ (State.request_mem_of_mem_answered hx)
      exact (Memory.read_replay_of_not_mem_targets untouched).trans (sets m)
    | succ k => exact ih (s := s.dropAnswer) planned sets later

theorem Memory.read_apply_writeByte_of_ok {r : Reg} {x : Answer} (ok : x.ok = true) (m : Memory) (v : Byte) :
    (m.apply ⟨.writeByte r v, (Request.writeByte r v).reply x⟩).read r.toNat = some v := by
  have reply : (Request.writeByte r v).reply x = .ok := by simp [Request.reply, ok]
  rw [reply]
  exact Memory.read_write_self m _ v

theorem Memory.read_apply_writeBurst_of_ok {r : Reg} {bytes : List Byte} {x : Answer} {j : Nat}
    (ok : x.ok = true) (inSpace : (Request.writeBurst r bytes).inSpace) (h : j < bytes.length) (m : Memory) :
    (m.apply ⟨.writeBurst r bytes, (Request.writeBurst r bytes).reply x⟩).read (r.toNat + j) =
      some bytes[j] := by
  have fits : r.toNat + bytes.length ≤ 256 := inSpace
  simpa [Request.reply, ok, Memory.apply, fits] using Memory.read_writeMany_of_inside m r.toNat h

end LastWrite

/-! ### The registers of a successful command -/

section Written
variable {i : Instr} {s t : State} {k : Nat}

theorem exec_planned_inSpace (h : exec i s = .next t) (hok : t.lastStatus = some .ok) {q : Request}
    (hq : q ∈ plannedRequests i s) : q.inSpace := by
  obtain ⟨⟨d, rfl⟩, -⟩ := exec_plan_of_ok h hok
  rw [← s.map_request_answered (plannedRequests i s)] at hq
  obtain ⟨x, hx, rfl⟩ := List.mem_map.mp hq
  exact exec_transaction_inSpace h (by rwa [newTrace_ends])

theorem exec_read_of_planned {q : Request} {n : Nat} {v : Byte} (h : exec i s = .next t)
    (hok : t.lastStatus = some .ok) (planned : (plannedRequests i s)[k]? = some q)
    (sets : (s.upcoming k).ok = true →
      ∀ m : Memory, (m.apply ⟨q, q.reply (s.upcoming k)⟩).read n = some v)
    (later : ∀ r ∈ (plannedRequests i s).drop (k + 1), n ∉ r.targets) : t.chip.read n = some v := by
  have inSpace := fun r (hr : r ∈ plannedRequests i s) => exec_planned_inSpace h hok hr
  obtain ⟨⟨d, rfl⟩, answers⟩ := exec_plan_of_ok h hok
  have within : k < (plannedRequests i s).length := (List.getElem?_eq_some_iff.mp planned).1
  exact Memory.read_of_last_request planned (sets (answers k within)) fun r hr =>
    ⟨inSpace r (List.mem_of_mem_drop hr), later r hr⟩

theorem exec_read_of_planned_write {r : Reg} {v : Byte} (h : exec i s = .next t)
    (hok : t.lastStatus = some .ok) (planned : (plannedRequests i s)[k]? = some (.writeByte r v))
    (later : ∀ q ∈ (plannedRequests i s).drop (k + 1), r.toNat ∉ q.targets) :
    t.chip.read r.toNat = some v :=
  exec_read_of_planned h hok planned (fun ok m => Memory.read_apply_writeByte_of_ok ok m v) later

theorem exec_read_of_planned_burst {r : Reg} {bytes : List Byte} {j : Nat} (h : exec i s = .next t)
    (hok : t.lastStatus = some .ok) (planned : (plannedRequests i s)[k]? = some (.writeBurst r bytes))
    (hj : j < bytes.length)
    (later : ∀ q ∈ (plannedRequests i s).drop (k + 1), r.toNat + j ∉ q.targets) :
    t.chip.read (r.toNat + j) = some bytes[j] :=
  exec_read_of_planned h hok planned (fun ok m => Memory.read_apply_writeBurst_of_ok ok
    (exec_planned_inSpace h hok (List.mem_of_getElem? planned)) hj m) later

/-- A parameter block written in one burst and a byte written after it, outside the block. -/
theorem exec_read_of_burst_write {base reg : Reg} {d : Block} {v : Byte} (h : exec i s = .next t)
    (hok : t.lastStatus = some .ok)
    (plan : plannedRequests i s = [.writeBurst base d.toList, .writeByte reg v])
    (outside : reg.toNat < base.toNat ∨ base.toNat + 8 ≤ reg.toNat) :
    t.chip.read reg.toNat = some v ∧
      ∀ k (hk : k < 8), t.chip.read (base.toNat + k) = some (d.toList[k]'hk) := by
  refine ⟨exec_read_of_planned_write (k := 1) h hok (by rw [plan]; rfl) (by rw [plan]; nofun),
    fun k hk => exec_read_of_planned_burst (k := 0) h hok (by rw [plan]; rfl) hk fun q hq => ?_⟩
  rw [plan] at hq
  obtain rfl : q = .writeByte reg v := List.mem_singleton.mp hq
  rw [Request.targets, List.mem_singleton]
  omega

end Written

/-! ### Each device command (R69 to R74) -/

section Device
variable {i : Instr} {s t : State} {p : PllId} {c : Channel} {a b d : Operand}

/-- The registers that a successful INIT writes (R69). -/
theorem exec_init_reads {f : Operand} {load : Byte} (h : exec (.init f load) s = .next t)
    (hok : t.lastStatus = some .ok) : t.chip.read 3 = some 0xFF ∧
      (∀ n, n < 8 → t.chip.read (16 + n) = some s.params.initPdnByte) ∧
      t.chip.read 183 = some load ∧ t.chip.read 149 = some ((s.upcoming 11).byte &&& 0x7F) := by
  refine ⟨?_, fun n hn => ?_, ?_, ?_⟩
  · exact exec_read_of_planned_write (k := 1) (r := 3) h hok rfl
      (by simp [plannedRequests, initRequests, Request.targets])
  · have planned : (plannedRequests (.init f load) s)[n + 2]? =
        some (.writeByte (BitVec.ofNat 8 (16 + n)) s.params.initPdnByte) := by
      interval_cases n <;> rfl
    have number : (BitVec.ofNat 8 (16 + n)).toNat = 16 + n := by
      rw [BitVec.toNat_ofNat]
      omega
    rw [← number]
    refine exec_read_of_planned_write h hok planned ?_
    interval_cases n <;> simp [plannedRequests, initRequests, Request.targets]
  · exact exec_read_of_planned_write (k := 10) (r := 183) h hok rfl
      (by simp [plannedRequests, initRequests, Request.targets])
  · exact exec_read_of_planned_write (k := 12) (r := 149) h hok rfl nofun

/-- The requests and the response of a complete PLL setup go together (R70, R71). -/
theorem plan_of_configures (s : State) (hi : i.configures = some p) : ∃ a b c freq,
    plannedRequests i s = setupPllRequests p a b c ∧
      completeResponse i s = { setupPllResponse p a b c with freq := freq } := by
  cases i with
  | setupPll q a b c =>
    obtain rfl : q = p := Option.some.inj hi
    exact ⟨a, b, c, _, rfl, rfl⟩
  | setupPllInt q a =>
    obtain rfl : q = p := Option.some.inj hi
    exact ⟨a, 0, 1, _, rfl, rfl⟩
  | _ => exact absurd hi nofun

theorem exec_setupPll_reads (hi : i.configures = some p) (h : exec i s = .next t)
    (hok : t.lastStatus = some .ok) : ∃ r, t.responses = s.responses ++ [r] ∧
      r.base.toNat = (if p = .a then 26 else 34) ∧ t.chip.read 177 = some 0xA0 ∧
      ∀ k (h : k < 8), t.chip.read (r.base.toNat + k) = some (r.data.toList[k]'h) := by
  obtain ⟨a, b, c, freq, plan, complete⟩ := plan_of_configures s hi
  have responses := exec_responses_of_status h hok
  rw [responseWith, complete] at responses
  have outside : resetReg.toNat < (pllBase p).toNat ∨ (pllBase p).toNat + 8 ≤ resetReg.toNat := by
    cases p <;> decide
  obtain ⟨reset, block⟩ := exec_read_of_burst_write h hok plan outside
  exact ⟨_, responses, by cases p <;> rfl, reset, block⟩

/-- The requests and the response of a complete Multisynth setup go together (R72, R73). -/
theorem plan_of_setupMs (s : State)
    (hi : i = .setupMs c.number p a b d ∨ (i = .setupMsInt c.number p a ∧ b = 0)) : ∃ d',
    plannedRequests i s = setupMsRequests c p a b d' s ∧
      completeResponse i s = setupMsResponse c p a b d' s := by
  rcases hi with rfl | ⟨rfl, rfl⟩
  · exact ⟨d, by simp [plannedRequests], by simp [completeResponse]⟩
  · exact ⟨1, by simp [plannedRequests], by simp [completeResponse]⟩

theorem exec_setupMs_reads
    (hi : i = .setupMs c.number p a b d ∨ (i = .setupMsInt c.number p a ∧ b = 0))
    (h : exec i s = .next t) (hok : t.lastStatus = some .ok) : ∃ d',
      t.responses = s.responses ++ [setupMsResponse c p a b d' s] ∧
      t.chip.read (16 + c.number.toNat) = some (clkctlByte s.params.clkctlLow p b) ∧
      ∀ k (h : k < 8), t.chip.read ((msBase c).toNat + k) =
        some ((setupMsResponse c p a b d' s).data.toList[k]'h) := by
  obtain ⟨d', plan, complete⟩ := plan_of_setupMs s hi
  have responses := exec_responses_of_status h hok
  rw [responseWith, complete] at responses
  have outside : (clkctlReg c).toNat < (msBase c).toNat ∨ (msBase c).toNat + 8 ≤ (clkctlReg c).toNat := by
    cases c <;> decide
  obtain ⟨clkctl, block⟩ := exec_read_of_burst_write h hok plan outside
  have number : (clkctlReg c).toNat = 16 + c.number.toNat := by cases c <;> rfl
  exact ⟨d', responses, number ▸ clkctl, block⟩

theorem param3Reg_toNat (c : Channel) : (param3Reg c).toNat = 44 + 8 * c.number.toNat := by
  cases c <;> rfl

/-- The parameter-3 byte that a Multisynth setup leaves: two bits of P1 and the recorded exponent (R47). -/
theorem exec_setupMs_param3
    (hi : i = .setupMs c.number p a b d ∨ (i = .setupMsInt c.number p a ∧ b = 0))
    (h : exec i s = .next t) (hok : t.lastStatus = some .ok) : ∃ x : BitVec 2,
      t.chip.read (44 + 8 * c.number.toNat) =
        some (x.setWidth 8 ||| rdivBits s.params.rdivShift (s.st.rdiv.get c)) := by
  obtain ⟨d', -, -, block⟩ := exec_setupMs_reads hi h hok
  have number : (msBase c).toNat + 2 = 44 + 8 * c.number.toNat := by cases c <;> rfl
  exact ⟨_, number ▸ block 2 (by decide)⟩

theorem exec_setupRdiv_reads {e : RdivExp} (h : exec (.setupRdiv c.number e) s = .next t)
    (hok : t.lastStatus = some .ok) : t.chip.read (44 + 8 * c.number.toNat) =
      some (mergeRdiv s.params.rdivShift (s.upcoming 0).byte e) := by
  have plan : plannedRequests (.setupRdiv c.number e) s = setupRdivRequests c e s := by
    simp [plannedRequests]
  rw [← param3Reg_toNat]
  exact exec_read_of_planned_write (k := 1) h hok (by rw [plan]; rfl) (by rw [plan]; nofun)

end Device

/-- Settles O49: each command's registers by its lemma above. -/
theorem writtenRegistersReadBack : Obligations.WrittenRegistersReadBack := by
  refine ⟨fun f load s t h hok => ?_, fun i p s t hi h hok => exec_setupPll_reads hi h hok,
    fun i c p a b d s t hi h hok => ?_, fun c e s t h hok => ?_⟩
  · obtain ⟨oe, drivers, loadcap, ss⟩ := exec_init_reads h hok
    refine ⟨oe, fun n hmin hmax => ?_, loadcap, ss⟩
    obtain ⟨k, rfl⟩ := Nat.exists_eq_add_of_le hmin
    exact drivers k (by omega)
  · obtain ⟨d', responses, clkctl, block⟩ := exec_setupMs_reads hi h hok
    exact ⟨_, responses, by cases c <;> rfl, clkctl, block⟩
  · rw [exec_setupRdiv_reads h hok, mergeRdiv_eq_ofNat]

end Sys2Proof.Machine
end

section
/-! Claims over several commands (R47, R65, R90): the exponent until the next Multisynth setup, the disabled
outputs, and the boot sequence. -/

namespace Sys2Proof.Machine

/-! ### The exponent in the parameter-3 byte (R47, R65, R94) -/

/-- Inside the byte and apart from bits [1:0] the exponent is read back where it was put. -/
theorem exponent_of_p1Top_or_rdivBits {shift : Nat} (hmin : 2 ≤ shift) (hmax : shift ≤ 5) (x : BitVec 2)
    (r : RdivExp) : (x.setWidth 8 ||| rdivBits shift r).extractLsb' shift 3 = r := by
  revert x r
  interval_cases shift <;> decide

/-- At its default position the exponent replaces bits [7:5] of the byte read (R74). -/
theorem mergeRdiv_five (v : Byte) (e : RdivExp) : mergeRdiv 5 v e = e ++ v.extractLsb' 0 5 := by
  have split : v = v.extractLsb' 5 3 ++ v.extractLsb' 0 5 :=
    ((slice_append_slice v 0 5 3).trans slice_whole).symm
  have mask : BitVec.ofNat 8 (2 ^ 5 - 1) = 0#3 ++ BitVec.allOnes 5 := by decide
  have exponent : rdivBits 5 e = e ++ 0#5 := by revert e; decide
  rw [mergeRdiv, mask, exponent]
  nth_rw 1 [split]
  rw [BitVec.and_append, BitVec.or_append, BitVec.and_allOnes, BitVec.and_zero,
    BitVec.zero_or, BitVec.or_zero]

/-- Settles O37: the byte of a Multisynth setup by `p1Top_or_rdivBits_five`, that of SETUP_RDIV by
`mergeRdiv_five`, each read off its parts. -/
theorem sharedParameter3Byte : Obligations.SharedParameter3Byte := by
  refine ⟨fun c p a b d s t shift h hok => ?_, fun c e s t shift h hok => ?_⟩
  · obtain ⟨x, byte⟩ := exec_setupMs_param3 (.inl rfl) h hok
    rw [shift, p1Top_or_rdivBits_five] at byte
    refine ⟨_, byte, ?_, ?_⟩
    · exact (slice_high (by decide)).trans <| (slice_low (by decide)).trans slice_whole
    · exact (slice_high (by decide)).trans <| (slice_high (by decide)).trans slice_whole
  · have byte := exec_setupRdiv_reads h hok
    rw [shift, mergeRdiv_five] at byte
    refine ⟨_, byte, ?_, ?_⟩
    · exact (slice_low (by decide)).trans slice_whole
    · exact (slice_high (by decide)).trans slice_whole

section Exponent
variable {first : Instr} {is : List Instr} {c : Channel} {e : RdivExp} {s t : State}

/-- A successful SETUP_RDIV records its exponent, a successful INIT the exponent 0. -/
theorem exec_records_exponent (hi : first = .setupRdiv c.number e ∨ (first.isInit = true ∧ e = 0))
    (h : exec first s = .next t) (hok : t.lastStatus = some .ok) : t.st.rdiv.get c = e := by
  rcases hi with rfl | ⟨isInit, rfl⟩
  · obtain ⟨c', hc, device⟩ := exec_st_of_ok h hok
    obtain rfl : c = c' := by simpa using congrArg channelOf hc
    rw [device, recordRDivider_rdiv, PerChannel.get_set_self]
  · obtain ⟨-, -, cleared⟩ := exec_init_clears h isInit
    rw [cleared]
    cases c <;> rfl

/-- The recorded exponent lasts until the next INIT or SETUP_RDIV on the channel. -/
theorem execAll_keeps_exponent (hi : ∀ j ∈ is, j.isInit = false ∧ ∀ e, j ≠ .setupRdiv c.number e)
    (h : execAll is s = .next t) : t.params = s.params ∧ t.st.rdiv.get c = s.st.rdiv.get c := by
  refine execAll_keeps (P := fun u => u.params = s.params ∧ u.st.rdiv.get c = s.st.rdiv.get c)
    (fun j hj u v kept hexec => ?_) ⟨rfl, rfl⟩ h
  obtain ⟨notInit, notRdiv⟩ := hi j hj
  obtain ⟨params, rdiv⟩ := kept
  obtain ⟨-, paramsKept, -⟩ := exec_frame hexec
  refine ⟨paramsKept.trans params, Eq.trans ?_ rdiv⟩
  by_contra changed
  exact notRdiv _ (exec_rdiv_changed hexec notInit changed).2

end Exponent

/-- Settles O36: the exponent is recorded, lasts, and is in the byte the Multisynth setup writes. -/
theorem exponentSurvivesToMultisynth : Obligations.ExponentSurvivesToMultisynth := by
  intro c e first between i p a b d s t u v sound hfirst h hok hbetween run hi h' hok'
  obtain ⟨-, firstParams, -⟩ := exec_frame h
  obtain ⟨params, rdiv⟩ := execAll_keeps_exponent hbetween run
  have hi' : ∃ b', i = .setupMs c.number p a b' d ∨ (i = .setupMsInt c.number p a ∧ b' = 0) :=
    hi.elim (fun hi => ⟨b, .inl hi⟩) fun hi => ⟨0, .inr ⟨hi, rfl⟩⟩
  obtain ⟨b', hi'⟩ := hi'
  obtain ⟨x, byte⟩ := exec_setupMs_param3 hi' h' hok'
  rw [params, firstParams, rdiv, exec_records_exponent hfirst h hok] at byte
  exact ⟨_, byte, exponent_of_p1Top_or_rdivBits sound.1 sound.2 x e⟩

/-! ### The outputs stay disabled (R69, R90) -/

theorem oeReg_not_mem_mayWrite {i : Instr} (notInit : i.isInit = false) : 3 ∉ i.mayWrite := by
  cases i with
  | init => exact absurd notInit nofun
  | setupPll p | setupPllInt p => cases p <;> simp [Instr.mayWrite, List.range_succ]
  | setupMs ch | setupMsInt ch | setupRdiv ch =>
    simp only [Instr.mayWrite]
    split
    · simp [List.range_succ]; omega
    · simp
  | _ => simp [Instr.mayWrite]

/-- A register that none of the commands may write keeps its byte. -/
theorem execAll_read_of_not_mem_mayWrite {is : List Instr} {s t : State} {n : Nat}
    (h : execAll is s = .next t) (hn : ∀ i ∈ is, n ∉ i.mayWrite) : t.chip.read n = s.chip.read n :=
  execAll_keeps (P := fun u => u.chip.read n = s.chip.read n)
    (fun i hi _ _ kept hexec => (exec_read_of_not_mem_mayWrite hexec (hn i hi)).trans kept) rfl h

/-- Settles O52: INIT's bytes by `exec_init_reads`, kept by every command that may not write the register. -/
theorem outputsStayDisabled : Obligations.OutputsStayDisabled := by
  intro f load is s t u h hok notInit run
  obtain ⟨oe, drivers, -⟩ := exec_init_reads h hok
  refine ⟨?_, fun n hn free => ?_⟩
  · exact (execAll_read_of_not_mem_mayWrite run fun i hi => oeReg_not_mem_mayWrite (notInit i hi)).trans oe
  · have kept : u.chip.read (16 + n) = some s.params.initPdnByte :=
      (execAll_read_of_not_mem_mayWrite run free).trans (drivers n hn)
    refine ⟨kept, fun bit => ?_⟩
    rw [Memory.driverPoweredDown, kept, Option.map_some, bit]

/-! ### The boot sequence (R90) -/

section Boot
variable {s : State}

theorem State.dropAnswers_add (s : State) (m n : Nat) :
    s.dropAnswers (m + n) = (s.dropAnswers m).dropAnswers n := by
  induction m generalizing s with
  | zero => rw [Nat.zero_add, State.dropAnswers_zero]
  | succ m ih => rw [Nat.add_right_comm, State.dropAnswers_succ, State.dropAnswers_succ, ih]

/-- After a command the answers to come go on where it stopped. -/
theorem State.upcoming_ends (reqs : List Request) (resp : Response) (d : Device) (k : Nat) :
    (s.ends reqs resp d).upcoming k = s.upcoming (reqs.length + k) := by
  have rest := State.upcoming_congr (s := s.ends reqs resp d) (t := s.dropAnswers reqs.length) rfl rfl k
  rw [rest, State.upcoming, ← State.dropAnswers_add, State.upcoming]

/-- The command completes from `s` in `t` after `n` transactions, and the answers after them are left. -/
structure Completes (i : Instr) (n : Nat) (s t : State) : Prop where
  next : exec i s = .next t
  ok : t.lastStatus = some .ok
  device : DeviceAfterOk i s t.st
  responses : t.responses = s.responses ++ [completeResponse i s]
  params : t.params = s.params
  trace : t.trace.length = s.trace.length + n
  answers : ∀ k, t.upcoming k = s.upcoming (n + k)

/-- A valid command whose `n` requests meet answers `ok` completes. -/
theorem exec_completes {i : Instr} {n : Nat} (gate : GateOpen i s) (valid : ¬ InvalidCause i s)
    (length : (plannedRequests i s).length = n) (answers : ∀ k, k < n → (s.upcoming k).ok = true) :
    ∃ t, Completes i n s t := by
  subst length
  obtain ⟨d, device, h⟩ := exec_of_all_ok gate valid answers
  refine ⟨_, h, ?_, device, rfl, State.ends_params .., ?_, State.upcoming_ends _ _ _⟩
  · rw [State.ends_lastStatus, completeResponse_status]
  · rw [State.ends_trace, List.length_append, State.length_answered]

end Boot

/-- Settles O53: each command completes by `exec_completes` and leaves the answers, the parameters and the
device state that the next one needs; the outputs stay disabled by `outputsStayDisabled`. -/
theorem bootSequence : Obligations.BootSequence := by
  intro f load p a b c ch d n m s hpll hms unchecked answers hz
  obtain ⟨s1, init⟩ := exec_completes (i := .init f load) (n := 13) (fun _ => nofun) id rfl
    fun k hk => answers k (by omega)
  have st1 : s1.st = ⟨true, f, ⟨false, false⟩, ⟨0, 0⟩, ⟨0, 0, 0⟩⟩ := init.device
  obtain ⟨s2, pll⟩ := exec_completes (i := .setupPll p a b c) (n := 2) (s := s1) (fun _ _ => by rw [st1])
    (not_not_intro hpll) rfl fun k hk => init.answers k ▸ answers _ (by omega)
  obtain ⟨configured, frequency, -⟩ := setupPll_records pll.next pll.ok
  obtain ⟨initKept, pllCfg⟩ := pll.device.pllCfg_of_configures rfl
  rw [st1] at frequency initKept pllCfg
  have valid : ¬ InvalidCause (.setupMs ch.number p d n m) s2 := by
    rw [invalidCause_setupMs_iff hms configured]
    rintro ⟨enabled, -⟩
    rw [pll.params, init.params, unchecked] at enabled
    exact absurd enabled nofun
  obtain ⟨t, ms⟩ := exec_completes (i := .setupMs ch.number p d n m) (n := 2) (s := s2)
    (fun _ _ => initKept) valid (by simp [plannedRequests, setupMsRequests])
    fun k hk => pll.answers k ▸ init.answers _ ▸ answers _ (by omega)
  have rest : execAll [.setupPll p a b c, .setupMs ch.number p d n m] s1 = .next t :=
    (execAll_cons pll.next).trans (execAll_cons ms.next)
  obtain ⟨disabled, -⟩ :=
    outputsStayDisabled f load _ s s1 t init.next init.ok (by simp [Instr.isInit]) rest
  obtain ⟨-, -, clkctl, -⟩ := exec_setupMs_reads (.inl rfl) ms.next ms.ok
  obtain ⟨driverBit, -⟩ := clkctlByte_bits s2.params.clkctlLow p n
  refine ⟨t, _, _, _, (execAll_cons init.next).trans rest, ?_, completeResponse_status (.init f load) s,
    completeResponse_status (.setupPll p a b c) s1, completeResponse_status (.setupMs ch.number p d n m) s2,
    ?_, ?_, ?_, ?_, disabled, ?_⟩
  · rw [ms.responses, pll.responses, init.responses]
    simp
  · rw [completeResponse, st1]
    exact (BitVec.toNat_ofNat ..).trans (Nat.mod_eq_of_lt (pllHzOf_lt hpll f))
  · rw [completeResponse, channelOf_number, Option.elim_some, setupMsResponse_freq_toNat hms, frequency]
  · have kept : t.st = s2.st := ms.device
    rw [kept, lifecycle_of_initialised initKept, pllCfg]
  · rw [newTrace, List.length_drop, ms.trace, pll.trace, init.trace]
    omega
  · rw [Memory.driverPoweredDown, clkctl, Option.map_some, driverBit]

end Sys2Proof.Machine
end

section
/-! Lines of text (R51): every command's line assembles to its word, and every line taken is a command. -/

namespace Sys2Proof.Machine

/-! ### From a command to its word -/

section Line
variable {num : Nat → List Char}

/-- A byte written in a 32-bit field reads back with its upper bits 0. -/
theorem numberOperand_byte (h : WritesNumbers num) (v : Byte) :
    numberOperand 32 (num v.toNat) = some (v.setWidth 32) := by
  have number : (v.setWidth 32).toNat = v.toNat := BitVec.toNat_setWidth_of_le (by decide)
  rw [← number, numberOperand_number h]

/-- The tokens of a command give the fields of its encoding, every unlisted field 0. -/
theorem assembleFields_tokens (h : WritesNumbers num) (i : Instr) :
    assembleFields (i.tokens num).1 (i.tokens num).2 = some i.toCommand := by
  cases i <;> simp [Instr.tokens, assembleFields, numberOperand_number h, numberOperand_byte h,
    Instr.toCommand, Instr.opcode, Block.highOperand, Block.lowOperand]

theorem assemble_instr_line (h : WritesNumbers num) (i : Instr) :
    assemble (i.line num) = some (encode i) := by
  obtain ⟨mnemonic, nonempty, operands⟩ := isToken_tokens h i
  rw [Instr.line, assemble_line mnemonic nonempty operands, assembleFields_tokens h, Option.map_some, encode]

/-- INIT's load operand may be any number of its field (R51). -/
theorem assemble_init_line (h : WritesNumbers num) (f l : Operand) :
    assemble (String.ofList ("init".toList ++ ' ' :: separated [num f.toNat, num l.toNat])) =
      some { Command.bare 0x1 with a := f, b := l : Command }.toWord := by
  have mnemonic : IsToken "init".toList := (isToken_tokens h (.init f 0)).1
  rw [assemble_line mnemonic (List.cons_ne_nil _ _) (by simp [isToken_number h])]
  simp [assembleFields, numberOperand_number h]

end Line

/-! ### From a line that is taken to a command -/

theorem bitOfPll_surjective : Function.Surjective bitOfPll := fun v => ⟨pllOfBit v, bitOfPll_pllOfBit v⟩

theorem bitOfKind_surjective : Function.Surjective bitOfKind :=
  fun v => ⟨kindOfBit v, bitOfKind_kindOfBit v⟩

/-- The fields of a line that is taken are those of a command's encoding, or of an INIT with a load operand
of 32 bits: one case per row of R51. -/
theorem assembleFields_cases {m : String} {ops : List (List Char)} {c : Command}
    (h : assembleFields m ops = some c) :
    (∃ i : Instr, c = i.toCommand) ∨ ∃ f l : Operand, c = { Command.bare 0x1 with a := f, b := l } := by
  unfold assembleFields at h
  split at h
  case h_11 => exact absurd h nofun
  all_goals simp only [Option.bind_eq_some_iff, Option.bind_eq_bind, Option.some.injEq] at h
  case h_1 =>
    obtain ⟨f, -, l, -, rfl⟩ := h
    exact .inr ⟨f, l, rfl⟩
  case h_2 =>
    obtain ⟨v, -, x, -, y, -, z, -, rfl⟩ := h
    obtain ⟨p, rfl⟩ := bitOfPll_surjective v
    exact .inl ⟨.setupPll p x y z, rfl⟩
  case h_3 =>
    obtain ⟨v, -, x, -, rfl⟩ := h
    obtain ⟨p, rfl⟩ := bitOfPll_surjective v
    exact .inl ⟨.setupPllInt p x, rfl⟩
  case h_4 =>
    obtain ⟨ch, -, v, -, x, -, y, -, z, -, rfl⟩ := h
    obtain ⟨p, rfl⟩ := bitOfPll_surjective v
    exact .inl ⟨.setupMs ch p x y z, rfl⟩
  case h_5 =>
    obtain ⟨ch, -, v, -, x, -, rfl⟩ := h
    obtain ⟨p, rfl⟩ := bitOfPll_surjective v
    exact .inl ⟨.setupMsInt ch p x, rfl⟩
  case h_6 =>
    obtain ⟨ch, -, e, -, rfl⟩ := h
    exact .inl ⟨.setupRdiv ch e, rfl⟩
  case h_7 =>
    obtain ⟨v, -, x, -, y, -, z, -, rfl⟩ := h
    obtain ⟨k, rfl⟩ := bitOfKind_surjective v
    exact .inl ⟨.pack k x y z, rfl⟩
  case h_8 =>
    obtain ⟨v, -, x, -, y, -, z, -, rfl⟩ := h
    obtain ⟨p, rfl⟩ := bitOfPll_surjective v
    exact .inl ⟨.serPll p x y z, rfl⟩
  case h_9 =>
    obtain ⟨ch, -, e, -, x, -, y, -, z, -, rfl⟩ := h
    exact .inl ⟨.serMs ch e x y z, rfl⟩
  case h_10 =>
    obtain ⟨d0, -, d1, -, d2, -, d3, -, d4, -, d5, -, d6, -, d7, -, rfl⟩ := h
    exact .inl ⟨.unpack ⟨d0, d1, d2, d3, d4, d5, d6, d7⟩, rfl⟩

theorem fields_of_assemble {line : String} {w : CommandWord} (h : assemble line = some w) :
    ∃ m ops c, assembleFields m ops = some c ∧ c.toWord = w := by
  unfold assemble at h
  dsimp only at h
  split at h
  · next c hc => exact ⟨_, _, c, hc, Option.some.inj h⟩
  · exact absurd h nofun

/-- Settles O7: lines by `assemble_instr_line` and `assemble_init_line`; conversely the fields of a line
that is taken are a command's by `assembleFields_cases`. -/
theorem assembledLinesAreCommands : Obligations.AssembledLinesAreCommands := by
  refine ⟨fun num h => ⟨assemble_instr_line h, assemble_init_line h⟩, fun line w h => ?_⟩
  obtain ⟨m, ops, c, hc, rfl⟩ := fields_of_assemble h
  rcases assembleFields_cases hc with ⟨i, rfl⟩ | ⟨f, l, rfl⟩
  · exact ⟨i, decodeOfEncode i, fun _ => rfl, fun _ => ⟨i.toCommand.b, rfl⟩⟩
  · refine ⟨.init f (l.extractLsb' 0 8), ?_, nofun, fun _ => ⟨l, rfl⟩⟩
    rw [decode, Command.ofWord_toWord]
    rfl

end Sys2Proof.Machine
end
